-- ==== Sys2Proof/Word.lean ====
section
/-! DEFINITION. The word types of LZ77 CORE: only what the spec treats as bits is a bit vector. Lengths, cursors
and addresses are natural numbers (00_scope.md R10: unsigned, no operation wraps). -/

namespace Sys2Proof

/-- A byte of IN, OUT or a token field (00_scope.md R9: BYTE = 8 bits). -/
abbrev Byte := BitVec 8

/-- The 12-bit distance field (00_scope.md R9: DIST_BITS). -/
abbrev Distance := BitVec 12

/-- The 4-bit length field (00_scope.md R9: LEN_BITS). -/
abbrev MatchLen := BitVec 4

end Sys2Proof
end

