-- ==== Sys2Proof/Config.lean ====
section
/-! DEFINITION. What is fixed for one machine: the format constants of 00_scope.md R9, the open parameters of
00_scope.md section 4, and the free values, for everything the spec says holds no value. -/

namespace Sys2Proof

/-- The two byte memories, disjoint (20_memory.md R64). -/
inductive Space where
  | input
  | output
  deriving DecidableEq, Repr

/-- The parameters the source leaves open (92_eei_decisions.md D5, D17, D10). `none` is "unbounded". REG_MAP and cycle
counts are open too, and no rule depends on them (93_implementation_defined.md U13). -/
structure Config where
  /-- CAP_IN: capacity of IN in bytes. -/
  capIn : Option Nat
  /-- CAP_OUT: capacity of OUT in bytes. -/
  capOut : Option Nat
  /-- LEN_W: width in bits of IN_LEN, OUT_LEN and I; NB and RP have three bits more. -/
  lenW : Option Nat
  /-- STRICT_LEN: a decoder that faults on a match length below 4 (93_implementation_defined.md U5), default off. -/
  strictLen : Bool
  deriving DecidableEq, Repr

namespace Config

/-- The spec's defaults: every capacity and width unbounded, STRICT_LEN off. -/
def standard : Config := { capIn := none, capOut := none, lenW := none, strictLen := false }

/-- WINDOW: the greatest distance. -/
@[simp] abbrev window : Nat := 4095
/-- MAX_LEN: the greatest match length. -/
@[simp] abbrev maxLen : Nat := 15
/-- MIN_LEN: the least match length the MatchFinder returns. -/
@[simp] abbrev minLen : Nat := 4
/-- LIT_TOKEN_BITS = 1 + 8. -/
@[simp] abbrev litTokenBits : Nat := 9
/-- MATCH_TOKEN_BITS = 1 + 12 + 4 (90_conflicts.md C1: not 13). -/
@[simp] abbrev matchTokenBits : Nat := 17
/-- MIN_TOKEN_BITS: the decoder's loop guard. -/
@[simp] abbrev minTokenBits : Nat := 9

/-- FREE VALUE: what byte `a` of a memory holds when nothing has written it since reset number `epoch`
(70_reset_and_hazards.md R215, R216). Log entry 5. -/
opaque powerUpByte : Space → (epoch : Nat) → (a : Nat) → Byte

/-- FREE VALUE: what HOST reads at OUT[a] where that byte has no specified value (44_host_commands.md R179). It depends on
the resets and the CORE steps so far and on the address, but not on earlier reads (20_memory.md R61). Log entry 7. -/
opaque unspecifiedByte : (epoch fresh a : Nat) → Byte

/-- FREE VALUE: what register number `slot` is left with by the CORE step that draws number `n`, where the spec says that
the register holds no value (10_state.md R25, R26, R28 to R30). Log entry 6. -/
opaque staleValue : (n slot : Nat) → Nat

end Config

end Sys2Proof
end

