-- ==== Sys2Proof/Syntax.lean ====
section
/-! DEFINITION. The syntax, whole: one constructor for each of the 26 rows of spec/opcode_table.json. Tokens and
command codes have a binary encoding; unit operations are actions of the control state machine and have none
(30_encoding.md R85). -/

namespace Sys2Proof

inductive Instr where
  /-- LIT: the literal token, `0 ++ byte[8]` (30_encoding.md R77, 43_decoder.md R157). -/
  | lit (byte : Byte)
  /-- MATCH: the match token, `1 ++ distance[12] ++ length[4]` (30_encoding.md R78, 43_decoder.md R158). -/
  | matchTok (distance : Distance) (length : MatchLen)
  /-- PAD: the pseudo-token at the end of a stream (30_encoding.md R83, R89). -/
  | pad
  /-- COMPRESS: CMD <- 1 (44_host_commands.md R175). -/
  | compress
  /-- DECOMPRESS: CMD <- 2 (44_host_commands.md R176). -/
  | decompress
  /-- CMD.NOP0: CMD <- 0 (44_host_commands.md R177). -/
  | cmdNop0
  /-- CMD.RSVD3: CMD <- 3 (44_host_commands.md R177). -/
  | cmdRsvd3
  /-- BS.NEW (40_bitstream.md R100). -/
  | bsNew
  /-- BS.PUSH1(b) (40_bitstream.md R101). -/
  | bsPush1 (b : Bool)
  /-- BS.PUSHF(x, N) (40_bitstream.md R102). -/
  | bsPushf (x : List Byte) (n : Nat)
  /-- BS.PAD (40_bitstream.md R103). -/
  | bsPad
  /-- BS.TOBYTES (40_bitstream.md R104). -/
  | bsTobytes
  /-- BS.LOAD(c), c being IN[0 .. IN_LEN-1] by the storage overlay (40_bitstream.md R105, log entry 10). -/
  | bsLoad
  /-- BS.REMAIN (40_bitstream.md R106). -/
  | bsRemain
  /-- BS.POP(N) (40_bitstream.md R107). -/
  | bsPop (n : Nat)
  /-- BS.PEEK(N) (40_bitstream.md R108). -/
  | bsPeek (n : Nat)
  /-- MF.WRAP(x, n) (41_matchfinder.md R120). -/
  | mfWrap (x : List Byte) (n : Nat)
  /-- MF.FIND(data, position) (41_matchfinder.md R121 to R126). -/
  | mfFind (data : List Byte) (position : Nat)
  /-- ENC.INIT (42_encoder.md R140). -/
  | encInit
  /-- ENC.STEP (42_encoder.md R141). -/
  | encStep
  /-- ENC.EMIT_LIT(b) (42_encoder.md R142). -/
  | encEmitLit (b : Byte)
  /-- ENC.EMIT_MATCH(d, l) (42_encoder.md R143). -/
  | encEmitMatch (d : Distance) (l : MatchLen)
  /-- ENC.FINAL (42_encoder.md R144). -/
  | encFinal
  /-- DEC.INIT (43_decoder.md R155). -/
  | decInit
  /-- DEC.STEP (43_decoder.md R156). -/
  | decStep
  /-- DEC.FINAL (43_decoder.md R160). -/
  | decFinal
  deriving DecidableEq, Repr

end Sys2Proof
end

