-- ==== Sys2Proof/Machine/State.lean ====
section
/-! DEFINITION. The state as plain data: everything 10_state.md gives the machine, then the model's own fields; the
reasons a step can stop; the state after reset. -/

namespace Sys2Proof.Machine

/-- PHASE (10_state.md R24). -/
inductive Phase where
  | idle
  | encInit
  | encRun
  | decInit
  | decRun
  | done
  | fault
  deriving DecidableEq, Repr

/-- A byte memory: (address, byte) pairs, addresses strictly rising. An address that is not listed holds no value
(70_reset_and_hazards.md R215), so no entry can equal what an unlisted address reads as. -/
abbrev Memory := List Host.Cell

/-- The step-local registers: MF_VALID to EB2 of 10_state.md R29 and FLAG to K of 10_state.md R30. They hold no value
between CORE steps: `endStep` of Machine/Ops.lean leaves free values in them. -/
structure Locals where
  mfValid : Bool
  mfDist : Distance
  mfLen : MatchLen
  eb1 : Byte
  eb2 : Byte
  flag : Bool
  litb : Byte
  b1 : Byte
  b2 : Byte
  dist : Distance
  len : MatchLen
  k : BitVec 4
  deriving DecidableEq, Repr

/-- What a unit operation returns (00_scope.md R12: `return v`). -/
inductive UnitValue where
  | nothing
  | number (n : Nat)
  | bytes (x : List Byte)
  /-- MF.FIND: `none`, or the distance and the length. -/
  | found (r : Option (Nat × Nat))
  deriving DecidableEq, Repr

/-- One move of HOST (44_host_commands.md R179, 10_state.md R22, 70_reset_and_hazards.md R215, R218). -/
inductive HostMove where
  /-- A bus word written to CMD. -/
  | writeCmd (w : Nat)
  | writeStatus (v : Nat)
  | writeInLen (n : Nat)
  | writeOutLen (v : Nat)
  | writeIn (a : Nat) (b : Byte)
  | readCmd
  | readStatus
  | readInLen
  | readOutLen
  | readOut (a : Nat)
  /-- Read STATUS until BUSY = 0 is read (70_reset_and_hazards.md R218, step 6). -/
  | poll
  /-- HOST does nothing while CORE takes one step. -/
  | coreTurn
  /-- The external reset. -/
  | reset
  deriving DecidableEq, Repr

/-- The typed failures of CORE, exactly the constructors of 60_exceptions.md R195. Each is TAKEN by its step: `raise` of
Machine/Ops.lean answers a next state with PHASE = FAULT, so no step answers `Outcome.fault` (log entry 17, safe). -/
inductive Fault where
  /-- Raised by DEC.INIT when IN_LEN = 0 (60_exceptions.md R191); taken as a next state, safe. -/
  | emptyInput
  /-- MalformedStream(TRUNCATED), raised by a match token with fewer than 16 bits after its flag (R192); taken as a next
  state, safe. -/
  | truncated
  /-- MalformedStream(DISTANCE), raised by a match token whose distance is 0 or beyond OUT_LEN (R193), or, with STRICT_LEN
  on, whose length is below 4; taken as a next state, safe. -/
  | distance
  deriving DecidableEq, Repr

/-- Why a step has no transition. -/
inductive Refusal where
  /-- Raised by an arm of exec that has no meaning yet; safe. -/
  | notModelled (mnemonic : String)
  /-- Raised by a control operation asked for in a PHASE, or under a guard, in which 10_state.md R24 gives it no
  transition ("no other CORE transitions exist"); safe. -/
  | notEnabled
  /-- Raised by POP, PEEK and LIT when fewer bits remain than they take (40_bitstream.md R107, U9); safe. -/
  | popUnderflow
  /-- Raised by PUSHF with N > 8*len(x) (40_bitstream.md R102); safe. -/
  | fieldTooLong
  /-- Raised by TOBYTES of a stream that is not padded (40_bitstream.md R104); safe. -/
  | streamNotPadded
  /-- Raised by MF.WRAP of the empty sequence (41_matchfinder.md R120, U1); safe. -/
  | wrapOfEmpty
  /-- Raised by MF.FIND with position > len(data) (41_matchfinder.md R121, U10); safe. -/
  | findPastEnd
  /-- Raised by ENC.EMIT_MATCH outside 1 <= d, 4 <= l (42_encoder.md R143); safe. -/
  | emitOutOfRange
  /-- Raised by an operation that would write OUT at or beyond CAP_OUT (20_memory.md R63, U7); safe. -/
  | beyondCapOut
  /-- Raised by an operation whose count or length does not fit its LEN_W bits (U7); safe. -/
  | beyondLenW
  /-- Raised by a HOST write of IN[a], a >= CAP_IN, or read of OUT[a], a >= CAP_OUT: no such byte (10_state.md R32, R33);
  safe. -/
  | noSuchByte
  /-- Raised by a HOST write of IN_LEN above CAP_IN or too wide for LEN_W (U7); safe. -/
  | inLenOutOfRange
  /-- Raised by a HOST access to IN, IN_LEN, OUT or OUT_LEN while BUSY = 1 (U6, 70_reset_and_hazards.md R218): the model
  gives HOST no such move. UNSAFE: a claim says nothing of a HOST that makes it (log entry 14). -/
  | hostDuty
  deriving DecidableEq, Repr

structure State where
  /-- PHASE, 10_state.md R24. -/
  phase : Phase
  /-- ERR_CODE, 10_state.md R27. -/
  errCode : BitVec 2
  /-- IN_LEN, 10_state.md R22; LEN_W bits wide. -/
  inLen : Nat
  /-- OUT_LEN, 10_state.md R22; LEN_W bits wide. -/
  outLen : Nat
  /-- I, the encoder byte cursor, 10_state.md R25; LEN_W bits wide. -/
  i : Nat
  /-- NB, the write-stream bit count, 10_state.md R28; LEN_W+3 bits wide. -/
  nb : Nat
  /-- RP, the decoder bit cursor, 10_state.md R26; LEN_W+3 bits wide. -/
  rp : Nat
  /-- The step-local registers, 10_state.md R29, R30. -/
  loc : Locals
  /-- IN, 10_state.md R32. -/
  inMem : Memory
  /-- OUT, 10_state.md R33. -/
  outMem : Memory
  /-- The open parameters, written by no step (log entry 8). -/
  cfg : Config
  /-- The model's own: HOST's moves still to come (log entry 1). -/
  host : List HostMove
  /-- The model's own: what the last HOST read returned (log entry 7). -/
  hostData : Nat
  /-- The model's own: what the last unit operation returned (log entry 10). -/
  ret : UnitValue
  /-- The model's own: how many resets there were, the index of the memories' free contents (log entry 5). -/
  epoch : Nat
  /-- The model's own: the counter of the other free values (log entries 6 and 7). -/
  fresh : Nat
  deriving DecidableEq, Repr

/-- DESIGN CHOICE (log entry 4): the step-local registers hold no value at reset; the model puts zero. -/
def Locals.zero : Locals :=
  { mfValid := false, mfDist := 0, mfLen := 0, eb1 := 0, eb2 := 0, flag := false, litb := 0, b1 := 0, b2 := 0, dist := 0,
    len := 0, k := 0 }

/-- Reset of a machine with given parameters: PHASE, ERR_CODE, IN_LEN and OUT_LEN as 70_reset_and_hazards.md R215 says,
nothing listed in IN and OUT; I, NB and RP are DESIGN CHOICE 0 (log entry 3). -/
def State.resetWith (cfg : Config) : State :=
  { phase := .idle, errCode := 0, inLen := 0, outLen := 0, i := 0, nb := 0, rp := 0, loc := Locals.zero, inMem := [],
    outMem := [], cfg := cfg, host := [], hostData := 0, ret := .nothing, epoch := 0, fresh := 0 }

/-- The machine right after reset, with the spec's default parameters. -/
def State.reset : State := State.resetWith Config.standard

end Sys2Proof.Machine
end

