-- ==== Sys2Proof/Machine/Flags.lean ====
section
/-! DEFINITION. The one-bit conditions and the STATUS register (10_state.md R23, R31). There are no condition codes;
MF_VALID and FLAG are step-local registers. -/

namespace Sys2Proof.Machine

/-- BUSY: PHASE is ENC_INIT, ENC_RUN, DEC_INIT or DEC_RUN. -/
def State.busy (s : State) : Bool :=
  match s.phase with
  | .idle => false
  | .encInit => true
  | .encRun => true
  | .decInit => true
  | .decRun => true
  | .done => false
  | .fault => false

/-- DONE: PHASE = DONE. -/
def State.done (s : State) : Bool := decide (s.phase = .done)

/-- ERR: PHASE = FAULT. -/
def State.err (s : State) : Bool := decide (s.phase = .fault)

/-- STATUS: bit 0 BUSY, bit 1 DONE, bit 2 ERR, bits 4:3 ERR_CODE when ERR = 1 and 0 otherwise (10_state.md R23). -/
def State.status (s : State) : BitVec 5 :=
  (if s.err then s.errCode else 0#2) ++ (BitVec.ofBool s.err ++ (BitVec.ofBool s.done ++ BitVec.ofBool s.busy))

/-- ERR_CODE of a failure (60_exceptions.md R195). -/
def faultCode : Fault → BitVec 2
  | .emptyInput => 1
  | .truncated => 2
  | .distance => 3

end Sys2Proof.Machine
end

