-- ==== Sys2Proof/WellFormed.lean ====
section
/-! DEFINITION. Which instructions are well formed: the operand domains the rules state, as far as they concern the
operands alone. Field widths are in the types; every LIT and MATCH field value is an encoding the Decoder meets
(30_encoding.md R87), so tokens have no further check. -/

namespace Sys2Proof

/-- The operand domain of each operation. -/
def Instr.wf : Instr → Bool
  | .lit _ => true
  | .matchTok _ _ => true
  | .pad => true
  | .compress => true
  | .decompress => true
  | .cmdNop0 => true
  | .cmdRsvd3 => true
  | .bsNew => true
  | .bsPush1 _ => true
  | .bsPushf x n => decide (n ≤ 8 * x.length)          -- 40_bitstream.md R102
  | .bsPad => true
  | .bsTobytes => true
  | .bsLoad => true
  | .bsRemain => true
  | .bsPop _ => true
  | .bsPeek _ => true
  | .mfWrap x _ => !x.isEmpty                           -- 41_matchfinder.md R120
  | .mfFind data position => decide (position ≤ data.length)   -- 41_matchfinder.md R121
  | .encInit => true
  | .encStep => true
  | .encEmitLit _ => true
  | .encEmitMatch d l => decide (1 ≤ d.toNat) && decide (4 ≤ l.toNat)   -- 42_encoder.md R143
  | .encFinal => true
  | .decInit => true
  | .decStep => true
  | .decFinal => true

end Sys2Proof
end

