-- ==== Sys2Proof/Decode.lean ====
section
/-! DEFINITION. Bits and bytes of the stream, the token decoder (total on any bits, rejecting by name), the command
code decoder, the encoder written from the format tables, and the assembler of 30_encoding.md section 7. -/

namespace Sys2Proof

/-! ### Bits and bytes, most significant bit first (20_memory.md R50 to R52) -/

/-- The `n`-bit field of `v`, most significant bit first (00_scope.md R10, R11). -/
def fieldBits : (n v : Nat) → List Bool
  | 0, _ => []
  | n + 1, v => v.testBit n :: fieldBits n v

/-- The number formed by bits, the first the most significant (20_memory.md R54). -/
def bitsToNat (bs : List Bool) : Nat := bs.foldl (fun v b => 2 * v + b.toNat) 0

/-- The eight stream bits of a byte (20_memory.md R50). -/
def byteBits (b : Byte) : List Bool := fieldBits 8 b.toNat

/-- The stream bits of a byte sequence (20_memory.md R51, 40_bitstream.md R105). -/
def bytesBits (x : List Byte) : List Bool := x.flatMap byteBits

/-- The byte whose bits are the first eight of `bs`, zeros where `bs` ends before. -/
def byteOfBits (bs : List Bool) : Byte := BitVec.ofNat 8 (bitsToNat ((bs ++ List.replicate 8 false).take 8))

/-- The first `n` bytes of a bit string, 8 bits at a time. -/
def packCount : (n : Nat) → List Bool → List Byte
  | 0, _ => []
  | n + 1, bs => byteOfBits bs :: packCount n (bs.drop 8)

/-- A bit string as bytes, zero bits added up to a whole byte (20_memory.md R53, R58). -/
def packBytes (bs : List Bool) : List Byte := packCount ((bs.length + 7) / 8) bs

/-- How many zero bits end a stream of `nb` bits: P of 30_encoding.md R83. -/
def padCount (nb : Nat) : Nat := (8 - nb % 8) % 8

/-! ### Operand assembly (30_encoding.md R79, R80) -/

/-- byte1 = distance >> 4. -/
def matchByte1 (d : Distance) : Byte := (d >>> 4).setWidth 8

/-- byte2 = ((distance & 0xF) << 4) | length. -/
def matchByte2 (d : Distance) (l : MatchLen) : Byte := ((d &&& 0xF) <<< 4).setWidth 8 ||| l.setWidth 8

/-- distance = (byte1 << 4) | (byte2 >> 4). -/
def matchDistance (b1 b2 : Byte) : Distance := (b1.setWidth 12 <<< 4) ||| (b2.setWidth 12 >>> 4)

/-- length = byte2 & 0xF. -/
def matchLength (b2 : Byte) : MatchLen := (b2 &&& 0xF).setWidth 4

/-! ### Decoding -/

/-- What the Decoder finds at a place of the stream. -/
inductive Decoded where
  /-- A whole token, and the bits after it. -/
  | token (i : Instr) (rest : List Bool)
  /-- Fewer than 9 bits: padding, of any value (30_encoding.md R83). -/
  | padding
  /-- Rejected: a match flag with fewer than 16 bits after it (60_exceptions.md R192). -/
  | truncatedMatch
  deriving DecidableEq, Repr

/-- One token from the front of a bit string (30_encoding.md R80, R82, R83). -/
def decodeBits (bs : List Bool) : Decoded :=
  if bs.length < 9 then .padding
  else
    match bs with
    | [] => .padding
    | false :: r => .token (.lit (byteOfBits r)) (r.drop 8)
    | true :: r =>
      if r.length < 16 then .truncatedMatch
      else
        .token (.matchTok (matchDistance (byteOfBits r) (byteOfBits (r.drop 8))) (matchLength (byteOfBits (r.drop 8))))
          (r.drop 16)

/-- One token from the front of any bytes. -/
def decode (bytes : List Byte) : Decoded := decodeBits (bytesBits bytes)

/-- The command a bus word written to CMD stands for: only the low 2 bits are looked at (44_host_commands.md R175 to
R177). -/
def decodeCmd (w : Nat) : Instr :=
  match w % 4 with
  | 1 => .compress
  | 2 => .decompress
  | 3 => .cmdRsvd3
  | _ => .cmdNop0

/-! ### Encoding -/

/-- The binary forms of spec/opcode_table.json. -/
inductive Encoding where
  /-- A token: its bits in stream order (formats T9 and T17). -/
  | token (bits : List Bool)
  /-- A value of the CMD register. -/
  | command (code : BitVec 2)
  /-- PAD: no opcode, only bits up to the next byte boundary (30_encoding.md R85). -/
  | padding
  /-- A unit operation: no binary encoding (30_encoding.md R85). -/
  | none
  deriving DecidableEq, Repr

/-- The encoding of each row, from the format tables of 30_encoding.md R77 and R78 and 44_host_commands.md R175 to
R177. -/
def encode : Instr → Encoding
  | .lit byte => .token (false :: fieldBits 8 byte.toNat)
  | .matchTok distance length => .token (true :: (fieldBits 12 distance.toNat ++ fieldBits 4 length.toNat))
  | .pad => .padding
  | .compress => .command 1
  | .decompress => .command 2
  | .cmdNop0 => .command 0
  | .cmdRsvd3 => .command 3
  | .bsNew | .bsPush1 _ | .bsPushf _ _ | .bsPad | .bsTobytes | .bsLoad | .bsRemain | .bsPop _ | .bsPeek _ => .none
  | .mfWrap _ _ | .mfFind _ _ => .none
  | .encInit | .encStep | .encEmitLit _ | .encEmitMatch _ _ | .encFinal => .none
  | .decInit | .decStep | .decFinal => .none

/-- The bits an instruction has in a token stream: none unless it is a token. -/
def tokenBits (i : Instr) : List Bool :=
  match encode i with
  | .token bits => bits
  | .command _ => []
  | .padding => []
  | .none => []

/-- The instruction an encoding stands for; `none` for an operation without encoding and for token bits that are not
exactly one token. -/
def Encoding.decode : Encoding → Option Instr
  | .token bits =>
    match decodeBits bits with
    | .token i [] => some i
    | .token _ (_ :: _) => Option.none
    | .padding => Option.none
    | .truncatedMatch => Option.none
  | .command code => some (decodeCmd code.toNat)
  | .padding => some .pad
  | .none => Option.none

/-! ### Assembler and disassembler (30_encoding.md R88 to R90) -/

/-- One line of token assembly. -/
inductive AsmItem where
  /-- LIT or MATCH. -/
  | tok (i : Instr)
  /-- BITS: exactly these bits, a test directive. -/
  | bits (bs : List Bool)
  /-- PAD: zero bits to the next byte boundary. -/
  | pad
  deriving DecidableEq, Repr

/-- The bits a line adds to a stream of `nb` bits. -/
def AsmItem.bitsAt (nb : Nat) : AsmItem → List Bool
  | .tok i => tokenBits i
  | .bits bs => bs
  | .pad => List.replicate (padCount nb) false

/-- The bit string of a program, after `nb` bits. -/
def assembleBits (nb : Nat) : List AsmItem → List Bool
  | [] => []
  | x :: rest => x.bitsAt nb ++ assembleBits (nb + (x.bitsAt nb).length) rest

/-- The bytes of a program (20_memory.md R53). -/
def assemble (prog : List AsmItem) : List Byte := packBytes (assembleBits 0 prog)

/-- At most `fuel` tokens from the front of a bit string, and the bits left over. -/
def disassembleBits : (fuel : Nat) → List Bool → List Instr × List Bool
  | 0, bs => ([], bs)
  | fuel + 1, bs =>
    match decodeBits bs with
    | .token i rest => (i :: (disassembleBits fuel rest).1, (disassembleBits fuel rest).2)
    | .padding => ([], bs)
    | .truncatedMatch => ([], bs)

/-- The tokens of a byte sequence from stream bit 0, and the bits that are no token: trailing padding or a truncated
match (30_encoding.md R90). Every token has at least 9 bits, so the fuel never runs out. -/
def disassemble (bytes : List Byte) : List Instr × List Bool :=
  disassembleBits (8 * bytes.length) (bytesBits bytes)

/-! ### Words of the opcode table -/

/-- How many bits the stream token of a table word has: the rows' own lengths are 9 and 17, which the table's whole
bytes round up to 16 and 24 (log entry 18). -/
def tableTokenBits (nbits : Nat) : Nat := if nbits ≤ 16 then 9 else 17

/-- The bytes of a table word as the hardware stores a token: its most significant bit first in the stream. -/
def tableBytes (nbits w : Nat) : List Byte := packBytes (fieldBits (tableTokenBits nbits) w)

/-- The instruction the decoder reads from a word of spec/opcode_table.json: up to 8 bits a CMD value, more a token. -/
def decodeTableWord (nbits w : Nat) : Option Instr :=
  if nbits = 0 then none
  else if nbits ≤ 8 then some (decodeCmd w)
  else
    match decode (tableBytes nbits w) with
    | .token i _ => some i
    | .padding => none
    | .truncatedMatch => none

end Sys2Proof
end

