-- ==== Sys2Proof/Machine/Memory.lean ====
section
/-! DEFINITION. The named operations over a byte memory, and the capacities and widths of 00_scope.md section 4. -/

namespace Sys2Proof.Machine

/-- What an address that is not listed reads as: no value (70_reset_and_hazards.md R215). -/
def Memory.unlisted : Option Byte := none

/-- The byte at an address. -/
def Memory.get (m : Memory) (a : Nat) : Option Byte :=
  match m with
  | [] => Memory.unlisted
  | (x, b) :: rest => if a = x then some b else Memory.get rest a

/-- Write one byte, keeping the addresses strictly rising. -/
def Memory.set (m : Memory) (a : Nat) (b : Byte) : Memory :=
  match m with
  | [] => [(a, b)]
  | (x, c) :: rest =>
    if a < x then (a, b) :: (x, c) :: rest
    else if a = x then (a, b) :: rest
    else (x, c) :: Memory.set rest a b

/-- Write consecutive bytes from an address on. -/
def Memory.setAll (m : Memory) (a : Nat) : List Byte → Memory
  | [] => m
  | b :: rest => Memory.setAll (m.set a b) (a + 1) rest

/-- The canonical form: addresses strictly rising. No entry can equal what an unlisted address reads as, since that is
no value. -/
abbrev Memory.wf (m : Memory) : Prop := List.Pairwise (fun x y => x.1 < y.1) m

/-- The memory has a value at every address below `n`. -/
abbrev Memory.filled (m : Memory) (n : Nat) : Prop := ∀ a < n, (m.get a).isSome = true

/-- `n` is below an optional limit. -/
def belowLimit (limit : Option Nat) (n : Nat) : Bool :=
  match limit with
  | none => true
  | some k => decide (n < k)

/-- `n` bytes fit an optional capacity. -/
def fitsCap (cap : Option Nat) (n : Nat) : Bool :=
  match cap with
  | none => true
  | some k => decide (n ≤ k)

/-- `n` fits the LEN_W bits of IN_LEN, OUT_LEN and I. -/
def fitsLen (c : Config) (n : Nat) : Bool :=
  match c.lenW with
  | none => true
  | some w => decide (n < 2 ^ w)

/-- `n` fits the LEN_W+3 bits of NB and RP. -/
def fitsBits (c : Config) (n : Nat) : Bool :=
  match c.lenW with
  | none => true
  | some w => decide (n < 2 ^ (w + 3))

/-- `n` cut to the LEN_W bits of a register. -/
def cutLen (c : Config) (n : Nat) : Nat :=
  match c.lenW with
  | none => n
  | some w => n % 2 ^ w

/-- `n` cut to LEN_W+3 bits. -/
def cutBits (c : Config) (n : Nat) : Nat :=
  match c.lenW with
  | none => n
  | some w => n % 2 ^ (w + 3)

end Sys2Proof.Machine
end

