-- ==== Sys2Proof/Machine/Operands.lean ====
section
/-! DEFINITION. How operands are read: bytes of IN and OUT, bits of the two streams, the fields of a token, slices of
the input. -/

namespace Sys2Proof.Machine

/-! ### Bytes -/

/-- IN[a]; a byte nothing has written is a free value (70_reset_and_hazards.md R216, log entry 5). -/
def State.inByte (s : State) (a : Nat) : Byte := (s.inMem.get a).getD (Config.powerUpByte .input s.epoch a)

/-- OUT[a]; a byte nothing has written is a free value. -/
def State.outByte (s : State) (a : Nat) : Byte := (s.outMem.get a).getD (Config.powerUpByte .output s.epoch a)

/-- IN[0 .. IN_LEN-1], the command's input (10_state.md R32). -/
def State.inputBytes (s : State) : List Byte := (List.range s.inLen).map s.inByte

/-- OUT[0 .. n-1]. -/
def State.outBytes (s : State) (n : Nat) : List Byte := (List.range n).map s.outByte

/-- OUT[0 .. OUT_LEN-1], the result at DONE (10_state.md R33). -/
def State.outputBytes (s : State) : List Byte := s.outBytes s.outLen

/-! ### Bits -/

/-- Stream bit `n` of bytes given by address: `(x[n // 8] >> (7 - n % 8)) & 1` (20_memory.md R54). -/
def streamBit (x : Nat → Byte) (n : Nat) : Bool := (x (n / 8)).getLsbD (7 - n % 8)

/-- `BitRead(n, N)`: the first bit read is the most significant (20_memory.md R54). -/
def streamRead (x : Nat → Byte) (n : Nat) : (count : Nat) → Nat
  | 0 => 0
  | count + 1 => 2 * streamRead x n count + (streamBit x (n + count)).toNat

/-- Bit `n` of the read stream, laid over IN. -/
def State.inBit (s : State) (n : Nat) : Bool := streamBit s.inByte n

/-- Bit `n` of the write stream, laid over OUT. -/
def State.outBit (s : State) (n : Nat) : Bool := streamBit s.outByte n

/-- `BitRead` on the read stream. -/
def State.bitRead (s : State) (n count : Nat) : Nat := streamRead s.inByte n count

/-- The bits that remain: `8*IN_LEN - RP` (10_state.md R26, 40_bitstream.md R106). -/
def State.remain (s : State) : Nat := 8 * s.inLen - s.rp

/-- The bits the Decoder can look at from RP: as many as the longest token has, or as remain. -/
def State.fetchBits (s : State) : List Bool :=
  (List.range (min Config.matchTokenBits s.remain)).map fun t => s.inBit (s.rp + t)

/-- What the Decoder finds at RP (43_decoder.md R156). -/
def State.fetched (s : State) : Decoded := decodeBits s.fetchBits

/-! ### Slices -/

/-- `x[a:b]`: half-open, empty when a >= b (00_scope.md R11). -/
def slice (x : List Byte) (a b : Nat) : List Byte := (x.drop a).take (b - a)

end Sys2Proof.Machine
end

