-- ==== Sys2Proof/Machine/Ops.lean ====
section
/-! DEFINITION. The shared operations: raising a failure, appending to the write stream and to OUT, the room a step
needs, what a CORE step leaves without a value, which CORE step is enabled, and what the fetch of one word needs. -/

namespace Sys2Proof.Machine

/-- The outcomes of this machine. -/
abbrev Result := Host.Outcome State Fault Refusal

/-! ### Taking a failure, and what stands for a return -/

/-- `raise F` (60_exceptions.md R196): ERR_CODE and PHASE only, on the state from before the step, so that every other
effect of the step is undone (R197). Nothing is saved; there is no handler. -/
def raise (f : Fault) (s : State) : Result := .next { s with errCode := faultCode f, phase := .fault }

/-- An accepted command (44_host_commands.md R175, R176): clears ERR_CODE, which is also the only way but reset to leave
FAULT (60_exceptions.md R202). While BUSY = 1 the write is ignored (R177). -/
def acceptCommand (p : Phase) (s : State) : Result :=
  if s.busy then .next s else .next { s with errCode := 0, phase := p }

/-! ### The write stream: (OUT, NB) -/

/-- Append one bit (20_memory.md R53). -/
def pushBit (s : State) (b : Bool) : State :=
  let old : Byte := if s.nb % 8 = 0 then 0 else s.outByte (s.nb / 8)
  { s with
    outMem := s.outMem.set (s.nb / 8) (old ||| ((BitVec.ofBool b).setWidth 8 <<< (7 - s.nb % 8)))
    nb := s.nb + 1 }

/-- Append bits in order (20_memory.md R53). -/
def pushBits (s : State) (bs : List Bool) : State := bs.foldl pushBit s

/-- Why `n` more bits cannot be appended: a byte at or beyond CAP_OUT would be written, or NB would not fit its
LEN_W+3 bits (20_memory.md R63, 93_implementation_defined.md U7). -/
def bitRoom (s : State) (n : Nat) : Option Refusal :=
  if n = 0 then none
  else if fitsCap s.cfg.capOut ((s.nb + n + 7) / 8) = false then some .beyondCapOut
  else if fitsBits s.cfg (s.nb + n) = false then some .beyondLenW
  else none

/-- Answer `t` unless there is a reason not to. -/
def unlessRefused (why : Option Refusal) (t : State) : Result :=
  match why with
  | none => .next t
  | some r => .refused r

/-- Append bits where there is room for all of them, else nothing (log entry 8: the whole step has no transition). -/
def appendBits (s : State) (bs : List Bool) : Result := unlessRefused (bitRoom s bs.length) (pushBits s bs)

/-- The token of ENC.EMIT_LIT: PUSH1(0), PUSHF([b], 8) (42_encoder.md R142). -/
def litTokenOf (b : Byte) : List Bool := false :: byteBits b

/-- The token of ENC.EMIT_MATCH: PUSH1(1), PUSHF([EB1, EB2], 16) (42_encoder.md R143). -/
def matchTokenOf (d : Distance) (l : MatchLen) : List Bool := true :: bytesBits [matchByte1 d, matchByte2 d l]

/-! ### The output of the Decoder: OUT and OUT_LEN -/

/-- Append one byte to OUT. -/
def appendOut (s : State) (b : Byte) : State := { s with outMem := s.outMem.set s.outLen b, outLen := s.outLen + 1 }

/-- Why `n` more bytes cannot be appended. -/
def outRoom (s : State) (n : Nat) : Option Refusal :=
  if n = 0 then none
  else if fitsCap s.cfg.capOut (s.outLen + n) = false then some .beyondCapOut
  else if fitsLen s.cfg (s.outLen + n) = false then some .beyondLenW
  else none

/-- Iterations 0 .. n-1 of the copy loop of a match token, in order: each reads `OUT[OUT_LEN - DIST]` of the output the
earlier ones have grown (43_decoder.md R158, 20_memory.md R66). -/
def copyLoop (d : Nat) : (n : Nat) → State → State
  | 0, s => s
  | n + 1, s =>
    let u := copyLoop d n s
    { appendOut u (u.outByte (u.outLen - d)) with loc := { u.loc with k := BitVec.ofNat 4 n } }

/-! ### What a CORE step leaves without a value -/

/-- Free values in all step-local registers (10_state.md section 4: they hold no value between steps). -/
def Locals.stale (n : Nat) : Locals :=
  { mfValid := (Config.staleValue n 0).testBit 0
    mfDist := BitVec.ofNat 12 (Config.staleValue n 1)
    mfLen := BitVec.ofNat 4 (Config.staleValue n 2)
    eb1 := BitVec.ofNat 8 (Config.staleValue n 3)
    eb2 := BitVec.ofNat 8 (Config.staleValue n 4)
    flag := (Config.staleValue n 5).testBit 0
    litb := BitVec.ofNat 8 (Config.staleValue n 6)
    b1 := BitVec.ofNat 8 (Config.staleValue n 7)
    b2 := BitVec.ofNat 8 (Config.staleValue n 8)
    dist := BitVec.ofNat 12 (Config.staleValue n 9)
    len := BitVec.ofNat 4 (Config.staleValue n 10)
    k := BitVec.ofNat 4 (Config.staleValue n 11) }

/-- I and NB hold a value in ENC_RUN only (10_state.md R25, R28). -/
def keepsEncoderCursors (p : Phase) : Bool :=
  match p with
  | .encRun => true
  | .idle | .encInit | .decInit | .decRun | .done | .fault => false

/-- RP holds a value in DEC_RUN only (10_state.md R26), and a failure leaves it as it was (43_decoder.md R158). -/
def keepsReadCursor (p : Phase) : Bool :=
  match p with
  | .decRun | .fault => true
  | .idle | .encInit | .encRun | .decInit | .done => false

/-- The end of a CORE step: what holds no value from here on becomes a free value (log entry 6). -/
def endStep (s : State) : State :=
  { s with
    loc := Locals.stale s.fresh
    i := if keepsEncoderCursors s.phase then s.i else cutLen s.cfg (Config.staleValue s.fresh 12)
    nb := if keepsEncoderCursors s.phase then s.nb else cutBits s.cfg (Config.staleValue s.fresh 13)
    rp := if keepsReadCursor s.phase then s.rp else cutBits s.cfg (Config.staleValue s.fresh 14)
    ret := .nothing
    fresh := s.fresh + 1 }

/-- `endStep` on a step that answers a next state. -/
def finishStep (r : Result) : Result :=
  match r with
  | .next s => .next (endStep s)
  | .fault f => .fault f
  | .refused q => .refused q

/-! ### Which CORE step is enabled -/

/-- The transition table of 10_state.md R24; `none` where no step is enabled and CORE waits. -/
def enabledOp (s : State) : Option Instr :=
  match s.phase with
  | .idle => none
  | .encInit => some .encInit
  | .encRun => if s.i < s.inLen then some .encStep else if s.i = s.inLen then some .encFinal else none
  | .decInit => some .decInit
  | .decRun => if 9 ≤ s.remain then some .decStep else some .decFinal
  | .done => none
  | .fault => none

/-! ### Placing one word for the next step -/

/-- The state in which HOST's next move is the write of `w` to CMD. -/
def placeCommand (s : State) (w : Nat) : State := { s with host := [.writeCmd w] }

/-- The state in which a running DECOMPRESS is at the start of the token stream `bytes` and it is CORE's turn. -/
def placeStream (s : State) (bytes : List Byte) : State :=
  { s with phase := .decRun, inMem := Memory.setAll [] 0 bytes, inLen := bytes.length, rp := 0, host := [] }

end Sys2Proof.Machine
end

