-- ==== Sys2Proof/Machine/BitStream.lean ====
section
/-! DEFINITION. The BitStream unit (40_bitstream.md) and the pseudo-token PAD (30_encoding.md R83, R89). -/

namespace Sys2Proof.Machine

/-- BS.NEW (R100): NB <- 0; OUT is not cleared. -/
def execBsNew (s : State) : Result := .next { s with nb := 0 }

/-- BS.PUSH1(b) (R101). -/
def execBsPush1 (b : Bool) (s : State) : Result := appendBits s [b]

/-- BS.PUSHF(x, N) (R102): the first N bits of x, at any bit offset. -/
def execBsPushf (x : List Byte) (n : Nat) (s : State) : Result :=
  if n ≤ 8 * x.length then appendBits s ((bytesBits x).take n) else .refused .fieldTooLong

/-- BS.PAD (R103): zero bits up to the next multiple of 8. -/
def execBsPad (s : State) : Result := appendBits s (List.replicate (padCount s.nb) false)

/-- BS.TOBYTES (R104): the bytes are already OUT[0 .. NB/8 - 1]. -/
def execBsTobytes (s : State) : Result :=
  if s.nb % 8 = 0 then .next { s with ret := .bytes (s.outBytes (s.nb / 8)) } else .refused .streamNotPadded

/-- BS.LOAD(IN[0 .. IN_LEN-1]) (R105): with the storage overlay LOAD only sets RP <- 0. -/
def execBsLoad (s : State) : Result := .next { s with rp := 0 }

/-- BS.REMAIN (R106). -/
def execBsRemain (s : State) : Result := .next { s with ret := .number s.remain }

/-- BS.POP(N) (R107). -/
def execBsPop (n : Nat) (s : State) : Result :=
  if n ≤ s.remain then .next { s with ret := .number (s.bitRead s.rp n), rp := s.rp + n } else .refused .popUnderflow

/-- BS.PEEK(N) (R108): as POP, RP unchanged. -/
def execBsPeek (n : Nat) (s : State) : Result :=
  if n ≤ s.remain then .next { s with ret := .number (s.bitRead s.rp n) } else .refused .popUnderflow

/-- PAD. In a running decompression it is the fewer than 9 bits that remain: ignored, the command ends (30_encoding.md
R83, R87). Otherwise it is the assembler's PAD, what BS.PAD appends to the write stream (30_encoding.md R89). Log
entry 12. -/
def execPad (s : State) : Result :=
  match s.phase with
  | .decRun => if s.remain < 9 then .next { s with phase := .done } else .refused .notEnabled
  | .idle | .encInit | .encRun | .decInit | .done | .fault => appendBits s (List.replicate (padCount s.nb) false)

end Sys2Proof.Machine
end

