-- ==== Sys2Proof/Machine/Decoder.lean ====
section
/-! DEFINITION. The Decoder unit (43_decoder.md). -/

namespace Sys2Proof.Machine

/-- DEC.INIT (R155), enabled in DEC_INIT. -/
def execDecInit (s : State) : Result :=
  match s.phase with
  | .decInit =>
    if s.inLen = 0 then raise .emptyInput s else .next { s with rp := 0, outLen := 0, phase := .decRun }
  | .idle | .encInit | .encRun | .decRun | .done | .fault => .refused .notEnabled

/-- Token LIT (R157), its flag included: one byte appended, RP advanced by 9. Asked for by itself with fewer than 9 bits
remaining, where R156 enables no token, it is refused (log entry 19). -/
def execLit (byte : Byte) (s : State) : Result :=
  match s.phase with
  | .decRun =>
    if 9 ≤ s.remain then
      unlessRefused (outRoom s 1)
        (appendOut { s with rp := s.rp + 9, loc := { s.loc with flag := false, litb := byte } } byte)
    else .refused .popUnderflow
  | .idle | .encInit | .encRun | .decInit | .done | .fault => .refused .notEnabled

/-- The state of token MATCH after its fields are read: RP advanced by 17, FLAG, B1, B2, DIST and LEN written (R158). -/
def readMatch (d : Distance) (l : MatchLen) (s : State) : State :=
  { s with
    rp := s.rp + 17
    loc := { s.loc with flag := true, b1 := matchByte1 d, b2 := matchByte2 d l, dist := d, len := l } }

/-- The distance check of R158, made whatever the length is (R166, R167); with STRICT_LEN on, a length below 4 fails it
too (93_implementation_defined.md U5). -/
def badMatch (d : Distance) (l : MatchLen) (s : State) : Bool :=
  decide (d.toNat = 0) || decide (s.outLen < d.toNat) || (s.cfg.strictLen && decide (l.toNat < 4))

/-- Token MATCH (R158), its flag included: TRUNCATED, then DISTANCE, then the copy loop (60_exceptions.md R201). Asked for
by itself with fewer than 9 bits remaining, where R156 enables no token and the spec says nothing of the token, it raises
TRUNCATED too: DESIGN CHOICE, log entry 23. -/
def execMatchTok (d : Distance) (l : MatchLen) (s : State) : Result :=
  match s.phase with
  | .decRun =>
    if s.remain < 17 then raise .truncated s
    else if badMatch d l s then raise .distance s
    else unlessRefused (outRoom s l.toNat) (copyLoop d.toNat l.toNat (readMatch d l s))
  | .idle | .encInit | .encRun | .decInit | .done | .fault => .refused .notEnabled

/-- DEC.STEP (R156), enabled in DEC_RUN when at least 9 bits remain: fetch the token at RP and execute it. A match flag
without its 16 bits raises TRUNCATED. -/
def execDecStep (s : State) : Result :=
  match s.phase with
  | .decRun =>
    match s.fetched with
    | .token (.lit b) _ => execLit b s
    | .token (.matchTok d l) _ => execMatchTok d l s
    | .token _ _ => .refused .notEnabled
    | .truncatedMatch => raise .truncated s
    | .padding => .refused .notEnabled
  | .idle | .encInit | .encRun | .decInit | .done | .fault => .refused .notEnabled

/-- DEC.FINAL (R160), enabled in DEC_RUN when fewer than 9 bits remain; their values are not looked at (R162). -/
def execDecFinal (s : State) : Result :=
  match s.phase with
  | .decRun => if s.remain < 9 then .next { s with phase := .done } else .refused .notEnabled
  | .idle | .encInit | .encRun | .decInit | .done | .fault => .refused .notEnabled

end Sys2Proof.Machine
end

