-- ==== Sys2Proof/Machine/MatchFinder.lean ====
section
/-! DEFINITION. The MatchFinder unit (41_matchfinder.md): the wrapped slice and the search, as pure functions and as
operations that return a value. -/

namespace Sys2Proof.Machine

/-- MF.WRAP(x, n) (R120): x repeated n // len(x) times, then its first n % len(x) bytes. -/
def wrap (x : List Byte) (n : Nat) : List Byte :=
  (List.replicate (n / x.length) x).flatten ++ x.take (n % x.length)

/-- max_len = min(15, len(data) - position) (R122). -/
def maxMatchLen (data : List Byte) (position : Nat) : Nat := min Config.maxLen (data.length - position)

/-- The oldest position of the window: max(0, position - 4095) (R123). -/
def windowStart (position : Nat) : Nat := position - Config.window

/-- The candidate at s matches c bytes: MF.WRAP(data[s : position], c) = data[position : position + c] (R124, `M(s, c)` of
R129). -/
def matchesAt (data : List Byte) (position s c : Nat) : Bool :=
  wrap (slice data s position) c == slice data position (position + c)

/-- The inner loop of R124: the oldest window position that matches c bytes. -/
def findSource (data : List Byte) (position c : Nat) : Option Nat :=
  (List.range' (windowStart position) (position - windowStart position)).find? fun s => matchesAt data position s c

/-- The candidate lengths of R124 in order: max_len down to 4. -/
def candidateLens (data : List Byte) (position : Nat) : List Nat :=
  (List.range' Config.minLen (maxMatchLen data position + 1 - Config.minLen)).reverse

/-- MF.FIND(data, position) (R124): longest first, then oldest first, the first hit wins. -/
def find (data : List Byte) (position : Nat) : Option (Nat × Nat) :=
  (candidateLens data position).findSome? fun c => (findSource data position c).map fun s => (position - s, c)

/-- MF.WRAP as an operation; refused for an empty x (R120, U1). -/
def execMfWrap (x : List Byte) (n : Nat) (s : State) : Result :=
  if x.isEmpty then .refused .wrapOfEmpty else .next { s with ret := .bytes (wrap x n) }

/-- MF.FIND as an operation; refused past the end of data (R121, U10). -/
def execMfFind (data : List Byte) (position : Nat) (s : State) : Result :=
  if position ≤ data.length then .next { s with ret := .found (find data position) } else .refused .findPastEnd

end Sys2Proof.Machine
end

