-- ==== Sys2Proof/Machine/Encoder.lean ====
section
/-! DEFINITION. The Encoder unit (42_encoder.md). -/

namespace Sys2Proof.Machine

/-- ENC.INIT (R140), enabled in ENC_INIT. -/
def execEncInit (s : State) : Result :=
  match s.phase with
  | .encInit => .next { s with i := 0, nb := 0, outLen := 0, phase := .encRun }
  | .idle | .encRun | .decInit | .decRun | .done | .fault => .refused .notEnabled

/-- What ENC.EMIT_LIT(b) does where there is room: a T9 token (R142). -/
def emitLit (b : Byte) (s : State) : State := pushBits s (litTokenOf b)

/-- What ENC.EMIT_MATCH(d, l) does where there is room: EB1, EB2 and a T17 token (R143). -/
def emitMatch (d : Distance) (l : MatchLen) (s : State) : State :=
  pushBits { s with loc := { s.loc with eb1 := matchByte1 d, eb2 := matchByte2 d l } } (matchTokenOf d l)

/-- ENC.EMIT_LIT(b) (R142). -/
def execEncEmitLit (b : Byte) (s : State) : Result := unlessRefused (bitRoom s 9) (emitLit b s)

/-- ENC.EMIT_MATCH(d, l) (R143), for 1 <= d <= 4095 and 4 <= l <= 15. -/
def execEncEmitMatch (d : Distance) (l : MatchLen) (s : State) : Result :=
  if 1 ≤ d.toNat ∧ 4 ≤ l.toNat then unlessRefused (bitRoom s 17) (emitMatch d l s) else .refused .emitOutOfRange

/-- The match arm of ENC.STEP (R141). -/
def encodeMatch (d : Distance) (l : MatchLen) (s : State) : Result :=
  unlessRefused (bitRoom s 17)
    { emitMatch d l { s with loc := { s.loc with mfValid := true, mfDist := d, mfLen := l } } with i := s.i + l.toNat }

/-- The literal arm of ENC.STEP (R141). -/
def encodeLit (s : State) : Result :=
  unlessRefused (bitRoom s 9) { emitLit (s.inByte s.i) { s with loc := { s.loc with mfValid := false } } with i := s.i + 1 }

/-- ENC.STEP (R141), enabled in ENC_RUN when I < IN_LEN: one search, one token. -/
def execEncStep (s : State) : Result :=
  match s.phase with
  | .encRun =>
    if s.i < s.inLen then
      match find s.inputBytes s.i with
      | some (d, l) => encodeMatch (BitVec.ofNat 12 d) (BitVec.ofNat 4 l) s
      | none => encodeLit s
    else .refused .notEnabled
  | .idle | .encInit | .decInit | .decRun | .done | .fault => .refused .notEnabled

/-- ENC.FINAL (R144), enabled in ENC_RUN when I = IN_LEN: pad, then OUT_LEN <- NB // 8. -/
def execEncFinal (s : State) : Result :=
  match s.phase with
  | .encRun =>
    if s.i = s.inLen then
      let p := pushBits s (List.replicate (padCount s.nb) false)
      unlessRefused (bitRoom s (padCount s.nb)) { p with outLen := p.nb / 8, phase := .done }
    else .refused .notEnabled
  | .idle | .encInit | .decInit | .decRun | .done | .fault => .refused .notEnabled

end Sys2Proof.Machine
end

