-- ==== Sys2Proof/Machine/HostPort.lean ====
section
/-! DEFINITION. The host interface: the commands, which are writes to CMD (44_host_commands.md R175 to R177), and HOST's
other accesses (10_state.md R22, 44_host_commands.md R179). -/

namespace Sys2Proof.Machine

/-! ### The commands -/

/-- COMPRESS (R175). -/
def execCompress (s : State) : Result := acceptCommand .encInit s

/-- DECOMPRESS (R176). -/
def execDecompress (s : State) : Result := acceptCommand .decInit s

/-- CMD.NOP0 (R177): no operation at any time. -/
def execCmdNop0 (s : State) : Result := .next s

/-- CMD.RSVD3 (R177): reserved, no operation at any time. -/
def execCmdRsvd3 (s : State) : Result := .next s

/-! ### The other accesses -/

/-- An access HOST may make while BUSY = 0 only (R179; 93_implementation_defined.md U6). -/
def whileIdle (s : State) (r : Result) : Result := if s.busy then .refused .hostDuty else r

/-- A write to a read-only register is ignored (10_state.md R22). -/
def hostWriteReadOnly (_v : Nat) (s : State) : Result := .next s

/-- A write of IN_LEN: at most CAP_IN (R179), within LEN_W bits. -/
def hostWriteInLen (n : Nat) (s : State) : Result :=
  whileIdle s
    (if fitsCap s.cfg.capIn n && fitsLen s.cfg n then .next { s with inLen := n } else .refused .inLenOutOfRange)

/-- A write of IN[a], a < CAP_IN. -/
def hostWriteIn (a : Nat) (b : Byte) (s : State) : Result :=
  whileIdle s (if belowLimit s.cfg.capIn a then .next { s with inMem := s.inMem.set a b } else .refused .noSuchByte)

/-- A read of CMD returns 0 (10_state.md R22). -/
def hostReadCmd (s : State) : Result := .next { s with hostData := 0 }

/-- A read of STATUS, at any time, without side effect (R179). -/
def hostReadStatus (s : State) : Result := .next { s with hostData := s.status.toNat }

/-- A read of IN_LEN. -/
def hostReadInLen (s : State) : Result := whileIdle s (.next { s with hostData := s.inLen })

/-- A read of OUT_LEN. -/
def hostReadOutLen (s : State) : Result := whileIdle s (.next { s with hostData := s.outLen })

/-- A read of OUT[a]: a byte of the result at DONE, else a byte with no specified value (R179): a free value, the same one
until CORE steps again or is reset, since a read has no side effect and is idempotent (20_memory.md R61). -/
def hostReadOut (a : Nat) (s : State) : Result :=
  whileIdle s
    (if belowLimit s.cfg.capOut a = false then .refused .noSuchByte
     else if s.done && decide (a < s.outLen) then .next { s with hostData := (s.outByte a).toNat }
     else .next { s with hostData := (Config.unspecifiedByte s.epoch s.fresh a).toNat })

/-- The external reset (70_reset_and_hazards.md R215): as after reset, a running command abandoned, IN and OUT without
value. What belongs to HOST stays, and so do the parameters; the memories' free contents are new (log entry 20). -/
def hostReset (s : State) : Result :=
  .next { State.resetWith s.cfg with host := s.host, hostData := s.hostData, epoch := s.epoch + 1, fresh := s.fresh }

end Sys2Proof.Machine
end

