-- ==== Sys2Proof/Machine/Dispatch.lean ====
section
/-! DEFINITION. exec: one arm for each row of spec/opcode_table.json. -/

namespace Sys2Proof.Machine

def exec (i : Instr) (s : State) : Host.Outcome State Fault Refusal :=
  match i with
  | .lit byte => Sys2Proof.Machine.execLit byte s
  | .matchTok distance length => Sys2Proof.Machine.execMatchTok distance length s
  | .pad => Sys2Proof.Machine.execPad s
  | .compress => Sys2Proof.Machine.execCompress s
  | .decompress => Sys2Proof.Machine.execDecompress s
  | .cmdNop0 => Sys2Proof.Machine.execCmdNop0 s
  | .cmdRsvd3 => Sys2Proof.Machine.execCmdRsvd3 s
  | .bsNew => Sys2Proof.Machine.execBsNew s
  | .bsPush1 b => Sys2Proof.Machine.execBsPush1 b s
  | .bsPushf x n => Sys2Proof.Machine.execBsPushf x n s
  | .bsPad => Sys2Proof.Machine.execBsPad s
  | .bsTobytes => Sys2Proof.Machine.execBsTobytes s
  | .bsLoad => Sys2Proof.Machine.execBsLoad s
  | .bsRemain => Sys2Proof.Machine.execBsRemain s
  | .bsPop n => Sys2Proof.Machine.execBsPop n s
  | .bsPeek n => Sys2Proof.Machine.execBsPeek n s
  | .mfWrap x n => Sys2Proof.Machine.execMfWrap x n s
  | .mfFind data position => Sys2Proof.Machine.execMfFind data position s
  | .encInit => Sys2Proof.Machine.execEncInit s
  | .encStep => Sys2Proof.Machine.execEncStep s
  | .encEmitLit b => Sys2Proof.Machine.execEncEmitLit b s
  | .encEmitMatch d l => Sys2Proof.Machine.execEncEmitMatch d l s
  | .encFinal => Sys2Proof.Machine.execEncFinal s
  | .decInit => Sys2Proof.Machine.execDecInit s
  | .decStep => Sys2Proof.Machine.execDecStep s
  | .decFinal => Sys2Proof.Machine.execDecFinal s

end Sys2Proof.Machine
end

