-- ==== Sys2Proof/Machine/Step.lean ====
section
/-! DEFINITION. One step of the whole machine: HOST's next move, or CORE's step when it is CORE's turn. -/

namespace Sys2Proof.Machine

/-- One CORE step (10_state.md R24); the state is unchanged where no step is enabled and CORE waits (log entry 16). -/
def coreStep (s : State) : Host.Outcome State Fault Refusal :=
  match enabledOp s with
  | some i => finishStep (exec i s)
  | none => .next s

/-- HOST's next move is made first; CORE steps when HOST has none, gives it the turn, or waits for BUSY = 0. -/
def step (s : State) : Host.Outcome State Fault Refusal :=
  match s.host with
  | [] => coreStep s
  | .coreTurn :: rest => coreStep { s with host := rest }
  | .poll :: rest => if s.busy then coreStep s else hostReadStatus { s with host := rest }
  | .writeCmd w :: rest => exec (decodeCmd w) { s with host := rest }
  | .writeStatus v :: rest => hostWriteReadOnly v { s with host := rest }
  | .writeInLen n :: rest => hostWriteInLen n { s with host := rest }
  | .writeOutLen v :: rest => hostWriteReadOnly v { s with host := rest }
  | .writeIn a b :: rest => hostWriteIn a b { s with host := rest }
  | .readCmd :: rest => hostReadCmd { s with host := rest }
  | .readStatus :: rest => hostReadStatus { s with host := rest }
  | .readInLen :: rest => hostReadInLen { s with host := rest }
  | .readOutLen :: rest => hostReadOutLen { s with host := rest }
  | .readOut a :: rest => hostReadOut a { s with host := rest }
  | .reset :: rest => hostReset { s with host := rest }

/-- The state whose next step runs exactly the instruction of a table word: a CMD value as HOST's next move, a token at
the start of the stream of a running DECOMPRESS (log entry 2). -/
def State.withFetchWord (s : State) (nbits w : Nat) : State :=
  if nbits ≤ 8 then placeCommand s w else placeStream s (tableBytes nbits w)

end Sys2Proof.Machine
end

