-- ==== Sys2Proof/Machine/Functions.lean ====
section
/-! DEFINITION. The two transforms of the block as pure functions (00_scope.md R3): compress of 42_encoder.md R145 and
decompress of 43_decoder.md R161, written from those rules and not from the step machine. -/

namespace Sys2Proof.Machine

/-- The loop of `compress` from cursor i: at most `fuel` tokens. -/
def compressBits (data : List Byte) : (fuel i : Nat) → List Bool
  | 0, _ => []
  | fuel + 1, i =>
    if i < data.length then
      match find data i with
      | some (d, l) => true :: (fieldBits 12 d ++ fieldBits 4 l) ++ compressBits data fuel (i + l)
      | none => false :: fieldBits 8 (data.getD i 0).toNat ++ compressBits data fuel (i + 1)
    else []

/-- `compress(data)` (R145). Every token covers at least one byte, so `len(data)` iterations suffice. -/
def compress (data : List Byte) : List Byte :=
  let bits := compressBits data data.length 0
  packBytes (bits ++ List.replicate (padCount bits.length) false)

/-- What `decompress` returns. -/
inductive Decompressed where
  | ok (bytes : List Byte)
  | failed (f : Fault)
  deriving DecidableEq, Repr

/-- `repeat l times: out <- out ++ [out[len(out) - d]]` (R161). -/
def copyBytes (d : Nat) : (l : Nat) → List Byte → List Byte
  | 0, out => out
  | l + 1, out => copyBytes d l (out ++ [out.getD (out.length - d) 0])

/-- The loop of `decompress` from bit rp: at most `fuel` tokens. `strict` is STRICT_LEN. -/
def decompressFrom (strict : Bool) (c : List Byte) : (fuel rp : Nat) → List Byte → Decompressed
  | 0, _, out => .ok out
  | fuel + 1, rp, out =>
    if 8 * c.length - rp < 9 then .ok out
    else if streamBit (fun a => c.getD a 0) rp = false then
      decompressFrom strict c fuel (rp + 9) (out ++ [BitVec.ofNat 8 (streamRead (fun a => c.getD a 0) (rp + 1) 8)])
    else if 8 * c.length - rp < 17 then .failed .truncated
    else
      let w := streamRead (fun a => c.getD a 0) (rp + 1) 16
      let d := w / 16
      let l := w % 16
      if d = 0 ∨ out.length < d ∨ (strict = true ∧ l < 4) then .failed .distance
      else decompressFrom strict c fuel (rp + 17) (copyBytes d l out)

/-- `decompress(c)` with the STRICT_LEN switch. -/
def decompressWith (strict : Bool) (c : List Byte) : Decompressed :=
  if c.length = 0 then .failed .emptyInput else decompressFrom strict c (8 * c.length) 0 []

/-- `decompress(c)` (R161). -/
def decompress (c : List Byte) : Decompressed := decompressWith false c

end Sys2Proof.Machine
end

