-- ==== Sys2Proof/Safety.lean ====
section
/-! DEFINITION. The terms statements are made in: the invariant of the machine, what appending to a stream or to OUT
means seen through reads, and how much capacity a command needs. -/

namespace Sys2Proof.Machine

/-- The bits of the partly filled byte of the write stream below its last bit are zero (10_state.md R38,
20_memory.md R53). -/
def TailZero (s : State) : Prop := ∀ n, s.nb ≤ n → n < 8 * ((s.nb + 7) / 8) → s.outBit n = false

/-- The most bytes a stream of `bits` bits can decompress to (43_decoder.md R169). -/
def outBound (bits : Nat) : Nat := 15 * (bits / 17) + bits % 17 / 9

/-- What holds in every state the machine can be in. -/
structure Inv (s : State) : Prop where
  /-- IN is in canonical form. -/
  inWf : s.inMem.wf
  /-- OUT is in canonical form. -/
  outWf : s.outMem.wf
  /-- IN holds nothing at or above CAP_IN (10_state.md R32). -/
  inAddr : ∀ c ∈ s.inMem, belowLimit s.cfg.capIn c.1 = true
  /-- OUT holds nothing at or above CAP_OUT (10_state.md R33, 20_memory.md R63). -/
  outAddr : ∀ c ∈ s.outMem, belowLimit s.cfg.capOut c.1 = true
  /-- ERR_CODE is 0 but in FAULT (10_state.md R27). -/
  errCode : s.errCode ≠ 0 ↔ s.phase = .fault
  /-- IN_LEN <= CAP_IN (20_memory.md R63). -/
  inCap : fitsCap s.cfg.capIn s.inLen = true
  /-- OUT_LEN <= CAP_OUT. -/
  outCap : fitsCap s.cfg.capOut s.outLen = true
  /-- The registers fit their widths (10_state.md R22, R25, R26, R28). -/
  inLenWidth : fitsLen s.cfg s.inLen = true
  outLenWidth : fitsLen s.cfg s.outLen = true
  iWidth : fitsLen s.cfg s.i = true
  nbWidth : fitsBits s.cfg s.nb = true
  rpWidth : fitsBits s.cfg s.rp = true
  /-- Every byte below OUT_LEN has been written (70_reset_and_hazards.md R216). -/
  outFilled : s.outMem.filled s.outLen
  /-- ENC_RUN: the cursor is inside the input (10_state.md R25), the stream is at most 9 bits a byte (42_encoder.md
  R149), its bytes are written, its tail is zero (10_state.md R38). -/
  enc : s.phase = .encRun →
    s.i ≤ s.inLen ∧ s.nb ≤ 9 * s.i ∧ TailZero s ∧ s.outMem.filled ((s.nb + 7) / 8) ∧
      fitsCap s.cfg.capOut ((s.nb + 7) / 8) = true
  /-- DEC_RUN: the cursor is inside the stream (10_state.md R26), the output within its bound (43_decoder.md R169). -/
  dec : s.phase = .decRun → s.rp ≤ 8 * s.inLen ∧ s.outLen ≤ outBound s.rp

/-- `t`'s write stream is `s`'s with `bs` appended, and no other byte of OUT has changed (20_memory.md R53). The bytes
stored to are OUT[NB // 8] to the byte of the last appended bit. -/
structure Appended (s t : State) (bs : List Bool) : Prop where
  nb : t.nb = s.nb + bs.length
  before : ∀ n < s.nb, t.outBit n = s.outBit n
  added : ∀ k < bs.length, some (t.outBit (s.nb + k)) = bs[k]?
  tail : TailZero t
  elsewhere : ∀ a, a < s.nb / 8 ∨ (s.nb + bs.length + 7) / 8 ≤ a → t.outMem.get a = s.outMem.get a

/-- `t`'s output is `s`'s with `bytes` appended at OUT_LEN, and no other byte of OUT has changed (43_decoder.md R157,
R158). -/
structure OutAppended (s t : State) (bytes : List Byte) : Prop where
  outLen : t.outLen = s.outLen + bytes.length
  added : ∀ k < bytes.length, some (t.outByte (s.outLen + k)) = bytes[k]?
  elsewhere : ∀ a, a < s.outLen ∨ s.outLen + bytes.length ≤ a → t.outMem.get a = s.outMem.get a

/-- CAP_OUT and LEN_W suffice to compress `n` bytes, whatever they are (42_encoder.md R149, 20_memory.md R63). -/
def compressRoom (c : Config) (n : Nat) : Bool :=
  fitsCap c.capOut ((9 * n + 7) / 8) && fitsBits c (8 * ((9 * n + 7) / 8))

/-- CAP_OUT and LEN_W suffice to decompress `n` bytes, whatever they are (43_decoder.md R169, 20_memory.md R63). -/
def decompressRoom (c : Config) (n : Nat) : Bool :=
  fitsCap c.capOut (outBound (8 * n)) && fitsLen c (outBound (8 * n))

/-- `i` is one of the two tokens (30_encoding.md R85). -/
def isToken (i : Instr) : Bool :=
  match encode i with
  | .token _ => true
  | .command _ => false
  | .padding => false
  | .none => false

end Sys2Proof.Machine
end

