-- ==== Sys2Proof/Certificates/Slice0/Obligations.lean ====
section
/-! DEFINITION. The statements for the provers, one `def Obligations.<Name> : Prop` each. A next state is written as an
update of the old one wherever the instruction stores to no memory: that says the result, the completion and the frame at
once. Where it stores, `Appended` and `OutAppended` of Safety.lean say which bytes change, and the update says that
nothing else does. -/

open Sys2Proof Sys2Proof.Machine

/-! ### Encoding (30_encoding.md) -/

/-- R77, R78, R80, R82: for every instruction that has an encoding, decoding it gives the instruction back, with every
operand at every value; a token is also read right whatever follows it in the stream. -/
def Obligations.DecodingInvertsEncoding : Prop :=
  (∀ i : Instr, encode i ≠ .none → (encode i).decode = some i) ∧
  (∀ (i : Instr) (rest : List Bool), isToken i = true → decodeBits (tokenBits i ++ rest) = .token i rest)

/-- R90: disassembly gives back the tokens a program was assembled from; it is total, and what it leaves over is padding
or a truncated match; inputs that differ only in fewer than 9 left-over bits have the same tokens. -/
def Obligations.DisassemblyInvertsAssembly : Prop :=
  (∀ T : List Instr, (∀ i ∈ T, isToken i = true) →
    disassemble (assemble (T.map AsmItem.tok ++ [.pad])) =
      (T, List.replicate (padCount (T.flatMap tokenBits).length) false)) ∧
  (∀ x : List Byte,
    (disassemble x).1.flatMap tokenBits ++ (disassemble x).2 = bytesBits x ∧
    ((disassemble x).2.length < 9 ∨ ∃ r, (disassemble x).2 = true :: r ∧ r.length < 16)) ∧
  (∀ x y : List Byte, x.length = y.length → (disassemble x).2.length < 9 →
    (bytesBits y).take ((disassemble x).1.flatMap tokenBits).length = (disassemble x).1.flatMap tokenBits →
    (disassemble y).1 = (disassemble x).1)

/-- R77, R78, R175 to R177: words written out bit by bit decode to the instruction they stand for. -/
def Obligations.WrittenOutWordsDecode : Prop :=
  decodeBits [false, false, true, true, false, false, false, false, true] = .token (.lit 0x61) [] ∧
  decodeBits [true, false, false, false, false, false, false, false, false, false, false, false, true,
    false, true, false, false] = .token (.matchTok 1 4) [] ∧
  decodeBits [true, false, false, false, true, false, false, true, false, false, false, false, false,
    true, true, false, false] = .token (.matchTok 288 12) [] ∧
  decode [0x30, 0xC0] = .token (.lit 0x61) [true, false, false, false, false, false, false] ∧
  decodeCmd 0b00 = .cmdNop0 ∧ decodeCmd 0b01 = .compress ∧ decodeCmd 0b10 = .decompress ∧ decodeCmd 0b11 = .cmdRsvd3

/-- The model's own (log entries 2 and 18): a table word placed for the next step is decoded and run by it, a command
with nothing around it, a token followed by what ends a CORE step. -/
def Obligations.PlacedTableWordRuns : Prop :=
  ∀ (s : State) (nbits w : Nat) (i : Instr), decodeTableWord nbits w = some i →
    (nbits ≤ 8 → step (s.withFetchWord nbits w) = exec i { s with host := [] }) ∧
    (8 < nbits → step (s.withFetchWord nbits w) = finishStep (exec i (s.withFetchWord nbits w)))

/-- R84: a byte appended to a padded token stream with at least one pad bit makes the Decoder meet one more token, a
literal, since the first bit that remains is a zero of the padding. -/
def Obligations.AppendedByteDecodesAsALiteral : Prop :=
  ∀ (T : List Instr) (x : Byte), (∀ i ∈ T, isToken i = true) → 1 ≤ padCount (T.flatMap tokenBits).length →
    ∃ b, (disassemble (assemble (T.map AsmItem.tok ++ [.pad]) ++ [x])).1 = T ++ [.lit b]

/-! ### The step (10_state.md R24) -/

/-- R82, R156 (with the model's HOST moves, log entry 1, and end of a step, log entry 6): when the bits at RP decode to a token, a CORE step is exec of that token, then what ends a CORE step; a
truncated match raises its failure; padding is DEC.FINAL. A write to CMD is exec of the command it stands for. -/
def Obligations.StepRunsTheDecodedInstruction : Prop :=
  (∀ (s : State) (i : Instr) (rest : List Bool), s.phase = .decRun → s.fetched = .token i rest →
    (s.host = [] → step s = finishStep (exec i s)) ∧
    (∀ hs, s.host = .coreTurn :: hs → step s = finishStep (exec i { s with host := hs }))) ∧
  (∀ s : State, s.phase = .decRun → s.host = [] → s.fetched = .truncatedMatch →
    step s = finishStep (raise .truncated s)) ∧
  (∀ s : State, s.phase = .decRun → s.host = [] → s.fetched = .padding → step s = finishStep (exec .decFinal s)) ∧
  (∀ (s : State) (w : Nat) (hs : List HostMove), s.host = .writeCmd w :: hs →
    step s = exec (decodeCmd w) { s with host := hs })

/-- R24: the transition table: which CORE step is enabled in each PHASE, and which PHASE follows. That a wait answers the
same state (log entry 16) and what `finishStep` frees at the end of a step (log entry 6) are the model's choices. -/
def Obligations.StepFollowsThePhaseTable : Prop :=
  (∀ s : State, s.host = [] →
    (s.phase = .idle ∨ s.phase = .done ∨ s.phase = .fault → step s = .next s) ∧
    (s.phase = .encInit → step s = finishStep (exec .encInit s)) ∧
    (s.phase = .encRun → s.i < s.inLen → step s = finishStep (exec .encStep s)) ∧
    (s.phase = .encRun → s.i = s.inLen → step s = finishStep (exec .encFinal s)) ∧
    (s.phase = .decInit → step s = finishStep (exec .decInit s)) ∧
    (s.phase = .decRun → 9 ≤ 8 * s.inLen - s.rp → step s = finishStep (exec .decStep s)) ∧
    (s.phase = .decRun → 8 * s.inLen - s.rp < 9 → step s = finishStep (exec .decFinal s)) ∧
    ∀ t, step s = .next t →
      (s.phase = .encInit → t.phase = .encRun) ∧
      (s.phase = .encRun → s.i < s.inLen → t.phase = .encRun) ∧
      (s.phase = .encRun → s.i = s.inLen → t.phase = .done) ∧
      (s.phase = .decInit → t.phase = .decRun ∨ t.phase = .fault) ∧
      (s.phase = .decRun → 9 ≤ 8 * s.inLen - s.rp → t.phase = .decRun ∨ t.phase = .fault) ∧
      (s.phase = .decRun → 8 * s.inLen - s.rp < 9 → t.phase = .done)) ∧
  (∀ (s t : State) (w : Nat) (hs : List HostMove), s.host = .writeCmd w :: hs → s.busy = false → step s = .next t →
    t.phase = s.phase ∨ t.phase = .encInit ∨ t.phase = .decInit) ∧
  State.reset.phase = .idle

/-- R223, R63: with unbounded capacities CORE is never without a transition: no CORE step is refused. -/
def Obligations.NoCoreStepIsRefusedWhenUnbounded : Prop :=
  ∀ s : State, s.cfg.capOut = none → s.cfg.lenW = none → s.host = [] → ∃ t, step s = .next t

/-- R190, R196 (log entry 17): every failure is taken as a transition to FAULT; no step answers `Outcome.fault`. -/
def Obligations.FailuresAreTakenAsTransitions : Prop := ∀ (s : State) (f : Fault), step s ≠ .fault f

/-! ### Reset and the invariant -/

/-- R215: the state after reset, and after the reset event at any time: IDLE, STATUS 0, no lengths, no byte of IN or OUT
has a value, and CORE has no enabled step. -/
def Obligations.ResetLeavesTheStatedValues : Prop :=
  (State.reset.phase = .idle ∧ State.reset.errCode = 0 ∧ State.reset.status = 0 ∧ State.reset.inLen = 0 ∧
    State.reset.outLen = 0 ∧ (∀ a, State.reset.inMem.get a = none ∧ State.reset.outMem.get a = none) ∧
    enabledOp State.reset = none) ∧
  (∀ (s : State) (hs : List HostMove), s.host = .reset :: hs →
    ∃ t, step s = .next t ∧ t.phase = .idle ∧ t.errCode = 0 ∧ t.status = 0 ∧ t.inLen = 0 ∧ t.outLen = 0 ∧
      (∀ a, t.inMem.get a = none ∧ t.outMem.get a = none) ∧ enabledOp t = none)

/-- The invariant holds after reset, for all parameters. -/
def Obligations.InvHoldsAfterReset : Prop := Inv State.reset ∧ ∀ cfg : Config, Inv (State.resetWith cfg)

/-- Every step, HOST's or CORE's, keeps the invariant, from every state that meets it. -/
def Obligations.StepKeepsInv : Prop := ∀ s t : State, Inv s → step s = .next t → Inv t

/-- R23, R22, R179: STATUS bit by bit, as a view of PHASE and ERR_CODE; at most one of BUSY, DONE, ERR; a write is ignored
(R22; that this holds while BUSY = 1 too, where R179 lists no such write, is the model's reading, log entry 15); a read at
any time returns it. -/
def Obligations.StatusIsAViewOfPhase : Prop :=
  (∀ s : State,
    (s.status.getLsbD 0 = true ↔
      s.phase = .encInit ∨ s.phase = .encRun ∨ s.phase = .decInit ∨ s.phase = .decRun) ∧
    (s.status.getLsbD 1 = true ↔ s.phase = .done) ∧
    (s.status.getLsbD 2 = true ↔ s.phase = .fault) ∧
    (s.status.extractLsb' 3 2 = if s.phase = .fault then s.errCode else 0) ∧
    s.status.toNat % 8 ∈ [0, 1, 2, 4]) ∧
  (∀ (s : State) (v : Nat) (hs : List HostMove), s.host = .writeStatus v :: hs →
    step s = .next { s with host := hs }) ∧
  (∀ (s : State) (hs : List HostMove), s.host = .readStatus :: hs →
    step s = .next { s with host := hs, hostData := s.status.toNat }) ∧
  State.reset.status = 0

/-! ### BitStream (40_bitstream.md) -/

/-- R100, R105: NEW makes the write stream empty; LOAD puts the read cursor at bit 0 of the 8*IN_LEN bits of the input,
most significant bit of each byte first. -/
def Obligations.StreamsStartAtBitZero : Prop :=
  ∀ s : State,
    exec .bsNew s = .next { s with nb := 0 } ∧
    exec .bsLoad s = .next { s with rp := 0 } ∧
    State.remain { s with rp := 0 } = 8 * s.inLen ∧
    ∀ k j, j < 8 → s.inBit (8 * k + j) = (s.inByte k).getLsbD (7 - j)

/-- R101, R53: PUSH1 appends one bit, begins a fresh byte with `b << 7`, and changes nothing else; without room it is
refused. -/
def Obligations.PushBitAppends : Prop :=
  ∀ (s : State) (b : Bool),
    (TailZero s → bitRoom s 1 = none →
      ∃ t, exec (.bsPush1 b) s = .next t ∧ Appended s t [b] ∧ t = { s with outMem := t.outMem, nb := s.nb + 1 } ∧
        (s.nb % 8 = 0 → t.outByte (s.nb / 8) = if b then 0x80 else 0x00)) ∧
    (∀ r, bitRoom s 1 = some r → exec (.bsPush1 b) s = .refused r)

/-- R102, R59: PUSHF appends the first N bits of x, most significant bit of x[0] first, at any bit offset; N beyond the
bytes of x is refused. -/
def Obligations.PushFieldAppends : Prop :=
  ∀ (s : State) (x : List Byte) (n : Nat),
    (TailZero s → n ≤ 8 * x.length → bitRoom s n = none →
      ∃ t, exec (.bsPushf x n) s = .next t ∧ Appended s t ((bytesBits x).take n) ∧
        (∀ k < n, t.outBit (s.nb + k) = (x.getD (k / 8) 0).getLsbD (7 - k % 8)) ∧
        t = { s with outMem := t.outMem, nb := s.nb + n }) ∧
    (8 * x.length < n → exec (.bsPushf x n) s = .refused .fieldTooLong)

/-- R103: PAD raises NB to the next multiple of 8 by fewer than 8 zero bits and changes no byte. -/
def Obligations.PadEndsOnAByteBoundary : Prop :=
  ∀ s : State, bitRoom s (padCount s.nb) = none →
    ∃ t, exec .bsPad s = .next t ∧ t.nb = s.nb + padCount s.nb ∧ t.nb % 8 = 0 ∧ t.nb < s.nb + 8 ∧
      (∀ a, t.outByte a = s.outByte a) ∧ (∀ a, a ≠ s.nb / 8 → t.outMem.get a = s.outMem.get a) ∧
      t = { s with outMem := t.outMem, nb := t.nb }

/-- R83, R89, as the model reads them (log entry 12): the pseudo-token PAD ends a running decompression whose fewer than 9
remaining bits it is, changing PHASE alone and whatever those bits are; in every other phase it appends the zero bits that
BS.PAD appends. -/
def Obligations.PadEndsAStreamOnEitherSide : Prop :=
  ∀ s : State,
    (s.phase = .decRun → s.remain < 9 → exec .pad s = .next { s with phase := .done }) ∧
    (s.phase = .decRun → 9 ≤ s.remain → exec .pad s = .refused .notEnabled) ∧
    (s.phase ≠ .decRun → bitRoom s (padCount s.nb) = none →
      ∃ t, exec .pad s = .next t ∧ exec .bsPad s = .next t ∧ t.nb % 8 = 0 ∧ t.nb = s.nb + padCount s.nb ∧
        (TailZero s → Appended s t (List.replicate (padCount s.nb) false)) ∧
        t = { s with outMem := t.outMem, nb := t.nb }) ∧
    (∀ r, s.phase ≠ .decRun → bitRoom s (padCount s.nb) = some r → exec .pad s = .refused r)

/-- R104: TOBYTES of a padded stream returns the bytes whose bits are the stream's, and changes nothing else. -/
def Obligations.ToBytesReturnsTheStream : Prop :=
  ∀ s : State, s.nb % 8 = 0 →
    ∃ x, exec .bsTobytes s = .next { s with ret := .bytes x } ∧ x.length = s.nb / 8 ∧
      bytesBits x = (List.range s.nb).map s.outBit

/-- R106, R107, R108: REMAIN, POP and PEEK; the first bit read is the most significant of the number returned; more than
remains is refused. -/
def Obligations.PopAndPeekReadTheNextBits : Prop :=
  ∀ (s : State) (n : Nat),
    exec .bsRemain s = .next { s with ret := .number (8 * s.inLen - s.rp) } ∧
    (n ≤ 8 * s.inLen - s.rp →
      ∃ v, v < 2 ^ n ∧ (∀ k < n, v.testBit (n - 1 - k) = s.inBit (s.rp + k)) ∧
        exec (.bsPop n) s = .next { s with ret := .number v, rp := s.rp + n } ∧
        exec (.bsPeek n) s = .next { s with ret := .number v }) ∧
    (8 * s.inLen - s.rp < n →
      exec (.bsPop n) s = .refused .popUnderflow ∧ exec (.bsPeek n) s = .refused .popUnderflow)

/-- R109: what is appended to an empty write stream, padded and taken as bytes is read back bit for bit by a read stream
loaded with those bytes, followed by the zero padding and nothing else; POP of a field's bits returns the field. -/
def Obligations.WriteThenReadReturnsTheBits : Prop :=
  (∀ (s : State) (x : List Byte) (n : Nat), s.nb = 0 → n ≤ 8 * x.length → bitRoom s (n + padCount n) = none →
    ∃ t p y, exec (.bsPushf x n) s = .next t ∧ exec .bsPad t = .next p ∧
      exec .bsTobytes p = .next { p with ret := .bytes y } ∧
      ∀ u : State, u.inputBytes = y →
        (List.range (8 * u.inLen)).map u.inBit = (bytesBits x).take n ++ List.replicate (padCount n) false) ∧
  (∀ (u : State) (n v : Nat), n ≤ u.remain → v < 2 ^ n →
    (∀ k < n, some (u.inBit (u.rp + k)) = (fieldBits n v)[k]?) →
    exec (.bsPop n) u = .next { u with ret := .number v, rp := u.rp + n })

/-! ### MatchFinder (41_matchfinder.md) -/

/-- R120: MF.WRAP returns n bytes, byte k being x[k % len(x)]; the empty sequence is refused. -/
def Obligations.WrapRepeatsItsSource : Prop :=
  (∀ (s : State) (x : List Byte) (n : Nat), x ≠ [] →
    exec (.mfWrap x n) s = .next { s with ret := .bytes (wrap x n) } ∧ (wrap x n).length = n ∧
      ∀ k < n, (wrap x n)[k]? = x[k % x.length]?) ∧
  (∀ (s : State) (n : Nat), exec (.mfWrap [] n) s = .refused .wrapOfEmpty)

/-- R125, R126, R128, R129: MF.FIND returns the longest length that matches anywhere in the window, and among its
positions the oldest, within the stated bounds; `none` exactly when no length of 4 or more matches; a match of c bytes is
also one of fewer. Past the end of data it is refused (R121). -/
def Obligations.FindIsLongestThenOldest : Prop :=
  (∀ (s : State) (data : List Byte) (p : Nat), p ≤ data.length →
    exec (.mfFind data p) s = .next { s with ret := .found (find data p) }) ∧
  (∀ (s : State) (data : List Byte) (p : Nat), data.length < p → exec (.mfFind data p) s = .refused .findPastEnd) ∧
  (∀ (data : List Byte) (p d l : Nat), p ≤ data.length →
    (find data p = some (d, l) ↔
      1 ≤ d ∧ d ≤ min 4095 p ∧ 4 ≤ l ∧ l ≤ min 15 (data.length - p) ∧ matchesAt data p (p - d) l = true ∧
      (∀ s c, p - 4095 ≤ s → s < p → l < c → c ≤ min 15 (data.length - p) → matchesAt data p s c = false) ∧
      (∀ s, p - 4095 ≤ s → s < p - d → matchesAt data p s l = false))) ∧
  (∀ (data : List Byte) (p : Nat), p ≤ data.length →
    (find data p = none ↔
      ∀ s c, p - 4095 ≤ s → s < p → 4 ≤ c → c ≤ min 15 (data.length - p) → matchesAt data p s c = false)) ∧
  (∀ (data : List Byte) (p s c c' : Nat), s < p → p ≤ data.length → c' ≤ c → matchesAt data p s c = true →
    matchesAt data p s c' = true)

/-- R130: the wrapped comparison is the overlapped comparison in place. -/
def Obligations.WrappedMatchIsOverlappedMatch : Prop :=
  ∀ (data : List Byte) (p s c : Nat), s < p → p + c ≤ data.length →
    (matchesAt data p s c = true ↔ ∀ k < c, data[s + k]? = data[p + k]?)

/-- R70: MF.FIND at p depends on nothing but the length of data and the bytes from the oldest window position to the end
of the lookahead. -/
def Obligations.FindReadsWindowAndLookaheadOnly : Prop :=
  ∀ (x y : List Byte) (p : Nat), x.length = y.length → p ≤ x.length →
    (∀ a, p - 4095 ≤ a → a < p + min 15 (x.length - p) → x[a]? = y[a]?) → find x p = find y p

/-! ### Encoder (42_encoder.md) -/

/-- R140: ENC.INIT sets I, NB and OUT_LEN to 0 and goes to ENC_RUN; STATUS.BUSY stays 1. -/
def Obligations.EncInitStartsACompression : Prop :=
  ∀ s : State, s.phase = .encInit →
    exec .encInit s = .next { s with i := 0, nb := 0, outLen := 0, phase := .encRun } ∧
    s.status.getLsbD 0 = true ∧
    ∀ t, exec .encInit s = .next t → t.status = s.status

/-- R142, R143: EMIT_LIT appends a T9 token and EMIT_MATCH a T17 token, whose 16 bits are EB1 and EB2; nothing else
changes but EB1 and EB2. Without room they are refused. -/
def Obligations.EmitAppendsTheToken : Prop :=
  ∀ s : State, TailZero s →
    (∀ b : Byte,
      (bitRoom s 9 = none →
        ∃ t, exec (.encEmitLit b) s = .next t ∧ Appended s t (tokenBits (.lit b)) ∧
          t = { s with outMem := t.outMem, nb := s.nb + 9 }) ∧
      (∀ r, bitRoom s 9 = some r → exec (.encEmitLit b) s = .refused r)) ∧
    (∀ (d : Distance) (l : MatchLen), 1 ≤ d.toNat → 4 ≤ l.toNat →
      (bitRoom s 17 = none →
        ∃ t, exec (.encEmitMatch d l) s = .next t ∧ Appended s t (tokenBits (.matchTok d l)) ∧
          t.loc.eb1.toNat = d.toNat / 16 ∧ t.loc.eb2.toNat = d.toNat % 16 * 16 + l.toNat ∧
          t = { s with outMem := t.outMem, nb := s.nb + 17, loc := { s.loc with eb1 := t.loc.eb1, eb2 := t.loc.eb2 } }) ∧
      (∀ r, bitRoom s 17 = some r → exec (.encEmitMatch d l) s = .refused r))

/-- R141: ENC.STEP emits the token of the match MF.FIND returns at I and advances I by its length, or the literal of IN[I]
and advances I by 1; MF_VALID, MF_DIST and MF_LEN are its only other effects; I stays inside the input. -/
def Obligations.EncStepEmitsOneToken : Prop :=
  ∀ s : State, s.phase = .encRun → s.i < s.inLen → TailZero s →
    (∀ d l, find s.inputBytes s.i = some (d, l) → bitRoom s 17 = none →
      s.i + l ≤ s.inLen ∧
      ∃ t, exec .encStep s = .next t ∧
        Appended s t (tokenBits (.matchTok (BitVec.ofNat 12 d) (BitVec.ofNat 4 l))) ∧
        t.loc.mfValid = true ∧ t.loc.mfDist.toNat = d ∧ t.loc.mfLen.toNat = l ∧
        t = { s with
              i := s.i + l, nb := s.nb + 17, outMem := t.outMem
              loc := { s.loc with
                       mfValid := t.loc.mfValid, mfDist := t.loc.mfDist, mfLen := t.loc.mfLen, eb1 := t.loc.eb1,
                       eb2 := t.loc.eb2 } }) ∧
    (find s.inputBytes s.i = none → bitRoom s 9 = none →
      ∃ t, exec .encStep s = .next t ∧ Appended s t (tokenBits (.lit (s.inByte s.i))) ∧
        t = { s with
              i := s.i + 1, nb := s.nb + 9, outMem := t.outMem, loc := { s.loc with mfValid := false } })

/-- R144: ENC.FINAL pads, sets OUT_LEN to the bytes of the stream and ends the command; no byte of OUT changes. -/
def Obligations.EncFinalPadsAndEnds : Prop :=
  ∀ s : State, s.phase = .encRun → s.i = s.inLen → bitRoom s (padCount s.nb) = none →
    ∃ t, exec .encFinal s = .next t ∧ t.nb = s.nb + padCount s.nb ∧ t.nb = 8 * t.outLen ∧ t.outLen = (s.nb + 7) / 8 ∧
      (∀ a, t.outByte a = s.outByte a) ∧ (∀ a, a ≠ s.nb / 8 → t.outMem.get a = s.outMem.get a) ∧
      t = { s with outMem := t.outMem, nb := t.nb, outLen := t.outLen, phase := .done }

/-- R147, R199: no CORE step of a compression raises; FAULT is not reached from ENC_INIT or ENC_RUN. -/
def Obligations.CompressionNeverFaults : Prop :=
  ∀ s t : State, s.phase = .encInit ∨ s.phase = .encRun → s.host = [] → step s = .next t →
    t.phase ≠ .fault ∧ t.errCode = s.errCode

/-- R149, R146: a compressed sequence has at most (9*n + 7)/8 bytes; the empty sequence compresses to itself. -/
def Obligations.CompressedSizeIsBounded : Prop :=
  (∀ data : List Byte, (compress data).length ≤ (9 * data.length + 7) / 8) ∧ compress [] = []

/-- R75, R83, R86, R150: what `compress` returns is tokens and then the fewest zero bits to a whole byte; every match
token in it has 1 <= distance and 4 <= length; there are at most as many tokens as bytes; the disassembler finds those
tokens. -/
def Obligations.CompressedStreamIsCanonical : Prop :=
  ∀ data : List Byte, ∃ T : List Instr,
    (∀ i ∈ T, isToken i = true) ∧ (∀ d l, .matchTok d l ∈ T → 1 ≤ d.toNat ∧ 4 ≤ l.toNat) ∧ T.length ≤ data.length ∧
    bytesBits (compress data) = T.flatMap tokenBits ++ List.replicate (padCount (T.flatMap tokenBits).length) false ∧
    (disassemble (compress data)).1 = T

/-- R175, R145, R181, R223: the command COMPRESS is accepted, and CORE ends within IN_LEN + 2 steps more in DONE with OUT
holding `compress` of the input; the input is unchanged. The capacity needed is that of R63 and R149. -/
def Obligations.CompressRunComputesCompress : Prop :=
  ∀ (s : State) (w : Nat), s.busy = false → s.host = [.writeCmd w] → w % 4 = 1 →
    step s = .next { s with host := [], errCode := 0, phase := .encInit } ∧
    (compressRoom s.cfg s.inLen = true →
      ∃ k t, k ≤ s.inLen + 3 ∧ Host.Core.run Sys2Proof.core k s = .next t ∧ t.host = [] ∧ t.phase = .done ∧
        t.errCode = 0 ∧ t.outputBytes = compress s.inputBytes ∧ t.inMem = s.inMem ∧ t.inLen = s.inLen)

/-! ### Decoder (43_decoder.md) -/

/-- R155, R191, R164: DEC.INIT; EmptyInput exactly when IN_LEN = 0, a one-byte input is no error. -/
def Obligations.DecInitStartsOrFaults : Prop :=
  ∀ s : State,
    (s.phase = .decInit → s.inLen = 0 → exec .decInit s = .next { s with errCode := 1, phase := .fault }) ∧
    (s.phase = .decInit → s.inLen ≠ 0 → exec .decInit s = .next { s with rp := 0, outLen := 0, phase := .decRun })

/-- R157: token LIT appends its byte at OUT_LEN and advances RP by 9; FLAG and LITB are its only other effects. -/
def Obligations.LitTokenAppendsItsByte : Prop :=
  ∀ (s : State) (b : Byte), s.phase = .decRun → 9 ≤ s.remain →
    (outRoom s 1 = none →
      ∃ t, exec (.lit b) s = .next t ∧ OutAppended s t [b] ∧
        t = { s with
              rp := s.rp + 9, outLen := s.outLen + 1, outMem := t.outMem
              loc := { s.loc with flag := false, litb := b } }) ∧
    (∀ r, outRoom s 1 = some r → exec (.lit b) s = .refused r)

/-- R158, R159, R165: token MATCH with a distance inside the output appends LEN bytes, the last DIST bytes of the output
repeated, whatever LEN is (lengths 0 to 3 included unless STRICT_LEN is on), and advances RP by 17; the step-local
registers are its only other effects. -/
def Obligations.MatchTokenCopiesPeriodically : Prop :=
  ∀ (s : State) (d : Distance) (l : MatchLen), s.phase = .decRun → 17 ≤ s.remain → 1 ≤ d.toNat → d.toNat ≤ s.outLen →
    s.cfg.strictLen = false ∨ 4 ≤ l.toNat →
    (outRoom s l.toNat = none →
      ∃ t, exec (.matchTok d l) s = .next t ∧
        OutAppended s t (wrap ((s.outBytes s.outLen).drop (s.outLen - d.toNat)) l.toNat) ∧
        t.outLen = s.outLen + l.toNat ∧ t.loc.b1.toNat = d.toNat / 16 ∧
        t.loc.b2.toNat = d.toNat % 16 * 16 + l.toNat ∧
        t = { s with
              rp := s.rp + 17, outLen := t.outLen, outMem := t.outMem
              loc := { s.loc with
                       flag := true, b1 := t.loc.b1, b2 := t.loc.b2, dist := d, len := l, k := t.loc.k } }) ∧
    (∀ r, outRoom s l.toNat = some r → exec (.matchTok d l) s = .refused r)

/-- R192, R193, R166, R167, R196, R201: when token MATCH raises, with which code, and that the failure is its only effect;
the length plays no part (with STRICT_LEN on, U5, log entry 9, a length below 4 raises DISTANCE too). That TRUNCATED is raised with fewer
than 9 bits remaining too, where no CORE step runs a token, is the model's choice (log entry 23). -/
def Obligations.MatchTokenFaultsExactlyWhen : Prop :=
  ∀ (s : State) (d : Distance) (l : MatchLen), s.phase = .decRun →
    (s.remain < 17 → exec (.matchTok d l) s = .next { s with errCode := 2, phase := .fault }) ∧
    (17 ≤ s.remain → (d.toNat = 0 ∨ s.outLen < d.toNat ∨ (s.cfg.strictLen = true ∧ l.toNat < 4)) →
      exec (.matchTok d l) s = .next { s with errCode := 3, phase := .fault }) ∧
    (∀ t, exec (.matchTok d l) s = .next t → t.phase = .fault →
      s.remain < 17 ∨ d.toNat = 0 ∨ s.outLen < d.toNat ∨ (s.cfg.strictLen = true ∧ l.toNat < 4))

/-- R156, R80, R82: DEC.STEP reads the flag at RP; flag 0 is a literal of the next 8 bits; flag 1 is a match of the next
16, distance the high 12 and length the low 4, or TRUNCATED when they are not there. -/
def Obligations.DecStepExecutesTheTokenAtRp : Prop :=
  ∀ s : State, s.phase = .decRun →
    (9 ≤ s.remain → s.inBit s.rp = false → outRoom s 1 = none →
      ∃ t, exec .decStep s = .next t ∧ OutAppended s t [BitVec.ofNat 8 (s.bitRead (s.rp + 1) 8)] ∧
        t = { s with
              rp := s.rp + 9, outLen := s.outLen + 1, outMem := t.outMem
              loc := { s.loc with flag := false, litb := BitVec.ofNat 8 (s.bitRead (s.rp + 1) 8) } }) ∧
    (9 ≤ s.remain → s.inBit s.rp = false →
      exec .decStep s = exec (.lit (BitVec.ofNat 8 (s.bitRead (s.rp + 1) 8))) s) ∧
    (17 ≤ s.remain → s.inBit s.rp = true →
      exec .decStep s =
        exec (.matchTok (BitVec.ofNat 12 (s.bitRead (s.rp + 1) 16 / 16)) (BitVec.ofNat 4 (s.bitRead (s.rp + 1) 16 % 16)))
          s) ∧
    (9 ≤ s.remain → s.remain < 17 → s.inBit s.rp = true →
      exec .decStep s = .next { s with errCode := 2, phase := .fault })

/-- R160: with fewer than 9 bits left the command ends in DONE, and only PHASE changes, whatever those bits are; STATUS then
shows DONE and not BUSY. -/
def Obligations.DecFinalEndsTheCommand : Prop :=
  ∀ s : State, s.phase = .decRun → s.remain < 9 →
    exec .decFinal s = .next { s with phase := .done } ∧
    ∀ t, exec .decFinal s = .next t → t.status.getLsbD 0 = false ∧ t.status.getLsbD 1 = true

/-- R162: two inputs of one length that differ only in fewer than 9 trailing bits decompress to the same. -/
def Obligations.TrailingBitsAreNotInterpreted : Prop :=
  ∀ x y : List Byte, x.length = y.length → (disassemble x).2.length < 9 →
    (bytesBits y).take ((disassemble x).1.flatMap tokenBits).length = (disassemble x).1.flatMap tokenBits →
    decompress x = decompress y

/-- R169: the size of a decompressed sequence. -/
def Obligations.DecompressedSizeIsBounded : Prop :=
  ∀ c v : List Byte, decompress c = .ok v → v.length ≤ 15 * (8 * c.length / 17) + 8 * c.length % 17 / 9

/-- R163: decompress inverts compress on every non-empty sequence, and the command DECOMPRESS run on `compress b` ends in
DONE with OUT holding `b`; the empty one is the asymmetric boundary, and DECOMPRESS of it ends in FAULT with EmptyInput; the
other direction does not hold in general. The capacity needed is that of R63; STRICT_LEN is at its default, off. -/
def Obligations.DecompressInvertsCompress : Prop :=
  (∀ b : List Byte, b ≠ [] → decompress (compress b) = .ok b) ∧
  compress [] = [] ∧ decompress [] = .failed .emptyInput ∧
  (∃ c v, decompress c = .ok v ∧ compress v ≠ c) ∧
  (∀ (s : State) (w : Nat) (b : List Byte), s.busy = false → s.host = [.writeCmd w] → w % 4 = 2 →
    s.cfg.strictLen = false → decompressRoom s.cfg s.inLen = true → s.inputBytes = compress b →
    ∃ k t, Host.Core.run Sys2Proof.core k s = .next t ∧ t.host = [] ∧
      (b ≠ [] → t.phase = .done ∧ t.outputBytes = b) ∧ (b = [] → t.phase = .fault ∧ t.errCode = 1))

/-- R176, R161, R181, R223: the command DECOMPRESS is accepted, and CORE ends within (8*IN_LEN)/9 + 2 steps more, in DONE
with OUT holding `decompress` of the input, or in FAULT with the failure's code; the input is unchanged. The capacity
needed is that of R63 and R169. With STRICT_LEN off (the default) the function is that of R161. -/
def Obligations.DecompressRunComputesDecompress : Prop :=
  ∀ (s : State) (w : Nat), s.busy = false → s.host = [.writeCmd w] → w % 4 = 2 →
    step s = .next { s with host := [], errCode := 0, phase := .decInit } ∧
    (decompressRoom s.cfg s.inLen = true →
      ∃ k t, k ≤ 8 * s.inLen / 9 + 3 ∧ Host.Core.run Sys2Proof.core k s = .next t ∧ t.host = [] ∧
        t.inMem = s.inMem ∧ t.inLen = s.inLen ∧
        (∀ v, decompressWith s.cfg.strictLen s.inputBytes = .ok v →
          t.phase = .done ∧ t.errCode = 0 ∧ t.outputBytes = v) ∧
        (∀ f, decompressWith s.cfg.strictLen s.inputBytes = .failed f → t.phase = .fault ∧ t.errCode = faultCode f) ∧
        (s.cfg.strictLen = false → decompressWith s.cfg.strictLen s.inputBytes = decompress s.inputBytes))

/-! ### Host commands and accesses (44_host_commands.md) -/

/-- R175, R176, R177: CMD 1 and 2 start a command while BUSY = 0; 0 and 3 do nothing at any time; while BUSY = 1 nothing
does anything; only the low 2 bits of the bus word count. -/
def Obligations.CommandsStartOrAreIgnored : Prop :=
  (∀ s : State,
    (s.busy = false → exec .compress s = .next { s with errCode := 0, phase := .encInit }) ∧
    (s.busy = false → exec .decompress s = .next { s with errCode := 0, phase := .decInit }) ∧
    (s.busy = true → exec .compress s = .next s ∧ exec .decompress s = .next s) ∧
    exec .cmdNop0 s = .next s ∧ exec .cmdRsvd3 s = .next s) ∧
  (∀ (s : State) (w : Nat) (hs : List HostMove), s.host = .writeCmd w :: hs →
    (s.busy = true ∨ w % 4 = 0 ∨ w % 4 = 3 → step s = .next { s with host := hs }) ∧
    (s.busy = false → w % 4 = 1 → step s = .next { s with host := hs, errCode := 0, phase := .encInit }) ∧
    (s.busy = false → w % 4 = 2 → step s = .next { s with host := hs, errCode := 0, phase := .decInit }))

/-- R22, R179: HOST's accesses while BUSY = 0, each with its effect and no other; a read has no side effect on the machine,
and a byte of OUT that is no result comes from a free value. -/
def Obligations.HostAccessesWhileIdle : Prop :=
  ∀ (s : State) (hs : List HostMove), s.busy = false →
    (∀ a b, s.host = .writeIn a b :: hs → belowLimit s.cfg.capIn a = true →
      ∃ t, step s = .next t ∧ t.inByte a = b ∧ (∀ x, x ≠ a → t.inMem.get x = s.inMem.get x) ∧
        t = { s with host := hs, inMem := t.inMem }) ∧
    (∀ n, s.host = .writeInLen n :: hs → fitsCap s.cfg.capIn n = true → fitsLen s.cfg n = true →
      step s = .next { s with host := hs, inLen := n }) ∧
    (∀ v, s.host = .writeOutLen v :: hs → step s = .next { s with host := hs }) ∧
    (s.host = .readCmd :: hs → step s = .next { s with host := hs, hostData := 0 }) ∧
    (s.host = .readInLen :: hs → step s = .next { s with host := hs, hostData := s.inLen }) ∧
    (s.host = .readOutLen :: hs → step s = .next { s with host := hs, hostData := s.outLen }) ∧
    (∀ a, s.host = .readOut a :: hs → belowLimit s.cfg.capOut a = true →
      (s.phase = .done → a < s.outLen → step s = .next { s with host := hs, hostData := (s.outByte a).toNat }) ∧
      (s.phase ≠ .done ∨ s.outLen ≤ a →
        step s = .next { s with host := hs, hostData := (Config.unspecifiedByte s.epoch s.fresh a).toNat }))

/-- R218, R179, R63 (93_implementation_defined.md U6, U7; log entry 14): the accesses HOST has no move for are refused by
name: IN, IN_LEN, OUT and OUT_LEN while BUSY = 1, and addresses and lengths beyond the capacities. -/
def Obligations.HostDutiesAreRefused : Prop :=
  ∀ (s : State) (hs : List HostMove),
    (s.busy = true →
      (∀ a b, s.host = .writeIn a b :: hs → step s = .refused .hostDuty) ∧
      (∀ n, s.host = .writeInLen n :: hs → step s = .refused .hostDuty) ∧
      (s.host = .readInLen :: hs → step s = .refused .hostDuty) ∧
      (s.host = .readOutLen :: hs → step s = .refused .hostDuty) ∧
      (∀ a, s.host = .readOut a :: hs → step s = .refused .hostDuty)) ∧
    (s.busy = false →
      (∀ a b c, s.host = .writeIn a b :: hs → s.cfg.capIn = some c → c ≤ a → step s = .refused .noSuchByte) ∧
      (∀ a c, s.host = .readOut a :: hs → s.cfg.capOut = some c → c ≤ a → step s = .refused .noSuchByte) ∧
      (∀ n c, s.host = .writeInLen n :: hs → s.cfg.capIn = some c → c < n → step s = .refused .inLenOutOfRange) ∧
      (∀ n w, s.host = .writeInLen n :: hs → s.cfg.lenW = some w → 2 ^ w ≤ n → step s = .refused .inLenOutOfRange))

/-- R67, R218 (log entry 1): a polling HOST leaves CORE its step while BUSY = 1 and keeps polling; when BUSY = 0 it has
read STATUS and goes on. A HOST that gives CORE the turn leaves it, in every PHASE, exactly the step it takes when HOST has
no move, a refusal included, and goes on with its next move. -/
def Obligations.PollWaitsUntilNotBusy : Prop :=
  (∀ (s : State) (hs : List HostMove), s.host = .poll :: hs →
    (s.busy = false → step s = .next { s with host := hs, hostData := s.status.toNat }) ∧
    (∀ t, s.busy = true → step s = .next t → t.host = .poll :: hs) ∧
    (∀ t, s.busy = true → step { s with host := [] } = .next t → step s = .next { t with host := .poll :: hs }) ∧
    (∀ r, s.busy = true → step { s with host := [] } = .refused r → step s = .refused r)) ∧
  (∀ (s : State) (hs : List HostMove), s.host = .coreTurn :: hs →
    (∀ t, step s = .next t → t.host = hs) ∧
    (∀ t, step { s with host := [] } = .next t → step s = .next { t with host := hs }) ∧
    (∀ r, step { s with host := [] } = .refused r → step s = .refused r))

/-- R61, R179 (HOST's moves and the free value of an unspecified byte: log entries 1 and 7): a HOST read changes nothing but
HOST's own side, and the same read made again at once, or after more of CORE's waiting, returns the same value, a byte of
OUT with no specified value included. -/
def Obligations.HostReadsAreIdempotent : Prop :=
  ∀ (s t : State) (m : HostMove) (hs : List HostMove),
    m = .readCmd ∨ m = .readStatus ∨ m = .readInLen ∨ m = .readOutLen ∨ (∃ a, m = .readOut a) →
    (s.host = m :: hs → step s = .next t → t = { s with host := hs, hostData := t.hostData }) ∧
    (s.host = m :: m :: hs → step s = .next t → step t = .next { t with host := hs }) ∧
    (s.host = m :: .coreTurn :: m :: hs → s.busy = false → step s = .next t →
      ∃ u, step t = .next u ∧ u.host = m :: hs ∧ step u = .next { t with host := hs })

/-! ### The whole machine -/

/-- R32, R69, R178: no instruction changes IN, IN_LEN, the parameters, or anything of HOST's. -/
def Obligations.NoInstructionWritesTheInput : Prop :=
  ∀ (i : Instr) (s t : State), exec i s = .next t →
    t.inMem = s.inMem ∧ t.inLen = s.inLen ∧ t.cfg = s.cfg ∧ t.host = s.host ∧ t.hostData = s.hostData ∧
      t.epoch = s.epoch ∧ t.fresh = s.fresh

/-- R25, R26, R149, R168: a CORE step that stays in its phase advances its cursor, within its bound. -/
def Obligations.CursorsAdvanceWithinBounds : Prop :=
  ∀ s t : State, s.host = [] → step s = .next t →
    (s.phase = .decRun → t.phase = .decRun → (t.rp = s.rp + 9 ∨ t.rp = s.rp + 17) ∧ t.rp ≤ 8 * s.inLen) ∧
    (s.phase = .encRun → s.i < s.inLen → s.i < t.i ∧ t.i ≤ s.inLen ∧ s.nb < t.nb ∧ t.nb ≤ s.nb + 9 * (t.i - s.i))

/-- R202: FAULT is left, and its code changed, only by an accepted command or by reset. -/
def Obligations.FaultIsLeftByCommandOrReset : Prop :=
  ∀ s t : State, s.phase = .fault → step s = .next t →
    (t.phase = .fault ∧ t.errCode = s.errCode) ∨
    (∃ w hs, s.host = .writeCmd w :: hs ∧ ((w % 4 = 1 ∧ t.phase = .encInit) ∨ (w % 4 = 2 ∧ t.phase = .decInit)) ∧
      t.errCode = 0) ∨
    (∃ hs, s.host = .reset :: hs ∧ t.phase = .idle ∧ t.errCode = 0)

/-- R197, R158, R190 to R193, R195: a CORE step that enters FAULT changes nothing of IN, IN_LEN, OUT, OUT_LEN and RP; only
DEC.INIT (code 1) and a token of DEC_RUN (codes 2 and 3) do. That RP keeps its value in FAULT is the model's reading of R158
against R26 (log entry 6). -/
def Obligations.FaultsArePrecise : Prop :=
  ∀ s t : State, s.host = [] → s.phase ≠ .fault → step s = .next t → t.phase = .fault →
    ((s.phase = .decInit ∧ s.inLen = 0 ∧ t.errCode = 1) ∨ (s.phase = .decRun ∧ (t.errCode = 2 ∨ t.errCode = 3))) ∧
    t.inMem = s.inMem ∧ t.inLen = s.inLen ∧ t.outMem = s.outMem ∧ t.outLen = s.outLen ∧ t.rp = s.rp

/-- R148, R178, R217: a command depends on the input alone: two machines with the same parameters and the same input, and
any other contents and history, go through the same phases and failures and end with the same result. -/
def Obligations.CommandsDependOnTheInputAlone : Prop :=
  ∀ (s₁ s₂ : State) (w : Nat), s₁.busy = false → s₂.busy = false → s₁.host = [.writeCmd w] → s₂.host = [.writeCmd w] →
    w % 4 = 1 ∨ w % 4 = 2 → s₁.cfg = s₂.cfg → s₁.inLen = s₂.inLen → s₁.inputBytes = s₂.inputBytes →
    ∀ (k : Nat) (t₁ t₂ : State), 1 ≤ k → Host.Core.run Sys2Proof.core k s₁ = .next t₁ →
      Host.Core.run Sys2Proof.core k s₂ = .next t₂ →
      t₁.phase = t₂.phase ∧ t₁.errCode = t₂.errCode ∧
        (t₁.phase = .done → t₁.outLen = t₂.outLen ∧ t₁.outputBytes = t₂.outputBytes)

/-- R25, R26, R28 to R30, R216: no CORE step depends on a register while it holds no value: the step-local registers, I and
NB outside ENC_RUN, RP outside DEC_RUN. The next states are equal as wholes since the end of a step leaves free values in
what holds none (log entry 6), with one exception: the step that raises EmptyInput carries the RP it has not read into
FAULT (log entry 6), so there the next states are equal but for RP. -/
def Obligations.ValuelessRegistersAreNotRead : Prop :=
  ∀ (s : State) (op : Instr), s.host = [] → enabledOp s = some op →
    (∀ l : Locals, step { s with loc := l } = step s) ∧
    (∀ i nb : Nat, s.phase ≠ .encRun → step { s with i := i, nb := nb } = step s) ∧
    (∀ rp : Nat, s.phase = .encInit ∨ s.phase = .encRun ∨ (s.phase = .decInit ∧ s.inLen ≠ 0) →
      step { s with rp := rp } = step s) ∧
    (∀ rp : Nat, s.phase = .decInit → s.inLen = 0 →
      ∃ t, step s = .next t ∧ step { s with rp := rp } = .next { t with rp := rp })

/-- R63: no instruction writes OUT at or beyond CAP_OUT. -/
def Obligations.OutIsNotWrittenBeyondCapacity : Prop :=
  ∀ (i : Instr) (s t : State) (a : Nat), exec i s = .next t → t.outMem.get a ≠ s.outMem.get a →
    belowLimit s.cfg.capOut a = true

/-- R24, R104, R143, R156, R157: the stops of the control operations outside their PHASE or guard, of the tokens outside a
running decompression, of TOBYTES of a stream that is not padded, and of EMIT_MATCH outside its operand ranges: the model's
choices of log entries 11 and 19. -/
def Obligations.OperationsOutsideTheirDomainAreRefused : Prop :=
  ∀ s : State,
    (s.phase ≠ .encInit → exec .encInit s = .refused .notEnabled) ∧
    (s.phase ≠ .decInit → exec .decInit s = .refused .notEnabled) ∧
    (s.phase ≠ .encRun ∨ s.inLen ≤ s.i → exec .encStep s = .refused .notEnabled) ∧
    (s.phase ≠ .encRun ∨ s.i ≠ s.inLen → exec .encFinal s = .refused .notEnabled) ∧
    (s.phase ≠ .decRun ∨ s.remain < 9 → exec .decStep s = .refused .notEnabled) ∧
    (s.phase ≠ .decRun ∨ 9 ≤ s.remain → exec .decFinal s = .refused .notEnabled) ∧
    (s.nb % 8 ≠ 0 → exec .bsTobytes s = .refused .streamNotPadded) ∧
    (∀ b, s.phase ≠ .decRun → exec (.lit b) s = .refused .notEnabled) ∧
    (∀ b, s.phase = .decRun → s.remain < 9 → exec (.lit b) s = .refused .popUnderflow) ∧
    (∀ d l, s.phase ≠ .decRun → exec (.matchTok d l) s = .refused .notEnabled) ∧
    (∀ (d : Distance) (l : MatchLen), d.toNat = 0 ∨ l.toNat < 4 →
      exec (.encEmitMatch d l) s = .refused .emitOutOfRange)
end

