-- ==== Sys2Proof/Laws/Bits.lean ====
section
/-! SUPPORT. The small lemmas of bit fields, bytes and the operand packing. -/

namespace Sys2Proof

@[simp] theorem fieldBits_length (n v : Nat) : (fieldBits n v).length = n := by
  induction n with
  | zero => rfl
  | succ n ih => simp [fieldBits, ih]

theorem fieldBits_getElem? (n v : Nat) {k : Nat} (h : k < n) : (fieldBits n v)[k]? = some (v.testBit (n - 1 - k)) := by
  induction n generalizing k with
  | zero => omega
  | succ n ih =>
    cases k with
    | zero => simp [fieldBits]
    | succ k =>
      simp only [fieldBits, List.getElem?_cons_succ]
      rw [ih (by omega)]
      congr 2
      omega

@[simp] theorem byteBits_length (b : Byte) : (byteBits b).length = 8 := fieldBits_length 8 _

@[simp] theorem bytesBits_nil : bytesBits [] = [] := rfl

@[simp] theorem bytesBits_cons (b : Byte) (x : List Byte) : bytesBits (b :: x) = byteBits b ++ bytesBits x := rfl

@[simp] theorem bytesBits_append (x y : List Byte) : bytesBits (x ++ y) = bytesBits x ++ bytesBits y := by
  simp [bytesBits]

@[simp] theorem bytesBits_length (x : List Byte) : (bytesBits x).length = 8 * x.length := by
  induction x with
  | nil => rfl
  | cons b x ih => simp [ih]; omega

@[simp] theorem packCount_length (n : Nat) (bs : List Bool) : (packCount n bs).length = n := by
  induction n generalizing bs with
  | zero => rfl
  | succ n ih => simp [packCount, ih]

@[simp] theorem packBytes_length (bs : List Bool) : (packBytes bs).length = (bs.length + 7) / 8 :=
  packCount_length _ _

theorem padCount_lt (nb : Nat) : padCount nb < 8 := by
  unfold padCount
  omega

/-- Padding ends on a byte boundary. -/
theorem padCount_spec (nb : Nat) : (nb + padCount nb) % 8 = 0 := by
  unfold padCount
  omega

/-- The value of bits appended at the end. -/
theorem bitsToNat_append (xs ys : List Bool) :
    bitsToNat (xs ++ ys) = bitsToNat xs * 2 ^ ys.length + bitsToNat ys := by
  have go : ∀ (ys : List Bool) (v : Nat),
      ys.foldl (fun v b => 2 * v + b.toNat) v = v * 2 ^ ys.length + ys.foldl (fun v b => 2 * v + b.toNat) 0 := by
    intro ys
    induction ys with
    | nil => simp
    | cons y ys ih =>
      intro v
      simp only [List.foldl_cons, List.length_cons]
      rw [ih (2 * v + y.toNat), ih (2 * 0 + y.toNat)]
      ring
  simp only [bitsToNat, List.foldl_append]
  exact go ys _

theorem bitsToNat_cons (b : Bool) (bs : List Bool) :
    bitsToNat (b :: bs) = b.toNat * 2 ^ bs.length + bitsToNat bs := by
  simpa [bitsToNat] using bitsToNat_append [b] bs

theorem bitsToNat_lt (bs : List Bool) : bitsToNat bs < 2 ^ bs.length := by
  induction bs with
  | nil => simp [bitsToNat]
  | cons b bs ih =>
    rw [bitsToNat_cons, List.length_cons, Nat.pow_succ]
    cases b <;> simp <;> omega

/-- Reading back a field gives its low bits. -/
theorem bitsToNat_fieldBits (n v : Nat) : bitsToNat (fieldBits n v) = v % 2 ^ n := by
  induction n with
  | zero => simp [fieldBits, bitsToNat, Nat.mod_one]
  | succ n ih =>
    rw [fieldBits, bitsToNat_cons, ih, fieldBits_length, Nat.mod_pow_succ, Nat.testBit_eq_decide_div_mod_eq]
    rcases Nat.mod_two_eq_zero_or_one (v / 2 ^ n) with h | h <;> simp [h, Nat.add_comm]

/-- A byte is recovered from its bits, whatever follows them. -/
theorem byteOfBits_byteBits_append (b : Byte) (rest : List Bool) : byteOfBits (byteBits b ++ rest) = b := by
  have h : ((byteBits b ++ rest) ++ List.replicate 8 false).take 8 = byteBits b := by
    rw [List.append_assoc, List.take_append_of_le_length (by simp)]
    exact List.take_of_length_le (by simp)
  rw [byteOfBits, h, byteBits, bitsToNat_fieldBits]
  apply BitVec.eq_of_toNat_eq
  have := b.isLt
  simp only [BitVec.toNat_ofNat]
  omega

/-! ### The packing of a match token (30_encoding.md R79, R80) -/

theorem matchDistance_bytes (d : Distance) (l : MatchLen) : matchDistance (matchByte1 d) (matchByte2 d l) = d := by
  ext k hk
  simp only [matchDistance, matchByte1, matchByte2]
  interval_cases k <;> simp [BitVec.getElem_or, BitVec.getElem_and]

theorem matchLength_bytes (d : Distance) (l : MatchLen) : matchLength (matchByte2 d l) = l := by
  ext k hk
  simp only [matchLength, matchByte2]
  interval_cases k <;> simp [BitVec.getElem_and]

end Sys2Proof

namespace Sys2Proof.Machine

theorem streamRead_lt (x : Nat → Byte) (n count : Nat) : streamRead x n count < 2 ^ count := by
  induction count with
  | zero => simp [streamRead]
  | succ c ih =>
    rw [streamRead, Nat.pow_succ]
    cases streamBit x (n + c) <;> simp <;> omega

/-- Two reads split one read (20_memory.md R55). -/
theorem streamRead_add (x : Nat → Byte) (n a b : Nat) :
    streamRead x n (a + b) = streamRead x n a * 2 ^ b + streamRead x (n + a) b := by
  induction b with
  | zero => simp [streamRead]
  | succ b ih =>
    rw [← Nat.add_assoc, streamRead, ih, streamRead, Nat.pow_succ, Nat.add_assoc n a b]
    ring

/-- A read is the number its bits form. -/
theorem streamRead_eq_bitsToNat (x : Nat → Byte) (n count : Nat) :
    streamRead x n count = bitsToNat ((List.range count).map fun t => streamBit x (n + t)) := by
  induction count with
  | zero => rfl
  | succ c ih =>
    rw [streamRead, ih, List.range_succ, List.map_append, bitsToNat_append]
    simp [bitsToNat]
    ring

@[simp] theorem inputBytes_length (s : State) : s.inputBytes.length = s.inLen := by simp [State.inputBytes]

@[simp] theorem outBytes_length (s : State) (n : Nat) : (s.outBytes n).length = n := by simp [State.outBytes]

theorem fetchBits_length (s : State) : s.fetchBits.length = min 17 s.remain := by simp [State.fetchBits]

end Sys2Proof.Machine
end

