-- ==== Sys2Proof/Laws/Memory.lean ====
section
/-! SUPPORT. The laws of a byte memory: read after write, the canonical form, which addresses are listed; and of the
capacities and widths. -/

namespace Sys2Proof.Machine

@[simp] theorem Memory.get_nil (a : Nat) : Memory.get [] a = none := rfl

/-- The byte just written. -/
@[simp] theorem Memory.get_set_same (m : Memory) (a : Nat) (b : Byte) : (m.set a b).get a = some b := by
  induction m with
  | nil => simp [Memory.set, Memory.get]
  | cons c rest ih =>
    obtain ⟨x, v⟩ := c
    simp only [Memory.set]
    split
    · simp [Memory.get]
    · split
      · simp [Memory.get]
      · rename_i h
        simp [Memory.get, h, ih]

/-- A write leaves every other address alone. -/
theorem Memory.get_set_other (m : Memory) {a x : Nat} (b : Byte) (h : x ≠ a) : (m.set a b).get x = m.get x := by
  induction m with
  | nil => simp [Memory.set, Memory.get, h, Memory.unlisted]
  | cons c rest ih =>
    obtain ⟨y, v⟩ := c
    simp only [Memory.set]
    split
    · simp [Memory.get, h]
    · split
      · rename_i hy
        subst hy
        simp [Memory.get, h]
      · simp [Memory.get, ih]

theorem Memory.get_set (m : Memory) (a x : Nat) (b : Byte) :
    (m.set a b).get x = if x = a then some b else m.get x := by
  split
  · rename_i h
    rw [h, Memory.get_set_same]
  · exact Memory.get_set_other m b ‹_›

/-- The cells of a memory after a write: the new one and old ones. -/
theorem Memory.mem_set {m : Memory} {a : Nat} {b : Byte} {c : Host.Cell} (h : c ∈ m.set a b) : c = (a, b) ∨ c ∈ m := by
  induction m with
  | nil => simpa [Memory.set] using h
  | cons e rest ih =>
    obtain ⟨x, v⟩ := e
    simp only [Memory.set] at h
    split at h
    · simpa using h
    · split at h
      · rcases List.mem_cons.mp h with h | h
        · exact .inl h
        · exact .inr (List.mem_cons_of_mem _ h)
      · rcases List.mem_cons.mp h with h | h
        · exact .inr (h ▸ List.mem_cons_self)
        · rcases ih h with h | h
          · exact .inl h
          · exact .inr (List.mem_cons_of_mem _ h)

/-- A write keeps the canonical form. -/
theorem Memory.set_wf {m : Memory} (a : Nat) (b : Byte) (h : m.wf) : (m.set a b).wf := by
  induction m with
  | nil => simp [Memory.set]
  | cons c rest ih =>
    obtain ⟨x, v⟩ := c
    obtain ⟨hx, hrest⟩ := List.pairwise_cons.mp h
    simp only [Memory.set]
    split
    · rename_i hlt
      refine List.pairwise_cons.mpr ⟨fun c hc => ?_, h⟩
      rcases List.mem_cons.mp hc with rfl | hc
      · exact hlt
      · exact hlt.trans (hx c hc)
    · split
      · rename_i heq
        subst heq
        exact List.pairwise_cons.mpr ⟨hx, hrest⟩
      · refine List.pairwise_cons.mpr ⟨fun c hc => ?_, ih hrest⟩
        rcases Memory.mem_set hc with rfl | hc
        · simp only
          omega
        · exact hx c hc

theorem Memory.setAll_wf {m : Memory} (a : Nat) (l : List Byte) (h : m.wf) : (m.setAll a l).wf := by
  induction l generalizing m a with
  | nil => exact h
  | cons b rest ih => exact ih (a + 1) (Memory.set_wf a b h)

/-- A write keeps what is filled. -/
theorem Memory.set_filled {m : Memory} {n : Nat} (a : Nat) (b : Byte) (h : m.filled n) : (m.set a b).filled n := by
  intro x hx
  rw [Memory.get_set]
  split
  · rfl
  · exact h x hx

/-- A write at the end of what is filled extends it. -/
theorem Memory.set_filled_succ {m : Memory} {n : Nat} (b : Byte) (h : m.filled n) : (m.set n b).filled (n + 1) := by
  intro x hx
  rw [Memory.get_set]
  split
  · rfl
  · exact h x (by omega)

theorem Memory.filled_mono {m : Memory} {n k : Nat} (h : m.filled n) (hk : k ≤ n) : m.filled k :=
  fun a ha => h a (by omega)

/-! ### Capacities and widths -/

theorem fitsCap_mono {cap : Option Nat} {n k : Nat} (h : fitsCap cap n = true) (hk : k ≤ n) : fitsCap cap k = true := by
  cases cap with
  | none => rfl
  | some k => simp_all [fitsCap]; omega

theorem fitsLen_mono {c : Config} {n k : Nat} (h : fitsLen c n = true) (hk : k ≤ n) : fitsLen c k = true := by
  unfold fitsLen at *
  split at h
  · simp_all
  · simp_all; omega

theorem fitsBits_mono {c : Config} {n k : Nat} (h : fitsBits c n = true) (hk : k ≤ n) : fitsBits c k = true := by
  unfold fitsBits at *
  split at h
  · simp_all
  · simp_all; omega

theorem belowLimit_of_fitsCap {cap : Option Nat} {n a : Nat} (h : fitsCap cap n = true) (ha : a < n) :
    belowLimit cap a = true := by
  cases cap with
  | none => rfl
  | some k => simp_all [fitsCap, belowLimit]; omega

theorem fitsLen_cutLen (c : Config) (n : Nat) : fitsLen c (cutLen c n) = true := by
  unfold fitsLen cutLen
  split
  · rfl
  · simpa using Nat.mod_lt _ (Nat.two_pow_pos _)

theorem fitsBits_cutBits (c : Config) (n : Nat) : fitsBits c (cutBits c n) = true := by
  unfold fitsBits cutBits
  split
  · rfl
  · simpa using Nat.mod_lt _ (Nat.two_pow_pos _)

/-- Eight bits a byte: a length fits exactly when its bits do. -/
theorem fitsBits_eight_mul (c : Config) (n : Nat) : fitsBits c (8 * n) = fitsLen c n := by
  unfold fitsBits fitsLen
  split
  · rfl
  · rename_i w _
    have : 2 ^ (w + 3) = 8 * 2 ^ w := by rw [Nat.pow_add]; omega
    simp only [decide_eq_decide]
    omega

end Sys2Proof.Machine
end

