-- ==== Sys2Proof/Laws/State.lean ====
section
/-! SUPPORT. One lemma for each field of State and each named update, so that no proof unfolds an update. -/

namespace Sys2Proof.Machine

section appendOut
variable (s : State) (b : Byte)

@[simp] theorem appendOut_phase : (appendOut s b).phase = s.phase := rfl
@[simp] theorem appendOut_errCode : (appendOut s b).errCode = s.errCode := rfl
@[simp] theorem appendOut_inLen : (appendOut s b).inLen = s.inLen := rfl
@[simp] theorem appendOut_outLen : (appendOut s b).outLen = s.outLen + 1 := rfl
@[simp] theorem appendOut_i : (appendOut s b).i = s.i := rfl
@[simp] theorem appendOut_nb : (appendOut s b).nb = s.nb := rfl
@[simp] theorem appendOut_rp : (appendOut s b).rp = s.rp := rfl
@[simp] theorem appendOut_loc : (appendOut s b).loc = s.loc := rfl
@[simp] theorem appendOut_inMem : (appendOut s b).inMem = s.inMem := rfl
@[simp] theorem appendOut_outMem : (appendOut s b).outMem = s.outMem.set s.outLen b := rfl
@[simp] theorem appendOut_cfg : (appendOut s b).cfg = s.cfg := rfl
@[simp] theorem appendOut_host : (appendOut s b).host = s.host := rfl
@[simp] theorem appendOut_hostData : (appendOut s b).hostData = s.hostData := rfl
@[simp] theorem appendOut_ret : (appendOut s b).ret = s.ret := rfl
@[simp] theorem appendOut_epoch : (appendOut s b).epoch = s.epoch := rfl
@[simp] theorem appendOut_fresh : (appendOut s b).fresh = s.fresh := rfl
end appendOut

section pushBit
variable (s : State) (b : Bool)

@[simp] theorem pushBit_phase : (pushBit s b).phase = s.phase := rfl
@[simp] theorem pushBit_errCode : (pushBit s b).errCode = s.errCode := rfl
@[simp] theorem pushBit_inLen : (pushBit s b).inLen = s.inLen := rfl
@[simp] theorem pushBit_outLen : (pushBit s b).outLen = s.outLen := rfl
@[simp] theorem pushBit_i : (pushBit s b).i = s.i := rfl
@[simp] theorem pushBit_nb : (pushBit s b).nb = s.nb + 1 := rfl
@[simp] theorem pushBit_rp : (pushBit s b).rp = s.rp := rfl
@[simp] theorem pushBit_loc : (pushBit s b).loc = s.loc := rfl
@[simp] theorem pushBit_inMem : (pushBit s b).inMem = s.inMem := rfl
@[simp] theorem pushBit_cfg : (pushBit s b).cfg = s.cfg := rfl
@[simp] theorem pushBit_host : (pushBit s b).host = s.host := rfl
@[simp] theorem pushBit_hostData : (pushBit s b).hostData = s.hostData := rfl
@[simp] theorem pushBit_ret : (pushBit s b).ret = s.ret := rfl
@[simp] theorem pushBit_epoch : (pushBit s b).epoch = s.epoch := rfl
@[simp] theorem pushBit_fresh : (pushBit s b).fresh = s.fresh := rfl
end pushBit

section readMatch
variable (d : Distance) (l : MatchLen) (s : State)

@[simp] theorem readMatch_phase : (readMatch d l s).phase = s.phase := rfl
@[simp] theorem readMatch_errCode : (readMatch d l s).errCode = s.errCode := rfl
@[simp] theorem readMatch_inLen : (readMatch d l s).inLen = s.inLen := rfl
@[simp] theorem readMatch_outLen : (readMatch d l s).outLen = s.outLen := rfl
@[simp] theorem readMatch_i : (readMatch d l s).i = s.i := rfl
@[simp] theorem readMatch_nb : (readMatch d l s).nb = s.nb := rfl
@[simp] theorem readMatch_rp : (readMatch d l s).rp = s.rp + 17 := rfl
@[simp] theorem readMatch_inMem : (readMatch d l s).inMem = s.inMem := rfl
@[simp] theorem readMatch_outMem : (readMatch d l s).outMem = s.outMem := rfl
@[simp] theorem readMatch_cfg : (readMatch d l s).cfg = s.cfg := rfl
@[simp] theorem readMatch_host : (readMatch d l s).host = s.host := rfl
@[simp] theorem readMatch_hostData : (readMatch d l s).hostData = s.hostData := rfl
@[simp] theorem readMatch_ret : (readMatch d l s).ret = s.ret := rfl
@[simp] theorem readMatch_epoch : (readMatch d l s).epoch = s.epoch := rfl
@[simp] theorem readMatch_fresh : (readMatch d l s).fresh = s.fresh := rfl
end readMatch

section endStep
variable (s : State)

@[simp] theorem endStep_phase : (endStep s).phase = s.phase := rfl
@[simp] theorem endStep_errCode : (endStep s).errCode = s.errCode := rfl
@[simp] theorem endStep_inLen : (endStep s).inLen = s.inLen := rfl
@[simp] theorem endStep_outLen : (endStep s).outLen = s.outLen := rfl
@[simp] theorem endStep_loc : (endStep s).loc = Locals.stale s.fresh := rfl
@[simp] theorem endStep_inMem : (endStep s).inMem = s.inMem := rfl
@[simp] theorem endStep_outMem : (endStep s).outMem = s.outMem := rfl
@[simp] theorem endStep_cfg : (endStep s).cfg = s.cfg := rfl
@[simp] theorem endStep_host : (endStep s).host = s.host := rfl
@[simp] theorem endStep_hostData : (endStep s).hostData = s.hostData := rfl
@[simp] theorem endStep_ret : (endStep s).ret = .nothing := rfl
@[simp] theorem endStep_epoch : (endStep s).epoch = s.epoch := rfl
@[simp] theorem endStep_fresh : (endStep s).fresh = s.fresh + 1 := rfl

theorem endStep_i_of_encRun (h : s.phase = .encRun) : (endStep s).i = s.i := by
  simp [endStep, keepsEncoderCursors, h]

theorem endStep_nb_of_encRun (h : s.phase = .encRun) : (endStep s).nb = s.nb := by
  simp [endStep, keepsEncoderCursors, h]

theorem endStep_rp_of_decRun (h : s.phase = .decRun) : (endStep s).rp = s.rp := by
  simp [endStep, keepsReadCursor, h]
end endStep

/-! ### Reads see only the memory they read -/

theorem outByte_congr {s t : State} (hm : t.outMem = s.outMem) (he : t.epoch = s.epoch) : t.outByte = s.outByte := by
  funext a
  simp [State.outByte, hm, he]

theorem inByte_congr {s t : State} (hm : t.inMem = s.inMem) (he : t.epoch = s.epoch) : t.inByte = s.inByte := by
  funext a
  simp [State.inByte, hm, he]

@[simp] theorem endStep_outByte (s : State) : (endStep s).outByte = s.outByte := rfl
@[simp] theorem endStep_inByte (s : State) : (endStep s).inByte = s.inByte := rfl

end Sys2Proof.Machine
end

