-- ==== Sys2Proof/Laws/Ops.lean ====
section
/-! SUPPORT. For each shared operation, once, everything it can do. -/

namespace Sys2Proof.Machine

/-! ### Outcomes -/

theorem unlessRefused_next {why : Option Refusal} {t u : State} :
    unlessRefused why t = .next u ↔ why = none ∧ u = t := by
  cases why <;> simp [unlessRefused, eq_comm]

theorem finishStep_next {r : Result} {t : State} : finishStep r = .next t ↔ ∃ u, r = .next u ∧ t = endStep u := by
  cases r <;> simp [finishStep, eq_comm]

theorem appendBits_next {s t : State} {bs : List Bool} :
    appendBits s bs = .next t ↔ bitRoom s bs.length = none ∧ t = pushBits s bs := unlessRefused_next

/-- An accepted or an ignored command. -/
theorem acceptCommand_cases (p : Phase) (s : State) :
    (s.busy = true ∧ acceptCommand p s = .next s) ∨
      (s.busy = false ∧ acceptCommand p s = .next { s with errCode := 0, phase := p }) := by
  cases h : s.busy <;> simp [acceptCommand, h]

/-- Room for `n` bits: nothing to append, or both limits hold. -/
theorem bitRoom_eq_none {s : State} {n : Nat} :
    bitRoom s n = none ↔
      n = 0 ∨ (fitsCap s.cfg.capOut ((s.nb + n + 7) / 8) = true ∧ fitsBits s.cfg (s.nb + n) = true) := by
  unfold bitRoom
  split
  · simp [*]
  · split
    · simp [*]
    · split <;> simp_all

/-- Room for `n` bytes. -/
theorem outRoom_eq_none {s : State} {n : Nat} :
    outRoom s n = none ↔
      n = 0 ∨ (fitsCap s.cfg.capOut (s.outLen + n) = true ∧ fitsLen s.cfg (s.outLen + n) = true) := by
  unfold outRoom
  split
  · simp [*]
  · split
    · simp [*]
    · split <;> simp_all

/-- What one CORE step can do: wait, or run the enabled operation. -/
theorem coreStep_next {s t : State} :
    coreStep s = .next t ↔
      (enabledOp s = none ∧ t = s) ∨ ∃ i u, enabledOp s = some i ∧ exec i s = .next u ∧ t = endStep u := by
  unfold coreStep
  split
  · rename_i i hi
    simp [finishStep_next, hi]
  · rename_i hi
    simp [hi, eq_comm]

/-! ### HOST's accesses -/

theorem whileIdle_next {s t : State} {r : Result} : whileIdle s r = .next t ↔ s.busy = false ∧ r = .next t := by
  cases h : s.busy <;> simp [whileIdle, h]

/-- A read of OUT writes HOST's side only (20_memory.md R61), and is a byte of the result or a free value. -/
theorem hostReadOut_next {a : Nat} {s t : State} :
    hostReadOut a s = .next t ↔
      s.busy = false ∧ belowLimit s.cfg.capOut a = true ∧
        t = { s with
              hostData :=
                if s.phase = .done ∧ a < s.outLen then (s.outByte a).toNat
                else (Config.unspecifiedByte s.epoch s.fresh a).toNat } := by
  rw [hostReadOut, whileIdle_next]
  refine and_congr_right fun _ => ?_
  by_cases hd : s.phase = .done ∧ a < s.outLen <;>
    cases belowLimit s.cfg.capOut a <;> simp [State.done, hd, eq_comm (a := t)]

/-! ### The write stream -/

theorem streamBit_set_other {m : Memory} {f : Nat → Byte} {a : Nat} {b : Byte} {n : Nat} (h : n / 8 ≠ a) :
    streamBit (fun x => ((m.set a b).get x).getD (f x)) n = streamBit (fun x => (m.get x).getD (f x)) n := by
  simp [streamBit, Memory.get_set_other m b h]

/-- The byte a pushed bit goes into. -/
theorem pushBit_outByte_same (s : State) (b : Bool) :
    (pushBit s b).outByte (s.nb / 8) =
      (if s.nb % 8 = 0 then 0 else s.outByte (s.nb / 8)) ||| ((BitVec.ofBool b).setWidth 8 <<< (7 - s.nb % 8)) := by
  simp [pushBit, State.outByte]

theorem pushBit_get_other (s : State) (b : Bool) {a : Nat} (h : a ≠ s.nb / 8) :
    (pushBit s b).outMem.get a = s.outMem.get a := Memory.get_set_other _ _ h

theorem pushBit_outByte_other (s : State) (b : Bool) {a : Nat} (h : a ≠ s.nb / 8) :
    (pushBit s b).outByte a = s.outByte a := by
  simp [State.outByte, pushBit_get_other s b h]

/-- The bit a pushed bit leaves at place `7 - j` of the byte. -/
theorem getLsbD_pushed (b : Bool) {r j : Nat} (hr : r < 8) (hj : j < 8) :
    (((BitVec.ofBool b).setWidth 8 : Byte) <<< (7 - r)).getLsbD (7 - j) = (b && decide (j = r)) := by
  cases b <;> interval_cases r <;> interval_cases j <;> rfl

/-- Pushing a bit leaves the bits before it. -/
theorem pushBit_outBit_before (s : State) (b : Bool) {n : Nat} (h : n < s.nb) :
    (pushBit s b).outBit n = s.outBit n := by
  unfold State.outBit streamBit
  by_cases hb : n / 8 = s.nb / 8
  · rw [hb, pushBit_outByte_same, BitVec.getLsbD_or, getLsbD_pushed b (by omega) (by omega)]
    rw [if_neg (by omega : ¬ s.nb % 8 = 0)]
    simp [show ¬ n % 8 = s.nb % 8 by omega]
  · rw [pushBit_outByte_other s b hb]

/-- The bit pushed, and zeros below it. -/
theorem pushBit_outBit_from {s : State} (ht : TailZero s) (b : Bool) {n : Nat} (h : s.nb ≤ n)
    (hn : n / 8 = s.nb / 8) : (pushBit s b).outBit n = (b && decide (n = s.nb)) := by
  have hold : ((if s.nb % 8 = 0 then 0 else s.outByte (s.nb / 8)) : Byte).getLsbD (7 - n % 8) = false := by
    split
    · simp
    · have := ht n h (by omega)
      rwa [State.outBit, streamBit, hn] at this
  rw [State.outBit, streamBit, hn, pushBit_outByte_same, BitVec.getLsbD_or, hold,
    getLsbD_pushed b (by omega) (by omega), Bool.false_or]
  congr 1
  simp only [decide_eq_decide]
  omega

theorem pushBit_tailZero {s : State} (ht : TailZero s) (b : Bool) : TailZero (pushBit s b) := by
  intro n hn hn'
  simp only [pushBit_nb] at hn hn'
  rw [pushBit_outBit_from ht b (by omega) (by omega)]
  simp [show ¬ n = s.nb by omega]

@[simp] theorem pushBits_nil (s : State) : pushBits s [] = s := rfl
@[simp] theorem pushBits_cons (s : State) (b : Bool) (bs : List Bool) :
    pushBits s (b :: bs) = pushBits (pushBit s b) bs := rfl
theorem pushBits_append (s : State) (xs ys : List Bool) : pushBits s (xs ++ ys) = pushBits (pushBits s xs) ys :=
  List.foldl_append

/-- Pushing bits writes OUT and NB only. -/
theorem pushBits_frame (s : State) (bs : List Bool) :
    pushBits s bs = { s with outMem := (pushBits s bs).outMem, nb := s.nb + bs.length } := by
  induction bs generalizing s with
  | nil => rfl
  | cons b bs ih =>
    rw [pushBits_cons, ih]
    simp only [pushBit_phase, pushBit_errCode, pushBit_inLen, pushBit_outLen, pushBit_i, pushBit_nb, pushBit_rp,
      pushBit_loc, pushBit_inMem, pushBit_cfg, pushBit_host, pushBit_hostData, pushBit_ret, pushBit_epoch,
      pushBit_fresh, List.length_cons]
    congr 1
    omega

section pushBits
variable (s : State) (bs : List Bool)

@[simp] theorem pushBits_phase : (pushBits s bs).phase = s.phase := by rw [pushBits_frame]
@[simp] theorem pushBits_errCode : (pushBits s bs).errCode = s.errCode := by rw [pushBits_frame]
@[simp] theorem pushBits_inLen : (pushBits s bs).inLen = s.inLen := by rw [pushBits_frame]
@[simp] theorem pushBits_outLen : (pushBits s bs).outLen = s.outLen := by rw [pushBits_frame]
@[simp] theorem pushBits_i : (pushBits s bs).i = s.i := by rw [pushBits_frame]
@[simp] theorem pushBits_nb : (pushBits s bs).nb = s.nb + bs.length := by rw [pushBits_frame]
@[simp] theorem pushBits_rp : (pushBits s bs).rp = s.rp := by rw [pushBits_frame]
@[simp] theorem pushBits_loc : (pushBits s bs).loc = s.loc := by rw [pushBits_frame]
@[simp] theorem pushBits_inMem : (pushBits s bs).inMem = s.inMem := by rw [pushBits_frame]
@[simp] theorem pushBits_cfg : (pushBits s bs).cfg = s.cfg := by rw [pushBits_frame]
@[simp] theorem pushBits_host : (pushBits s bs).host = s.host := by rw [pushBits_frame]
@[simp] theorem pushBits_hostData : (pushBits s bs).hostData = s.hostData := by rw [pushBits_frame]
@[simp] theorem pushBits_ret : (pushBits s bs).ret = s.ret := by rw [pushBits_frame]
@[simp] theorem pushBits_epoch : (pushBits s bs).epoch = s.epoch := by rw [pushBits_frame]
@[simp] theorem pushBits_fresh : (pushBits s bs).fresh = s.fresh := by rw [pushBits_frame]
end pushBits

/-- Pushing bits, seen through reads. -/
theorem pushBits_appended {s : State} (ht : TailZero s) (bs : List Bool) : Appended s (pushBits s bs) bs := by
  induction bs generalizing s with
  | nil =>
    exact { nb := rfl, before := fun _ _ => rfl, added := fun k hk => absurd hk (by simp), tail := ht,
            elsewhere := fun _ _ => rfl }
  | cons b bs ih =>
    have h := ih (pushBit_tailZero ht b)
    simp only [pushBits_cons]
    refine { nb := ?_, before := fun n hn => ?_, added := fun k hk => ?_, tail := h.tail, elsewhere := fun a ha => ?_ }
    · rw [h.nb, pushBit_nb, List.length_cons]
      omega
    · rw [h.before n (by simp; omega), pushBit_outBit_before s b hn]
    · cases k with
      | zero =>
        rw [Nat.add_zero, h.before s.nb (by simp), pushBit_outBit_from ht b le_rfl rfl]
        simp
      | succ k =>
        have := h.added k (by simpa using hk)
        rw [pushBit_nb] at this
        rw [List.getElem?_cons_succ, ← this]
        congr 2
        omega
    · rw [List.length_cons] at ha
      rw [h.elsewhere a (by simp only [pushBit_nb]; omega), pushBit_get_other s b (by omega)]

theorem pushBits_wf {s : State} (bs : List Bool) (h : s.outMem.wf) : (pushBits s bs).outMem.wf := by
  induction bs generalizing s with
  | nil => exact h
  | cons b bs ih => exact ih (Memory.set_wf _ _ h)

/-- The bytes of the stream are written as its bits are. -/
theorem pushBits_filled {s : State} (bs : List Bool) (h : s.outMem.filled ((s.nb + 7) / 8)) :
    (pushBits s bs).outMem.filled ((s.nb + bs.length + 7) / 8) := by
  induction bs generalizing s with
  | nil => exact h
  | cons b bs ih =>
    have h1 : (pushBit s b).outMem.filled ((s.nb + 1 + 7) / 8) := by
      intro a ha
      simp only [pushBit]
      rw [Memory.get_set]
      split
      · rfl
      · exact h a (by omega)
    have h2 := ih h1
    rw [pushBit_nb] at h2
    rw [pushBits_cons, List.length_cons]
    exact Memory.filled_mono h2 (by omega)

/-! ### The output of the Decoder -/

theorem appendOut_outByte (s : State) (b : Byte) (a : Nat) :
    (appendOut s b).outByte a = if a = s.outLen then b else s.outByte a := by
  simp only [State.outByte, appendOut_outMem, appendOut_epoch, Memory.get_set]
  split <;> simp_all

/-- The copy loop writes OUT, OUT_LEN and K only. -/
theorem copyLoop_frame (d n : Nat) (s : State) :
    copyLoop d n s =
      { s with
        outMem := (copyLoop d n s).outMem
        outLen := s.outLen + n
        loc := { s.loc with k := (copyLoop d n s).loc.k } } := by
  induction n with
  | zero => rfl
  | succ n ih =>
    simp only [copyLoop]
    rw [ih]
    simp [appendOut, Nat.add_assoc]

section copyLoop
variable (d n : Nat) (s : State)

@[simp] theorem copyLoop_phase : (copyLoop d n s).phase = s.phase := by rw [copyLoop_frame]
@[simp] theorem copyLoop_errCode : (copyLoop d n s).errCode = s.errCode := by rw [copyLoop_frame]
@[simp] theorem copyLoop_inLen : (copyLoop d n s).inLen = s.inLen := by rw [copyLoop_frame]
@[simp] theorem copyLoop_outLen : (copyLoop d n s).outLen = s.outLen + n := by rw [copyLoop_frame]
@[simp] theorem copyLoop_i : (copyLoop d n s).i = s.i := by rw [copyLoop_frame]
@[simp] theorem copyLoop_nb : (copyLoop d n s).nb = s.nb := by rw [copyLoop_frame]
@[simp] theorem copyLoop_rp : (copyLoop d n s).rp = s.rp := by rw [copyLoop_frame]
@[simp] theorem copyLoop_inMem : (copyLoop d n s).inMem = s.inMem := by rw [copyLoop_frame]
@[simp] theorem copyLoop_cfg : (copyLoop d n s).cfg = s.cfg := by rw [copyLoop_frame]
@[simp] theorem copyLoop_host : (copyLoop d n s).host = s.host := by rw [copyLoop_frame]
@[simp] theorem copyLoop_hostData : (copyLoop d n s).hostData = s.hostData := by rw [copyLoop_frame]
@[simp] theorem copyLoop_ret : (copyLoop d n s).ret = s.ret := by rw [copyLoop_frame]
@[simp] theorem copyLoop_epoch : (copyLoop d n s).epoch = s.epoch := by rw [copyLoop_frame]
@[simp] theorem copyLoop_fresh : (copyLoop d n s).fresh = s.fresh := by rw [copyLoop_frame]
end copyLoop

theorem copyLoop_outMem_succ (d n : Nat) (s : State) :
    (copyLoop d (n + 1) s).outMem =
      (copyLoop d n s).outMem.set (s.outLen + n) ((copyLoop d n s).outByte (s.outLen + n - d)) := by
  simp [copyLoop]

theorem copyLoop_outByte_succ (d n : Nat) (s : State) (a : Nat) :
    (copyLoop d (n + 1) s).outByte a =
      if a = s.outLen + n then (copyLoop d n s).outByte (s.outLen + n - d) else (copyLoop d n s).outByte a := by
  simp only [State.outByte, copyLoop_outMem_succ, copyLoop_epoch, Memory.get_set]
  split <;> simp_all

/-- The copy loop stores to OUT[OUT_LEN .. OUT_LEN + n - 1] only. -/
theorem copyLoop_get_other (d n : Nat) (s : State) {a : Nat} (h : a < s.outLen ∨ s.outLen + n ≤ a) :
    (copyLoop d n s).outMem.get a = s.outMem.get a := by
  induction n with
  | zero => rfl
  | succ n ih => rw [copyLoop_outMem_succ, Memory.get_set_other _ _ (by omega), ih (by omega)]

theorem copyLoop_outByte_other (d n : Nat) (s : State) {a : Nat} (h : a < s.outLen ∨ s.outLen + n ≤ a) :
    (copyLoop d n s).outByte a = s.outByte a := by
  simp [State.outByte, copyLoop_get_other d n s h]

/-- Each byte the loop appends is the one `d` places before it, in the output it leaves (43_decoder.md R159). -/
theorem copyLoop_outByte {d n k : Nat} {s : State} (hd : 1 ≤ d) (hk : k < n) :
    (copyLoop d n s).outByte (s.outLen + k) = (copyLoop d n s).outByte (s.outLen + k - d) ∨ s.outLen + k < d := by
  induction n with
  | zero => omega
  | succ n ih =>
    rw [copyLoop_outByte_succ, copyLoop_outByte_succ]
    rcases Nat.lt_or_ge (s.outLen + k) d with h | h
    · exact .inr h
    rcases Nat.lt_or_ge k n with hkn | hkn
    · rw [if_neg (by omega), if_neg (by omega)]
      exact ih hkn
    · obtain rfl : k = n := by omega
      exact .inl (by rw [if_pos rfl, if_neg (by omega)])

theorem copyLoop_wf (d n : Nat) {s : State} (h : s.outMem.wf) : (copyLoop d n s).outMem.wf := by
  induction n with
  | zero => exact h
  | succ n ih => rw [copyLoop_outMem_succ]; exact Memory.set_wf _ _ ih

theorem copyLoop_filled (d n : Nat) {s : State} (h : s.outMem.filled s.outLen) :
    (copyLoop d n s).outMem.filled (s.outLen + n) := by
  induction n with
  | zero => exact h
  | succ n ih => rw [copyLoop_outMem_succ, ← Nat.add_assoc]; exact Memory.set_filled_succ _ ih

/-! ### The enabled step (10_state.md R24) -/

theorem enabledOp_cases {s : State} {i : Instr} (h : enabledOp s = some i) :
    (s.phase = .encInit ∧ i = .encInit) ∨ (s.phase = .encRun ∧ s.i < s.inLen ∧ i = .encStep) ∨
      (s.phase = .encRun ∧ s.i = s.inLen ∧ i = .encFinal) ∨ (s.phase = .decInit ∧ i = .decInit) ∨
      (s.phase = .decRun ∧ 9 ≤ s.remain ∧ i = .decStep) ∨ (s.phase = .decRun ∧ s.remain < 9 ∧ i = .decFinal) := by
  unfold enabledOp at h
  cases hp : s.phase with
  | idle => simp [hp] at h
  | encInit => simp_all
  | encRun =>
    simp only [hp] at h
    split at h
    · simp_all
    · split at h <;> simp_all
  | decInit => simp_all
  | decRun =>
    simp only [hp] at h
    split at h
    · simp_all
    · rename_i h9
      simp only [Option.some.injEq] at h
      simp [← h, Nat.lt_of_not_le h9]
  | done => simp [hp] at h
  | fault => simp [hp] at h

end Sys2Proof.Machine
end

