-- ==== Sys2Proof/Laws/PerInstr.lean ====
section
/-! SUPPORT. Statements for all instructions, one lemma per constructor. -/

namespace Sys2Proof.Laws.WordLength

/-- The lengths of spec/opcode_table.json: 9 bits for LIT, 17 for MATCH (90_conflicts.md C1), no token bits for any other
row. -/
def tableLength : Instr → Nat
  | .lit _ => 9
  | .matchTok _ _ => 17
  | .pad | .compress | .decompress | .cmdNop0 | .cmdRsvd3 => 0
  | .bsNew | .bsPush1 _ | .bsPushf _ _ | .bsPad | .bsTobytes | .bsLoad | .bsRemain | .bsPop _ | .bsPeek _ => 0
  | .mfWrap _ _ | .mfFind _ _ | .encInit | .encStep | .encEmitLit _ | .encEmitMatch _ _ | .encFinal => 0
  | .decInit | .decStep | .decFinal => 0

/-- An instruction's bits in a token stream are as many as the table says. -/
def Statement (i : Instr) : Prop := (tokenBits i).length = tableLength i

theorem lit (byte : Byte) : Statement (.lit byte) := by simp [Statement, tokenBits, encode, tableLength]
theorem matchTok (distance : Distance) (length : MatchLen) : Statement (.matchTok distance length) := by
  simp [Statement, tokenBits, encode, tableLength]
theorem pad : Statement .pad := rfl
theorem compress : Statement .compress := rfl
theorem decompress : Statement .decompress := rfl
theorem cmdNop0 : Statement .cmdNop0 := rfl
theorem cmdRsvd3 : Statement .cmdRsvd3 := rfl
theorem bsNew : Statement .bsNew := rfl
theorem bsPush1 (b : Bool) : Statement (.bsPush1 b) := rfl
theorem bsPushf (x : List Byte) (n : Nat) : Statement (.bsPushf x n) := rfl
theorem bsPad : Statement .bsPad := rfl
theorem bsTobytes : Statement .bsTobytes := rfl
theorem bsLoad : Statement .bsLoad := rfl
theorem bsRemain : Statement .bsRemain := rfl
theorem bsPop (n : Nat) : Statement (.bsPop n) := rfl
theorem bsPeek (n : Nat) : Statement (.bsPeek n) := rfl
theorem mfWrap (x : List Byte) (n : Nat) : Statement (.mfWrap x n) := rfl
theorem mfFind (data : List Byte) (position : Nat) : Statement (.mfFind data position) := rfl
theorem encInit : Statement .encInit := rfl
theorem encStep : Statement .encStep := rfl
theorem encEmitLit (b : Byte) : Statement (.encEmitLit b) := rfl
theorem encEmitMatch (d : Distance) (l : MatchLen) : Statement (.encEmitMatch d l) := rfl
theorem encFinal : Statement .encFinal := rfl
theorem decInit : Statement .decInit := rfl
theorem decStep : Statement .decStep := rfl
theorem decFinal : Statement .decFinal := rfl

end Sys2Proof.Laws.WordLength
end

