-- ==== Sys2Proof/Tests/Slice0.lean ====
section
/-! SUPPORT. The model's own tests: well-formedness refuses what it should; words written out bit by bit from the format
tables decode; one or two small steps for each instruction, with expected values from spec/95_test_vectors.md and the
rules' examples; and a witness for the hypotheses of each obligation. -/

namespace Sys2Proof.Tests

open Sys2Proof Sys2Proof.Machine

/-- A machine in a given PHASE with given input, the rest as after reset. -/
def at_ (p : Phase) (input : List Byte) : State :=
  { State.reset with phase := p, inMem := Memory.setAll [] 0 input, inLen := input.length }

/-- The same with `out` already produced. -/
def with_ (p : Phase) (input out : List Byte) : State :=
  { at_ p input with outMem := Memory.setAll [] 0 out, outLen := out.length }

/-- A write stream of `nb` bits in the given bytes. -/
def stream (nb : Nat) (out : List Byte) : State :=
  { State.reset with phase := .encRun, nb := nb, outMem := Memory.setAll [] 0 out }

/-- The step answers a next state with a given property. -/
def nextIs (r : Result) (p : State → Bool) : Bool :=
  match r with
  | .next t => p t
  | .fault _ => false
  | .refused _ => false

/-- The step is refused for a given reason. -/
def refusedFor (r : Result) (q : Refusal) : Bool :=
  match r with
  | .next _ => false
  | .fault _ => false
  | .refused q' => q' == q

/-! ### WellFormed refuses -/

theorem test_wf_refuses_field_longer_than_bytes : (Instr.bsPushf [0xA5] 9).wf = false := by decide
theorem test_wf_refuses_wrap_of_empty : (Instr.mfWrap [] 3).wf = false := by decide
theorem test_wf_refuses_find_past_end : (Instr.mfFind [1, 2] 3).wf = false := by decide
theorem test_wf_refuses_match_distance_zero : (Instr.encEmitMatch 0 4).wf = false := by decide
theorem test_wf_refuses_match_length_three : (Instr.encEmitMatch 1 3).wf = false := by decide
theorem test_wf_accepts : (Instr.bsPushf [0xA5] 8).wf && (Instr.mfFind [1, 2] 2).wf && (Instr.encEmitMatch 4095 4).wf := by
  decide

/-! ### Decoding: words from 30_encoding.md R77, R78 (95_test_vectors.md T1 to T7) and 44_host_commands.md -/

theorem test_decode_lit_T3 :
    decodeBits [false, false, true, true, false, false, false, false, true] = .token (.lit 0x61) [] := by decide
theorem test_decode_match_T4 :
    decodeBits [true, false, false, false, false, false, false, false, false, false, false, false, true,
      false, true, false, false] = .token (.matchTok 1 4) [] := by decide
theorem test_decode_match_T7 :
    decodeBits [true, false, false, false, false, false, false, false, false, false, false, true, false,
      false, false, true, false] = .token (.matchTok 2 2) [] := by decide
theorem test_decode_packing_row_288_12 :
    (matchByte1 288, matchByte2 288 12, matchDistance 0x12 0x0C, matchLength 0x0C) = (0x12, 0x0C, 288, 12) := by decide
theorem test_decode_bytes_B2 : decode [0x30, 0x80] = .token (.lit 0x61) (List.replicate 7 false) := by decide
theorem test_decode_eight_bits_are_padding_D10 : decode [0xFF] = .padding := by decide
theorem test_decode_truncated_match_D15 : decode [0xFF, 0xFF] = .truncatedMatch := by decide
theorem test_decode_commands :
    (decodeCmd 0b00, decodeCmd 0b01, decodeCmd 0b10, decodeCmd 0b11, decodeCmd 0b101) =
      (.cmdNop0, .compress, .decompress, .cmdRsvd3, .compress) := by decide
theorem test_encode_units_have_no_encoding :
    (encode .bsNew, encode (.bsPop 1), encode (.mfWrap [0] 1), encode .encInit, encode .decStep) =
      (.none, .none, .none, .none, .none) := by decide
theorem test_assemble_program_2 :
    assemble [.tok (.lit 0x78), .tok (.lit 0x79), .tok (.matchTok 2 3), .tok (.matchTok 5 1), .pad] =
      [0x3C, 0x1E, 0x60, 0x04, 0x70, 0x05, 0x10] := by decide
theorem test_assemble_program_3 :
    assemble [.tok (.lit 0x61), .bits (true :: List.replicate 14 false)] = [0x30, 0xC0, 0x00] := by decide
theorem test_table_words :
    (decodeTableWord 16 0x061, decodeTableWord 24 0x10014, decodeTableWord 8 0x1, decodeTableWord 8 0x3) =
      (some (.lit 0x61), some (.matchTok 1 4), some .compress, some .cmdRsvd3) := by decide

/-! ### BitStream (95_test_vectors.md 2.1) -/

theorem test_new_B1 : nextIs (exec .bsNew (stream 9 [0x30, 0x80])) (fun t => t.nb == 0) := by decide
theorem test_push1_B1 : nextIs (exec (.bsPush1 true) (stream 0 [])) (fun t => t.nb == 1 && t.outByte 0 == 0x80) := by decide
theorem test_push1_merges : nextIs (exec (.bsPush1 true) (stream 9 [0x30, 0x80]))
    (fun t => t.nb == 10 && t.outByte 1 == 0xC0) := by decide
theorem test_pushf_B2 : nextIs (exec (.bsPushf [0x61] 8) (stream 1 [0x00]))
    (fun t => t.nb == 9 && t.outBytes 2 == [0x30, 0x80]) := by decide
theorem test_pushf_B9 : nextIs (exec (.bsPushf [0xA5, 0xFF] 12) (stream 0 []))
    (fun t => t.nb == 12 && t.outBytes 2 == [0xA5, 0xF0]) := by decide
theorem test_pad_B7 : nextIs (exec .bsPad (stream 9 [0x30, 0x80]))
    (fun t => t.nb == 16 && t.outBytes 2 == [0x30, 0x80]) := by decide
theorem test_pad_B6 : nextIs (exec .bsPad (stream 72 [])) (fun t => t.nb == 72) := by decide
theorem test_tobytes_B11 : nextIs (exec .bsTobytes (stream 32 [0x30, 0xC0, 0x05, 0x00]))
    (fun t => t.ret == .bytes [0x30, 0xC0, 0x05, 0x00]) := by decide
theorem test_tobytes_unpadded : refusedFor (exec .bsTobytes (stream 9 [0x30, 0x80])) .streamNotPadded := by decide
theorem test_load_B13 : nextIs (exec .bsLoad { at_ .decInit [0x30, 0x80] with rp := 9 })
    (fun t => t.rp == 0 && t.remain == 16) := by decide
theorem test_remain_B15 : nextIs (exec .bsRemain { at_ .decRun [0x30, 0x80] with rp := 9 })
    (fun t => t.ret == .number 7) := by decide
theorem test_peek_B14 : nextIs (exec (.bsPeek 9) (at_ .decRun [0x30, 0x80]))
    (fun t => t.ret == .number 0x061 && t.rp == 0) := by decide
theorem test_pop_B15 : nextIs (exec (.bsPop 8) { at_ .decRun [0x30, 0x80] with rp := 1 })
    (fun t => t.ret == .number 0x61 && t.rp == 9) := by decide
theorem test_pop_B17 : refusedFor (exec (.bsPop 9) (at_ .decRun [0xFF])) .popUnderflow := by decide
theorem test_pad_token_write_side_B8 : nextIs (exec .pad (stream 15 [0, 0])) (fun t => t.nb == 16) := by decide
theorem test_pad_token_read_side_D1 : nextIs (exec .pad { at_ .decRun [0x30, 0x80] with rp := 9 })
    (fun t => t.phase == .done) := by decide

/-! ### MatchFinder (41_matchfinder.md R120; 95_test_vectors.md 2.2) -/

theorem test_wrap_source_example : nextIs (exec (.mfWrap [0x31, 0x32, 0x33] 5) State.reset)
    (fun t => t.ret == .bytes [0x31, 0x32, 0x33, 0x31, 0x32]) := by decide
theorem test_wrap_zero : nextIs (exec (.mfWrap [0x31] 0) State.reset) (fun t => t.ret == .bytes []) := by decide
theorem test_find_tie_break_M6 :
    nextIs (exec (.mfFind [0x61, 0x62, 0x63, 0x64, 0x58, 0x61, 0x62, 0x63, 0x64, 0x59, 0x61, 0x62, 0x63, 0x64] 10) State.reset)
      (fun t => t.ret == .found (some (10, 4))) := by decide
theorem test_find_length_first_M8 :
    nextIs (exec (.mfFind [0x61, 0x62, 0x63, 0x64, 0x5A, 0x61, 0x62, 0x63, 0x64, 0x65, 0x61, 0x62, 0x63, 0x64, 0x65] 10)
      State.reset) (fun t => t.ret == .found (some (5, 5))) := by decide

/-! ### Encoder (95_test_vectors.md 2.4, E4) -/

theorem test_enc_init : nextIs (exec .encInit { at_ .encInit [1] with i := 7, nb := 3, outLen := 2 })
    (fun t => t.i == 0 && t.nb == 0 && t.outLen == 0 && t.phase == .encRun) := by decide
theorem test_enc_step_literal : nextIs (exec .encStep (at_ .encRun [0x61, 0x61, 0x61, 0x61, 0x61]))
    (fun t => t.i == 1 && t.nb == 9 && t.outBytes 2 == [0x30, 0x80]) := by decide
theorem test_enc_step_match :
    nextIs (exec .encStep { with_ .encRun [0x61, 0x61, 0x61, 0x61, 0x61] [0x30, 0x80] with i := 1, nb := 9 })
      (fun t => t.i == 5 && t.nb == 26 && t.outBytes 4 == [0x30, 0xC0, 0x05, 0x00]) := by decide
theorem test_emit_lit : nextIs (exec (.encEmitLit 0x61) (stream 0 []))
    (fun t => t.nb == 9 && t.outBytes 2 == [0x30, 0x80]) := by decide
theorem test_emit_match : nextIs (exec (.encEmitMatch 3 15) (stream 0 []))
    (fun t => t.nb == 17 && t.loc.eb1 == 0x00 && t.loc.eb2 == 0x3F && t.outBytes 3 == [0x80, 0x1F, 0x80]) := by decide
theorem test_enc_final : nextIs (exec .encFinal { stream 26 [0x30, 0xC0, 0x05, 0x00] with i := 0, inLen := 0 })
    (fun t => t.outLen == 4 && t.phase == .done && t.outputBytes == [0x30, 0xC0, 0x05, 0x00]) := by decide
theorem test_enc_step_beyond_capacity :
    refusedFor (exec .encStep { at_ .encRun [0x61] with cfg := { Config.standard with capOut := some 1 } })
      .beyondCapOut := by decide

/-! ### Decoder (95_test_vectors.md 2.5) -/

theorem test_dec_init_H2 : nextIs (exec .decInit (at_ .decInit []))
    (fun t => t.phase == .fault && t.errCode == 1 && t.status == 0b01100) := by decide
theorem test_dec_init_D10 : nextIs (exec .decInit { at_ .decInit [0xFF] with rp := 5, outLen := 3 })
    (fun t => t.phase == .decRun && t.rp == 0 && t.outLen == 0) := by decide
theorem test_lit_D1 : nextIs (exec (.lit 0x61) (at_ .decRun [0x30, 0x80]))
    (fun t => t.outputBytes == [0x61] && t.rp == 9) := by decide
theorem test_match_overlap_D5 :
    nextIs (exec (.matchTok 3 7) { with_ .decRun [0x30, 0x98, 0x8C, 0x70, 0x03, 0x70] [0x61, 0x62, 0x63] with rp := 27 })
      (fun t => t.outputBytes == [0x61, 0x62, 0x63, 0x61, 0x62, 0x63, 0x61, 0x62, 0x63, 0x61] && t.rp == 44) := by decide
theorem test_match_distance_D20 :
    nextIs (exec (.matchTok 2 0) { with_ .decRun [0x30, 0xC0, 0x08, 0x00] [0x61] with rp := 9 })
      (fun t => t.phase == .fault && t.errCode == 3 && t.outputBytes == [0x61] && t.rp == 9) := by decide
theorem test_match_at_the_end_of_the_stream : nextIs (exec (.matchTok 1 4) (at_ .decRun [0xFF]))
    (fun t => t.phase == .fault && t.errCode == 2) := by decide
theorem test_dec_step_D3 : nextIs (exec .decStep { with_ .decRun [0x30, 0xC0, 0x05, 0x00] [0x61] with rp := 9 })
    (fun t => t.outputBytes == [0x61, 0x61, 0x61, 0x61, 0x61] && t.rp == 26) := by decide
theorem test_dec_step_truncated_D16 : nextIs (exec .decStep { with_ .decRun [0x30, 0xC0, 0x00] [0x61] with rp := 9 })
    (fun t => t.phase == .fault && t.errCode == 2 && t.outLen == 1) := by decide
theorem test_dec_final_D21 : nextIs (exec .decFinal { with_ .decRun [0x30, 0xC0] [0x61] with rp := 9 })
    (fun t => t.phase == .done && t.status == 0b00010) := by decide

/-! ### Commands and steps (95_test_vectors.md 2.6) -/

theorem test_compress_H4 : nextIs (exec .compress { at_ .fault [] with errCode := 1 })
    (fun t => t.phase == .encInit && t.errCode == 0 && t.status == 0b00001) := by decide
theorem test_decompress_H6 : nextIs (exec .decompress (at_ .encRun [1])) (fun t => t.phase == .encRun) := by decide
theorem test_nop0_H5 : nextIs (exec .cmdNop0 (at_ .done [])) (fun t => t == at_ .done []) := by decide
theorem test_rsvd3_H5 : nextIs (exec .cmdRsvd3 (at_ .idle [])) (fun t => t == at_ .idle []) := by decide
theorem test_reset_status_H1 : nextIs (step { State.reset with host := [.readStatus] }) (fun t => t.hostData == 0) := by
  decide
theorem test_host_write_in_while_busy : refusedFor (step { at_ .encRun [1] with host := [.writeIn 0 2] }) .hostDuty := by
  decide
theorem test_placed_lit_runs : nextIs (step (State.reset.withFetchWord 16 0x061))
    (fun t => t.outputBytes == [0x61] && t.rp == 9) := by decide
theorem test_placed_command_runs : nextIs (step (State.reset.withFetchWord 8 2)) (fun t => t.phase == .decInit) := by
  decide

/-! ### Witnesses: states and operands that meet the hypotheses of each obligation, clause by clause -/

theorem witness_DecodingInvertsEncoding :
    encode (.matchTok 4095 15) ≠ .none ∧ encode .pad ≠ .none ∧ encode .cmdRsvd3 ≠ .none ∧
      isToken (.lit 0xFF) = true ∧ isToken (.matchTok 0 0) = true := by decide

theorem witness_DisassemblyInvertsAssembly :
    (∀ i ∈ [Instr.lit 0xFF, .matchTok 4095 15], isToken i = true) ∧ (disassemble [0x30, 0x80]).2.length < 9 ∧
      (bytesBits [0x30, 0xFF]).take ((disassemble [0x30, 0x80]).1.flatMap tokenBits).length =
        (disassemble [0x30, 0x80]).1.flatMap tokenBits := by decide

theorem witness_PlacedTableWordRuns :
    decodeTableWord 8 2 = some .decompress ∧ decodeTableWord 9 0x061 = some (.lit 0x61) ∧
      decodeTableWord 24 0x10000 = some (.matchTok 0 0) := by decide

theorem witness_AppendedByteDecodesAsALiteral :
    (∀ i ∈ [Instr.lit 0x61], isToken i = true) ∧ 1 ≤ padCount ([Instr.lit 0x61].flatMap tokenBits).length := by decide

theorem witness_StepRunsTheDecodedInstruction :
    (at_ .decRun [0x30, 0x80]).fetched = .token (.lit 0x61) (List.replicate 7 false) ∧ (at_ .decRun [0x30, 0x80]).host = [] ∧
      ({ at_ .decRun [0x30, 0x80] with host := [.coreTurn] } : State).host = .coreTurn :: [] ∧
      (at_ .decRun [0xFF, 0xFF]).fetched = .truncatedMatch ∧ (at_ .decRun [0xFF]).fetched = .padding ∧
      ({ State.reset with host := [.writeCmd 1] } : State).host = .writeCmd 1 :: [] := by decide

theorem witness_StepFollowsThePhaseTable :
    (at_ .idle []).host = [] ∧ (at_ .encRun [1]).i < (at_ .encRun [1]).inLen ∧ (at_ .encRun []).i = (at_ .encRun []).inLen ∧
      9 ≤ 8 * (at_ .decRun [1, 2]).inLen - ({ at_ .decRun [1, 2] with rp := 7 } : State).rp ∧
      8 * (at_ .decRun [1, 2]).inLen - ({ at_ .decRun [1, 2] with rp := 8 } : State).rp < 9 ∧
      nextIs (step (at_ .encInit [1])) (fun _ => true) ∧ nextIs (step (at_ .decInit [])) (fun _ => true) ∧
      nextIs (step (at_ .decRun [1, 2])) (fun _ => true) ∧
      nextIs (step { State.reset with host := [.writeCmd 2] }) (fun _ => true) ∧ State.reset.busy = false := by decide

theorem witness_NoCoreStepIsRefusedWhenUnbounded :
    State.reset.cfg.capOut = none ∧ State.reset.cfg.lenW = none ∧ State.reset.host = [] := by decide

theorem witness_ResetLeavesTheStatedValues :
    ({ at_ .encRun [1] with host := [.reset, .poll] } : State).host = .reset :: [.poll] := by decide

/-- Reset meets the invariant, and so does a state in the middle of a decompression. -/
theorem witness_StepKeepsInv : Inv (with_ .decRun [0x30, 0xC0, 0x05, 0x00] []) :=
  { inWf := by decide
    outWf := by decide
    inAddr := by decide
    outAddr := by decide
    errCode := by decide
    inCap := rfl
    outCap := rfl
    inLenWidth := rfl
    outLenWidth := rfl
    iWidth := rfl
    nbWidth := rfl
    rpWidth := rfl
    outFilled := by decide
    enc := fun h => absurd h (by decide)
    dec := by decide }

theorem witness_StepKeepsInv_steps : nextIs (step (with_ .decRun [0x30, 0xC0, 0x05, 0x00] [])) (fun _ => true) := by decide

theorem witness_StatusIsAViewOfPhase :
    ({ State.reset with host := [.writeStatus 31] } : State).host = .writeStatus 31 :: [] ∧
      ({ at_ .encRun [1] with host := [.readStatus] } : State).host = .readStatus :: [] := by decide

/-- A stream in the middle of a byte. -/
theorem stream_tailZero : TailZero (stream 9 [0x30, 0x80]) := by
  intro n hn hn'
  have h1 : 9 ≤ n := hn
  have h2 : n < 16 := hn'
  interval_cases n <;> decide

theorem witness_PushBitAppends :
    TailZero (stream 9 [0x30, 0x80]) ∧ bitRoom (stream 9 [0x30, 0x80]) 1 = none ∧
      bitRoom { stream 16 [] with cfg := { Config.standard with capOut := some 2 } } 1 = some .beyondCapOut :=
  ⟨stream_tailZero, by decide, by decide⟩

theorem witness_PushFieldAppends :
    TailZero (stream 9 [0x30, 0x80]) ∧ 8 ≤ 8 * [(0xFF : Byte)].length ∧ bitRoom (stream 9 [0x30, 0x80]) 8 = none ∧
      8 * [(0xFF : Byte)].length < 9 := ⟨stream_tailZero, by decide, by decide, by decide⟩

theorem witness_PadEndsOnAByteBoundary :
    bitRoom (stream 9 [0x30, 0x80]) (padCount (stream 9 [0x30, 0x80]).nb) = none ∧
      bitRoom (stream 72 []) (padCount (stream 72 []).nb) = none := by decide

theorem witness_PadEndsAStreamOnEitherSide :
    (at_ .decRun [0xFF]).remain < 9 ∧ 9 ≤ ({ at_ .decRun [1, 2] with rp := 7 } : State).remain ∧
      (stream 9 [0x30, 0x80]).phase ≠ .decRun ∧ TailZero (stream 9 [0x30, 0x80]) ∧
      bitRoom (stream 9 [0x30, 0x80]) (padCount (stream 9 [0x30, 0x80]).nb) = none ∧
      bitRoom { stream 9 [0x30, 0x80] with cfg := { Config.standard with capOut := some 1 } }
        (padCount (stream 9 [0x30, 0x80]).nb) = some .beyondCapOut :=
  ⟨by decide, by decide, by decide, stream_tailZero, by decide, by decide⟩

theorem witness_ToBytesReturnsTheStream : (stream 32 []).nb % 8 = 0 ∧ (stream 0 []).nb % 8 = 0 := by decide

theorem witness_PopAndPeekReadTheNextBits :
    8 ≤ 8 * (at_ .decRun [0xFF]).inLen - (at_ .decRun [0xFF]).rp ∧
      8 * (at_ .decRun [0xFF]).inLen - (at_ .decRun [0xFF]).rp < 9 := by decide

theorem witness_WriteThenReadReturnsTheBits :
    (stream 0 []).nb = 0 ∧ 12 ≤ 8 * [(0xA5 : Byte), 0xFF].length ∧ bitRoom (stream 0 []) (12 + padCount 12) = none ∧
      (at_ .decRun [0xA5, 0xF0]).inputBytes = [0xA5, 0xF0] ∧ 4 ≤ (at_ .decRun [0xA5]).remain ∧ 10 < 2 ^ 4 ∧
      (∀ k < 4, some ((at_ .decRun [0xA5]).inBit ((at_ .decRun [0xA5]).rp + k)) = (fieldBits 4 10)[k]?) := by decide

theorem witness_WrapRepeatsItsSource : [(0x31 : Byte)] ≠ [] := by decide

/-- The example of 42_encoder.md R141: `aaaaa` at 1. -/
theorem witness_FindIsLongestThenOldest :
    find [0x61, 0x61, 0x61, 0x61, 0x61] 1 = some (1, 4) ∧ find [0x61, 0x61, 0x61, 0x61] 1 = none ∧
      1 ≤ [(0x61 : Byte), 0x61, 0x61, 0x61, 0x61].length ∧ [(0x61 : Byte)].length < 2 ∧
      matchesAt [0x61, 0x61, 0x61, 0x61, 0x61] 1 0 4 = true := by decide

theorem witness_WrappedMatchIsOverlappedMatch :
    0 < 1 ∧ 1 + 4 ≤ [(0x61 : Byte), 0x61, 0x61, 0x61, 0x61].length := by decide

theorem witness_FindReadsWindowAndLookaheadOnly :
    ([0x61, 0x62] ++ List.replicate 16 0x63 : List Byte).length = ([0x61, 0x62] ++ List.replicate 15 0x63 ++ [0] : List Byte).length ∧
      (∀ a, 2 - 4095 ≤ a → a < 2 + min 15 (18 - 2) →
        ([0x61, 0x62] ++ List.replicate 16 0x63 : List Byte)[a]? = ([0x61, 0x62] ++ List.replicate 15 0x63 ++ [0] : List Byte)[a]?) := by
  refine ⟨by decide, fun a _ h => ?_⟩
  have h' : a < 17 := h
  interval_cases a <;> decide

theorem witness_EncInitStartsACompression : (at_ .encInit [1]).phase = .encInit := by decide

theorem witness_EmitAppendsTheToken :
    TailZero (stream 9 [0x30, 0x80]) ∧ bitRoom (stream 9 [0x30, 0x80]) 9 = none ∧
      bitRoom (stream 9 [0x30, 0x80]) 17 = none ∧ 1 ≤ (1 : Distance).toNat ∧ 4 ≤ (4 : MatchLen).toNat ∧
      bitRoom { stream 9 [0x30, 0x80] with cfg := { Config.standard with lenW := some 1 } } 9 = some .beyondLenW :=
  ⟨stream_tailZero, by decide, by decide, by decide, by decide, by decide⟩

/-- The two steps of 42_encoder.md's worked example. -/
theorem witness_EncStepEmitsOneToken :
    (at_ .encRun [0x61, 0x61, 0x61, 0x61, 0x61]).i < (at_ .encRun [0x61, 0x61, 0x61, 0x61, 0x61]).inLen ∧
      TailZero (at_ .encRun [0x61, 0x61, 0x61, 0x61, 0x61]) ∧
      find (at_ .encRun [0x61, 0x61, 0x61, 0x61, 0x61]).inputBytes 0 = none ∧
      find (at_ .encRun [0x61, 0x61, 0x61, 0x61, 0x61]).inputBytes 1 = some (1, 4) ∧
      bitRoom (at_ .encRun [0x61, 0x61, 0x61, 0x61, 0x61]) 9 = none ∧
      bitRoom (at_ .encRun [0x61, 0x61, 0x61, 0x61, 0x61]) 17 = none :=
  ⟨by decide, fun n _ h => absurd h (Nat.not_lt_zero n), by decide, by decide, by decide, by decide⟩

theorem witness_EncFinalPadsAndEnds :
    (stream 26 []).phase = .encRun ∧ (stream 26 []).i = (stream 26 []).inLen ∧
      bitRoom (stream 26 []) (padCount (stream 26 []).nb) = none := by decide

theorem witness_CompressionNeverFaults :
    (at_ .encInit []).host = [] ∧ nextIs (step (at_ .encInit [])) (fun _ => true) ∧
      nextIs (step (at_ .encRun [0x61])) (fun _ => true) ∧ nextIs (step (at_ .encRun [])) (fun _ => true) := by decide

theorem witness_CompressRunComputesCompress :
    (at_ .fault [0x61]).busy = false ∧ ({ at_ .fault [0x61] with host := [.writeCmd 5] } : State).host = [.writeCmd 5] ∧
      5 % 4 = 1 ∧ compressRoom Config.standard 1 = true ∧
      compressRoom { Config.standard with capOut := some 2 } 1 = true := by decide

theorem witness_DecInitStartsOrFaults :
    (at_ .decInit []).phase = .decInit ∧ (at_ .decInit []).inLen = 0 ∧ (at_ .decInit [0]).inLen ≠ 0 := by decide

theorem witness_LitTokenAppendsItsByte :
    9 ≤ ({ at_ .decRun [1, 2] with rp := 7 } : State).remain ∧ outRoom (at_ .decRun [1, 2]) 1 = none ∧
      outRoom { at_ .decRun [1, 2] with cfg := { Config.standard with capOut := some 0 } } 1 = some .beyondCapOut := by
  decide

theorem witness_MatchTokenCopiesPeriodically :
    17 ≤ (with_ .decRun [1, 2, 3] [0x61]).remain ∧ 1 ≤ (1 : Distance).toNat ∧
      (1 : Distance).toNat ≤ (with_ .decRun [1, 2, 3] [0x61]).outLen ∧
      (with_ .decRun [1, 2, 3] [0x61]).cfg.strictLen = false ∧ outRoom (with_ .decRun [1, 2, 3] [0x61]) 15 = none ∧
      outRoom { with_ .decRun [1, 2, 3] [0x61] with cfg := { Config.standard with lenW := some 4 } } 15 =
        some .beyondLenW := by decide

theorem witness_MatchTokenFaultsExactlyWhen :
    (at_ .decRun [1, 2]).remain < 17 ∧ 17 ≤ (with_ .decRun [1, 2, 3] [0x61]).remain ∧
      (with_ .decRun [1, 2, 3] [0x61]).outLen < (2 : Distance).toNat ∧ (0 : Distance).toNat = 0 ∧
      nextIs (exec (.matchTok 2 0) (with_ .decRun [1, 2, 3] [0x61])) (fun t => t.phase == .fault) ∧
      ({ Config.standard with strictLen := true } : Config).strictLen = true ∧ (3 : MatchLen).toNat < 4 := by decide

theorem witness_DecStepExecutesTheTokenAtRp :
    9 ≤ (at_ .decRun [0x30, 0x80]).remain ∧ (at_ .decRun [0x30, 0x80]).inBit 0 = false ∧
      outRoom (at_ .decRun [0x30, 0x80]) 1 = none ∧ 17 ≤ (at_ .decRun [0x80, 0x0A, 0x00]).remain ∧
      (at_ .decRun [0x80, 0x0A, 0x00]).inBit 0 = true ∧ (at_ .decRun [0xFF, 0xFF]).remain < 17 ∧
      (at_ .decRun [0xFF, 0xFF]).inBit 0 = true := by decide

theorem witness_DecFinalEndsTheCommand :
    ({ at_ .decRun [1, 2] with rp := 8 } : State).phase = .decRun ∧ ({ at_ .decRun [1, 2] with rp := 8 } : State).remain < 9 :=
  by decide

theorem witness_TrailingBitsAreNotInterpreted :
    [(0x30 : Byte), 0x80].length = [(0x30 : Byte), 0xFF].length ∧ (disassemble [0x30, 0x80]).2.length < 9 ∧
      (bytesBits [0x30, 0xFF]).take ((disassemble [0x30, 0x80]).1.flatMap tokenBits).length =
        (disassemble [0x30, 0x80]).1.flatMap tokenBits := by decide

/-- 95_test_vectors.md D3. -/
theorem witness_DecompressedSizeIsBounded :
    decompress [0x30, 0xC0, 0x05, 0x00] = .ok [0x61, 0x61, 0x61, 0x61, 0x61] := by decide

/-- 95_test_vectors.md E2, and the empty input. -/
theorem witness_DecompressInvertsCompress :
    [(0x61 : Byte)] ≠ [] ∧ (at_ .idle [0x30, 0x80]).busy = false ∧
      ({ at_ .idle [0x30, 0x80] with host := [.writeCmd 2] } : State).host = [.writeCmd 2] ∧ 2 % 4 = 2 ∧
      (at_ .idle [0x30, 0x80]).cfg.strictLen = false ∧ decompressRoom (at_ .idle [0x30, 0x80]).cfg 2 = true ∧
      (at_ .idle [0x30, 0x80]).inputBytes = compress [0x61] ∧ (at_ .idle []).inputBytes = compress [] := by decide

theorem witness_DecompressRunComputesDecompress :
    (at_ .done [0x30, 0x80]).busy = false ∧
      ({ at_ .done [0x30, 0x80] with host := [.writeCmd 2] } : State).host = [.writeCmd 2] ∧
      decompressRoom Config.standard 2 = true ∧ decompressRoom { Config.standard with capOut := some 1 } 2 = true ∧
      decompressWith false [0x30, 0x80] = .ok [0x61] ∧ decompressWith false [0xFF, 0xFF] = .failed .truncated := by decide

theorem witness_CommandsStartOrAreIgnored :
    (at_ .idle []).busy = false ∧ (at_ .encRun []).busy = true ∧
      ({ State.reset with host := [.writeCmd 7] } : State).host = .writeCmd 7 :: [] ∧ 7 % 4 = 3 ∧ 4 % 4 = 0 ∧ 6 % 4 = 2 := by
  decide

theorem witness_HostAccessesWhileIdle :
    (at_ .done []).busy = false ∧ belowLimit (some 4) 3 = true ∧ fitsCap (some 4) 4 = true ∧
      fitsLen { Config.standard with lenW := some 2 } 3 = true ∧ (with_ .done [] [1]).phase = .done ∧
      0 < (with_ .done [] [1]).outLen ∧ (with_ .done [] [1]).outLen ≤ 1 ∧
      ({ State.reset with host := [.readOut 0] } : State).host = .readOut 0 :: [] := by decide

theorem witness_HostDutiesAreRefused :
    (at_ .decRun [1]).busy = true ∧ (at_ .idle []).busy = false ∧
      ({ Config.standard with capIn := some 4, capOut := some 4, lenW := some 2 } : Config).capIn = some 4 ∧ 2 ^ 2 ≤ 4 ∧
      ({ State.reset with host := [.writeInLen 5] } : State).host = .writeInLen 5 :: [] := by decide

theorem witness_PollWaitsUntilNotBusy :
    ({ State.reset with host := [.poll] } : State).host = .poll :: [] ∧ State.reset.busy = false ∧
      (at_ .encInit [1]).busy = true ∧ nextIs (step { at_ .encInit [1] with host := [.poll] }) (fun _ => true) ∧
      nextIs (step { at_ .encInit [1] with host := [] }) (fun _ => true) ∧
      ({ at_ .encInit [1] with host := [.coreTurn, .poll] } : State).host = .coreTurn :: [.poll] ∧
      nextIs (step { at_ .encInit [1] with host := [.coreTurn, .poll] }) (fun t => t.host == [.poll]) ∧
      refusedFor (step { at_ .encRun [0x61] with cfg := { Config.standard with capOut := some 1 } }) .beyondCapOut := by
  decide

theorem witness_HostReadsAreIdempotent :
    ({ with_ .done [] [1] with host := [.readOut 1, .readOut 1] } : State).host = .readOut 1 :: .readOut 1 :: [] ∧
      nextIs (step { with_ .done [] [1] with host := [.readOut 1, .readOut 1] }) (fun _ => true) ∧
      nextIs (step { at_ .encRun [1] with host := [.readStatus] }) (fun _ => true) ∧ (with_ .done [] [1]).busy = false ∧
      nextIs (step { with_ .done [] [1] with host := [.readOut 0, .coreTurn, .readOut 0] }) (fun t => t.hostData == 1) := by
  decide

theorem witness_NoInstructionWritesTheInput : nextIs (exec (.lit 0x61) (at_ .decRun [0x30, 0x80])) (fun _ => true) := by
  decide

theorem witness_CursorsAdvanceWithinBounds :
    nextIs (step (at_ .decRun [0x30, 0x80])) (fun t => t.phase == .decRun) ∧
      nextIs (step (at_ .encRun [0x61])) (fun _ => true) ∧ (at_ .encRun [0x61]).i < (at_ .encRun [0x61]).inLen := by decide

theorem witness_FaultIsLeftByCommandOrReset :
    (at_ .fault []).phase = .fault ∧ nextIs (step (at_ .fault [])) (fun _ => true) ∧
      nextIs (step { at_ .fault [] with host := [.writeCmd 1] }) (fun _ => true) ∧
      nextIs (step { at_ .fault [] with host := [.reset] }) (fun _ => true) := by decide

theorem witness_FaultsArePrecise :
    (at_ .decInit []).phase ≠ .fault ∧ nextIs (step (at_ .decInit [])) (fun t => t.phase == .fault) ∧
      nextIs (step (at_ .decRun [0xFF, 0xFF])) (fun t => t.phase == .fault) := by decide

theorem witness_CommandsDependOnTheInputAlone :
    (at_ .idle [0x61]).inputBytes = (with_ .fault [0x61] [9, 9]).inputBytes ∧ (with_ .fault [0x61] [9, 9]).busy = false ∧
      nextIs (step { at_ .idle [0x61] with host := [.writeCmd 1] }) (fun _ => true) ∧
      nextIs (step { with_ .fault [0x61] [9, 9] with host := [.writeCmd 1] }) (fun _ => true) := by decide

theorem witness_ValuelessRegistersAreNotRead :
    enabledOp (at_ .decRun [0x30, 0x80]) = some .decStep ∧ enabledOp (at_ .encInit []) = some .encInit ∧
      enabledOp (at_ .decInit [1]) = some .decInit ∧ (at_ .decInit [1]).inLen ≠ 0 ∧
      enabledOp (at_ .decInit []) = some .decInit ∧ (at_ .decInit []).inLen = 0 ∧ (at_ .decRun [0x30, 0x80]).phase ≠ .encRun := by decide

theorem witness_OutIsNotWrittenBeyondCapacity :
    nextIs (exec (.bsPush1 true) (stream 0 [])) (fun t => t.outMem.get 0 != (stream 0 []).outMem.get 0) := by decide

theorem witness_OperationsOutsideTheirDomainAreRefused :
    (at_ .idle []).phase ≠ .encInit ∧ (at_ .idle []).phase ≠ .decInit ∧ (stream 9 []).nb % 8 ≠ 0 ∧
      9 ≤ (at_ .decRun [1, 2]).remain ∧ (at_ .idle []).phase ≠ .encRun ∧ (at_ .encRun []).inLen ≤ (at_ .encRun []).i ∧ (at_ .encRun [1]).i ≠ (at_ .encRun [1]).inLen ∧
      (at_ .idle []).phase ≠ .decRun ∧ (at_ .decRun [1]).remain < 9 ∧ (0 : Distance).toNat = 0 ∧ (3 : MatchLen).toNat < 4 := by
  decide

end Sys2Proof.Tests
end

section
/-! PROOFS, layer 1. The step by HOST's next move, and for each operation of 10_state.md R24, the tokens and HOST's
accesses, once, everything it can do. -/

namespace Sys2Proof.Machine

/-! ### The step, by HOST's next move -/

section step
variable {s : State} {hs : List HostMove}

theorem step_nil (h : s.host = []) : step s = coreStep s := by simp [step, h]

theorem step_coreTurn (h : s.host = .coreTurn :: hs) : step s = coreStep { s with host := hs } := by simp [step, h]

theorem step_poll (h : s.host = .poll :: hs) :
    step s = if s.busy then coreStep s else hostReadStatus { s with host := hs } := by simp [step, h]

theorem step_writeCmd {w : Nat} (h : s.host = .writeCmd w :: hs) :
    step s = exec (decodeCmd w) { s with host := hs } := by simp [step, h]

theorem step_writeStatus {v : Nat} (h : s.host = .writeStatus v :: hs) : step s = .next { s with host := hs } := by
  simp [step, h, hostWriteReadOnly]

theorem step_writeOutLen {v : Nat} (h : s.host = .writeOutLen v :: hs) : step s = .next { s with host := hs } := by
  simp [step, h, hostWriteReadOnly]

theorem step_writeInLen {n : Nat} (h : s.host = .writeInLen n :: hs) :
    step s = hostWriteInLen n { s with host := hs } := by simp [step, h]

theorem step_writeIn {a : Nat} {b : Byte} (h : s.host = .writeIn a b :: hs) :
    step s = hostWriteIn a b { s with host := hs } := by simp [step, h]

theorem step_readCmd (h : s.host = .readCmd :: hs) : step s = .next { s with host := hs, hostData := 0 } := by
  simp [step, h, hostReadCmd]

theorem step_readStatus (h : s.host = .readStatus :: hs) :
    step s = .next { s with host := hs, hostData := s.status.toNat } := by
  simp only [step, h]
  rfl

theorem step_readInLen (h : s.host = .readInLen :: hs) :
    step s = whileIdle s (.next { s with host := hs, hostData := s.inLen }) := by
  simp only [step, h]
  rfl

theorem step_readOutLen (h : s.host = .readOutLen :: hs) :
    step s = whileIdle s (.next { s with host := hs, hostData := s.outLen }) := by
  simp only [step, h]
  rfl

theorem step_readOut {a : Nat} (h : s.host = .readOut a :: hs) : step s = hostReadOut a { s with host := hs } := by
  simp [step, h]

theorem step_reset (h : s.host = .reset :: hs) : step s = hostReset { s with host := hs } := by simp [step, h]

end step

/-! ### HOST's accesses, inverted -/

theorem whileIdle_of_idle {s : State} (h : s.busy = false) (r : Result) : whileIdle s r = r := by simp [whileIdle, h]

theorem hostWriteInLen_next {n : Nat} {s t : State} :
    hostWriteInLen n s = .next t ↔
      s.busy = false ∧ fitsCap s.cfg.capIn n = true ∧ fitsLen s.cfg n = true ∧ t = { s with inLen := n } := by
  rw [hostWriteInLen, whileIdle_next]
  refine and_congr_right fun _ => ?_
  cases fitsCap s.cfg.capIn n <;> cases fitsLen s.cfg n <;> simp [eq_comm (a := t)]

theorem hostWriteIn_next {a : Nat} {b : Byte} {s t : State} :
    hostWriteIn a b s = .next t ↔
      s.busy = false ∧ belowLimit s.cfg.capIn a = true ∧ t = { s with inMem := s.inMem.set a b } := by
  rw [hostWriteIn, whileIdle_next]
  refine and_congr_right fun _ => ?_
  cases belowLimit s.cfg.capIn a <;> simp [eq_comm (a := t)]

/-- BUSY is a view of PHASE. -/
theorem busy_iff {s : State} :
    s.busy = true ↔ s.phase = .encInit ∨ s.phase = .encRun ∨ s.phase = .decInit ∨ s.phase = .decRun := by
  unfold State.busy
  split <;> simp [*]

/-- A write to CMD accepts a command or does nothing. -/
theorem exec_decodeCmd_next {w : Nat} {s t : State} (h : exec (decodeCmd w) s = .next t) :
    t = s ∨ ∃ p, (p = .encInit ∨ p = .decInit) ∧ t = { s with errCode := 0, phase := p } := by
  have accept : ∀ p, p = .encInit ∨ p = .decInit → acceptCommand p s = .next t →
      t = s ∨ ∃ p, (p = .encInit ∨ p = .decInit) ∧ t = { s with errCode := 0, phase := p } := by
    intro p hp ha
    rcases acceptCommand_cases p s with ⟨_, hc⟩ | ⟨_, hc⟩ <;> rw [hc] at ha <;> cases ha
    · exact .inl rfl
    · exact .inr ⟨p, hp, rfl⟩
  unfold decodeCmd at h
  split at h
  · exact accept .encInit (.inl rfl) h
  · exact accept .decInit (.inr rfl) h
  · cases h
    exact .inl rfl
  · cases h
    exact .inl rfl

/-! ### The control operations, inverted (10_state.md R24) -/

theorem raise_next {f : Fault} {s t : State} :
    raise f s = .next t ↔ t = { s with errCode := faultCode f, phase := .fault } := by simp [raise, eq_comm]

theorem execEncInit_next {s t : State} :
    execEncInit s = .next t ↔ s.phase = .encInit ∧ t = { s with i := 0, nb := 0, outLen := 0, phase := .encRun } := by
  unfold execEncInit
  split <;> simp [*, eq_comm (a := t)]

theorem execEncStep_next {s t : State} :
    execEncStep s = .next t ↔
      s.phase = .encRun ∧ s.i < s.inLen ∧
        ((∃ d l, find s.inputBytes s.i = some (d, l) ∧ encodeMatch (BitVec.ofNat 12 d) (BitVec.ofNat 4 l) s = .next t) ∨
          (find s.inputBytes s.i = none ∧ encodeLit s = .next t)) := by
  unfold execEncStep
  split
  · rename_i hp
    by_cases hi : s.i < s.inLen
    · rcases hf : find s.inputBytes s.i with _ | ⟨d, l⟩ <;> simp [hp, hi]
    · simp [hi]
  all_goals simp [*]

theorem execEncFinal_next {s t : State} :
    execEncFinal s = .next t ↔
      s.phase = .encRun ∧ s.i = s.inLen ∧ bitRoom s (padCount s.nb) = none ∧
        t = { pushBits s (List.replicate (padCount s.nb) false) with
              outLen := (s.nb + padCount s.nb) / 8, phase := .done } := by
  unfold execEncFinal
  split
  · by_cases hi : s.i = s.inLen <;> simp [*, unlessRefused_next]
  all_goals simp [*]

theorem execDecInit_next {s t : State} :
    execDecInit s = .next t ↔
      s.phase = .decInit ∧
        ((s.inLen = 0 ∧ t = { s with errCode := faultCode .emptyInput, phase := .fault }) ∨
          (s.inLen ≠ 0 ∧ t = { s with rp := 0, outLen := 0, phase := .decRun })) := by
  unfold execDecInit
  split
  · by_cases h0 : s.inLen = 0 <;> simp [*, raise_next, eq_comm (a := t)]
  all_goals simp [*]

theorem execDecFinal_next {s t : State} :
    execDecFinal s = .next t ↔ s.phase = .decRun ∧ s.remain < 9 ∧ t = { s with phase := .done } := by
  unfold execDecFinal
  split
  · by_cases h9 : s.remain < 9 <;> simp [*, eq_comm (a := t)]
  all_goals simp [*]

/-! ### The tokens, inverted (43_decoder.md R156 to R158) -/

/-- What a running LIT leaves. -/
def afterLit (b : Byte) (s : State) : State :=
  appendOut { s with rp := s.rp + 9, loc := { s.loc with flag := false, litb := b } } b

/-- What a running MATCH with a distance inside the output leaves. -/
def afterMatch (d : Distance) (l : MatchLen) (s : State) : State := copyLoop d.toNat l.toNat (readMatch d l s)

theorem execLit_of_decRun {b : Byte} {s : State} (hp : s.phase = .decRun) :
    execLit b s = if 9 ≤ s.remain then unlessRefused (outRoom s 1) (afterLit b s) else .refused .popUnderflow := by
  simp [execLit, afterLit, hp]

theorem execLit_of_ne {b : Byte} {s : State} (hp : s.phase ≠ .decRun) : execLit b s = .refused .notEnabled := by
  unfold execLit
  split
  · contradiction
  all_goals rfl

theorem execLit_next {b : Byte} {s t : State} :
    execLit b s = .next t ↔ s.phase = .decRun ∧ 9 ≤ s.remain ∧ outRoom s 1 = none ∧ t = afterLit b s := by
  by_cases hp : s.phase = .decRun
  · rw [execLit_of_decRun hp]
    by_cases h9 : 9 ≤ s.remain <;> simp [hp, h9, unlessRefused_next]
  · simp [execLit_of_ne hp, hp]

theorem execMatchTok_next {d : Distance} {l : MatchLen} {s t : State} :
    execMatchTok d l s = .next t ↔
      s.phase = .decRun ∧
        ((s.remain < 17 ∧ t = { s with errCode := faultCode .truncated, phase := .fault }) ∨
          (17 ≤ s.remain ∧ badMatch d l s = true ∧ t = { s with errCode := faultCode .distance, phase := .fault }) ∨
          (17 ≤ s.remain ∧ badMatch d l s = false ∧ outRoom s l.toNat = none ∧ t = afterMatch d l s)) := by
  unfold execMatchTok
  split
  · rename_i hp
    by_cases h17 : s.remain < 17
    · simp [hp, h17, raise_next, Nat.not_le.mpr h17]
    · cases hb : badMatch d l s <;>
        simp [hp, h17, raise_next, Nat.not_lt.mp h17, unlessRefused_next, afterMatch]
  all_goals simp [*]

/-- Everything a token step can do: raise, append a literal, or copy a match. -/
theorem execDecStep_cases {s t : State} (h : execDecStep s = .next t) :
    s.phase = .decRun ∧
      ((∃ f, t = { s with errCode := faultCode f, phase := .fault }) ∨
        (∃ b, 9 ≤ s.remain ∧ outRoom s 1 = none ∧ t = afterLit b s) ∨
        (∃ d l, 17 ≤ s.remain ∧ outRoom s l.toNat = none ∧ t = afterMatch d l s)) := by
  unfold execDecStep at h
  split at h
  · rename_i hp
    refine ⟨hp, ?_⟩
    split at h
    · rename_i b _ _
      obtain ⟨-, h9, hroom, rfl⟩ := execLit_next.mp h
      exact .inr (.inl ⟨b, h9, hroom, rfl⟩)
    · rename_i d l _ _
      obtain ⟨-, ⟨-, rfl⟩ | ⟨-, -, rfl⟩ | ⟨h17, -, hroom, rfl⟩⟩ := execMatchTok_next.mp h
      · exact .inl ⟨.truncated, rfl⟩
      · exact .inl ⟨.distance, rfl⟩
      · exact .inr (.inr ⟨d, l, h17, hroom, rfl⟩)
    · cases h
    · exact .inl ⟨.truncated, raise_next.mp h⟩
    · cases h
  all_goals cases h

section afterLit
variable (b : Byte) (s : State)

@[simp] theorem afterLit_phase : (afterLit b s).phase = s.phase := rfl
@[simp] theorem afterLit_rp : (afterLit b s).rp = s.rp + 9 := rfl
@[simp] theorem afterLit_outLen : (afterLit b s).outLen = s.outLen + 1 := rfl
end afterLit

section afterMatch
variable (d : Distance) (l : MatchLen) (s : State)

@[simp] theorem afterMatch_phase : (afterMatch d l s).phase = s.phase := by simp [afterMatch]
@[simp] theorem afterMatch_rp : (afterMatch d l s).rp = s.rp + 17 := by simp [afterMatch]
@[simp] theorem afterMatch_outLen : (afterMatch d l s).outLen = s.outLen + l.toNat := by simp [afterMatch]

/-- MATCH writes RP, the step-local registers, OUT and OUT_LEN only. -/
theorem afterMatch_frame :
    afterMatch d l s =
      { s with
        rp := (afterMatch d l s).rp
        loc := (afterMatch d l s).loc
        outMem := (afterMatch d l s).outMem
        outLen := (afterMatch d l s).outLen } := by
  rw [afterMatch, copyLoop_frame]
  rfl
end afterMatch

/-! ### One token of the Encoder (42_encoder.md R141) -/

@[simp] theorem litTokenOf_length (b : Byte) : (litTokenOf b).length = 9 := by simp [litTokenOf]

@[simp] theorem matchTokenOf_length (d : Distance) (l : MatchLen) : (matchTokenOf d l).length = 17 := by
  simp [matchTokenOf]

/-- A match the MatchFinder returns has 4 to 15 bytes and ends inside the data (41_matchfinder.md R125). -/
theorem find_length_bounds {data : List Byte} {p d l : Nat} (h : find data p = some (d, l)) :
    4 ≤ l ∧ l ≤ 15 ∧ p + l ≤ data.length := by
  obtain ⟨c, hc, hsource⟩ := List.exists_of_findSome?_eq_some h
  obtain ⟨_, -, hpair⟩ := Option.map_eq_some_iff.mp hsource
  obtain rfl : c = l := congrArg Prod.snd hpair
  simp only [candidateLens, maxMatchLen, Config.minLen, Config.maxLen, List.mem_reverse, List.mem_range'_1] at hc
  omega

/-- Everything ENC.STEP can do: one token is pushed, of at most 9 bits for each byte the cursor advances over, and the
cursor stays inside the input; besides, only step-local registers change. -/
theorem execEncStep_cases {s t : State} (h : execEncStep s = .next t) :
    s.phase = .encRun ∧ s.i < s.inLen ∧
      ∃ loc bs l, bitRoom s bs.length = none ∧ 0 < bs.length ∧ 0 < l ∧ bs.length ≤ 9 * l ∧ s.i + l ≤ s.inLen ∧
        t = { pushBits { s with loc := loc } bs with i := s.i + l } := by
  obtain ⟨hp, hi, ⟨d, l, hf, h⟩ | ⟨-, h⟩⟩ := execEncStep_next.mp h
  · obtain ⟨hroom, rfl⟩ := unlessRefused_next.mp h
    obtain ⟨h4, h15, hend⟩ := find_length_bounds hf
    rw [inputBytes_length] at hend
    have hl : (BitVec.ofNat 4 l).toNat = l := by simp; omega
    refine ⟨hp, hi, _, matchTokenOf _ _, l, by simpa using hroom, by simp, by omega, ?_, hend,
      by rw [hl]; rfl⟩
    rw [matchTokenOf_length]
    omega
  · obtain ⟨hroom, rfl⟩ := unlessRefused_next.mp h
    exact ⟨hp, hi, _, litTokenOf _, 1, by simpa using hroom, by simp, by simp, by simp, hi, rfl⟩

end Sys2Proof.Machine
end

section
/-! PROOFS, layer 2. The invariant through every step (O12). -/

namespace Sys2Proof.Machine

/-! ### The memories, the write stream and the output of a state that meets the invariant -/

theorem fitsCap_zero (cap : Option Nat) : fitsCap cap 0 = true := by cases cap <;> simp [fitsCap]

theorem fitsLen_zero (c : Config) : fitsLen c 0 = true := by
  unfold fitsLen
  split <;> simp

theorem fitsBits_zero (c : Config) : fitsBits c 0 = true := by
  unfold fitsBits
  split <;> simp

theorem Memory.filled_zero (m : Memory) : m.filled 0 := fun _ ha => absurd ha (Nat.not_lt_zero _)

/-- Every listed address is below a capacity. -/
def Memory.below (limit : Option Nat) (m : Memory) : Prop := ∀ c ∈ m, belowLimit limit c.1 = true

theorem Memory.below_set {limit : Option Nat} {m : Memory} {a : Nat} (b : Byte) (h : m.below limit)
    (ha : belowLimit limit a = true) : (m.set a b).below limit := by
  intro c hc
  rcases Memory.mem_set hc with rfl | hc
  · exact ha
  · exact h c hc

theorem pushBits_below {s : State} (bs : List Bool) (h : s.outMem.below s.cfg.capOut)
    (hcap : fitsCap s.cfg.capOut ((s.nb + bs.length + 7) / 8) = true) :
    (pushBits s bs).outMem.below s.cfg.capOut := by
  induction bs generalizing s with
  | nil => exact h
  | cons b bs ih =>
    rw [List.length_cons] at hcap
    refine ih (s := pushBit s b) (Memory.below_set _ h (belowLimit_of_fitsCap hcap (by omega))) ?_
    rwa [pushBit_cfg, pushBit_nb, Nat.add_right_comm s.nb, Nat.add_assoc s.nb]

theorem pushBits_keeps_filled {s : State} {n : Nat} (bs : List Bool) (h : s.outMem.filled n) :
    (pushBits s bs).outMem.filled n := by
  induction bs generalizing s with
  | nil => exact h
  | cons b bs ih => exact ih (Memory.set_filled _ _ h)

theorem tailZero_congr {s t : State} (h : TailZero s) (hnb : t.nb = s.nb) (hmem : t.outMem = s.outMem)
    (hepoch : t.epoch = s.epoch) : TailZero t := by
  intro n hn hn'
  rw [hnb] at hn hn'
  rw [State.outBit, outByte_congr hmem hepoch]
  exact h n hn hn'

/-- What the invariant says of the write stream in ENC_RUN. -/
structure StreamInv (s : State) : Prop where
  wf : s.outMem.wf
  below : s.outMem.below s.cfg.capOut
  width : fitsBits s.cfg s.nb = true
  tail : TailZero s
  filled : s.outMem.filled ((s.nb + 7) / 8)
  cap : fitsCap s.cfg.capOut ((s.nb + 7) / 8) = true

theorem StreamInv.fits {s : State} {n : Nat} (h : StreamInv s) (hroom : bitRoom s n = none) :
    fitsCap s.cfg.capOut ((s.nb + n + 7) / 8) = true ∧ fitsBits s.cfg (s.nb + n) = true := by
  rcases bitRoom_eq_none.mp hroom with rfl | hfits
  · exact ⟨h.cap, h.width⟩
  · exact hfits

theorem StreamInv.pushBits {s : State} {bs : List Bool} (h : StreamInv s) (hroom : bitRoom s bs.length = none) :
    StreamInv (pushBits s bs) := by
  obtain ⟨hcap, hwidth⟩ := h.fits hroom
  exact
    { wf := pushBits_wf bs h.wf
      below := by simpa using pushBits_below bs h.below hcap
      width := by simpa using hwidth
      tail := (pushBits_appended h.tail bs).tail
      filled := by simpa using pushBits_filled bs h.filled
      cap := by simpa using hcap }

/-- What the invariant says of the output in every phase. -/
structure OutputInv (s : State) : Prop where
  wf : s.outMem.wf
  below : s.outMem.below s.cfg.capOut
  filled : s.outMem.filled s.outLen
  cap : fitsCap s.cfg.capOut s.outLen = true
  width : fitsLen s.cfg s.outLen = true

theorem OutputInv.fits {s : State} {n : Nat} (h : OutputInv s) (hroom : outRoom s n = none) :
    fitsCap s.cfg.capOut (s.outLen + n) = true ∧ fitsLen s.cfg (s.outLen + n) = true := by
  rcases outRoom_eq_none.mp hroom with rfl | hfits
  · exact ⟨h.cap, h.width⟩
  · exact hfits

theorem OutputInv.appendOut {s : State} (b : Byte) (h : OutputInv s)
    (hcap : fitsCap s.cfg.capOut (s.outLen + 1) = true) (hwidth : fitsLen s.cfg (s.outLen + 1) = true) :
    OutputInv (appendOut s b) :=
  { wf := Memory.set_wf _ _ h.wf
    below := Memory.below_set _ h.below (belowLimit_of_fitsCap hcap (by omega))
    filled := Memory.set_filled_succ _ h.filled
    cap := hcap
    width := hwidth }

theorem OutputInv.copyLoop {s : State} (d n : Nat) (h : OutputInv s)
    (hcap : fitsCap s.cfg.capOut (s.outLen + n) = true) (hwidth : fitsLen s.cfg (s.outLen + n) = true) :
    OutputInv (copyLoop d n s) := by
  induction n with
  | zero => exact h
  | succ n ih =>
    have hprev := ih (fitsCap_mono hcap (by omega)) (fitsLen_mono hwidth (by omega))
    have hnext := hprev.appendOut ((Machine.copyLoop d n s).outByte ((Machine.copyLoop d n s).outLen - d))
      (by simpa [Nat.add_assoc] using hcap) (by simpa [Nat.add_assoc] using hwidth)
    exact ⟨hnext.wf, hnext.below, hnext.filled, hnext.cap, hnext.width⟩

section Inv
variable {s t : State}

theorem Inv.stream (h : Inv s) (hp : s.phase = .encRun) : StreamInv s := by
  obtain ⟨-, -, htail, hfilled, hcap⟩ := h.enc hp
  exact ⟨h.outWf, h.outAddr, h.nbWidth, htail, hfilled, hcap⟩

theorem Inv.output (h : Inv s) : OutputInv s := ⟨h.outWf, h.outAddr, h.outFilled, h.outCap, h.outLenWidth⟩

/-- Outside FAULT, ERR_CODE is as any other phase but FAULT wants it. -/
theorem Inv.errCode_iff (h : Inv s) {p : Phase} (hs : s.phase ≠ .fault) (hp : p ≠ .fault) :
    s.errCode ≠ 0 ↔ p = .fault := by
  rw [h.errCode]
  exact iff_of_false hs hp

/-! ### What each part of a step does to the invariant -/

theorem Inv.setHost (h : Inv s) (hs : List HostMove) (v : Nat) : Inv { s with host := hs, hostData := v } := { h with }

theorem Inv.setLoc (h : Inv s) (l : Locals) : Inv { s with loc := l } := { h with }

/-- Entering a phase without running state, with the ERR_CODE it wants. -/
theorem Inv.setPhase (h : Inv s) {e : BitVec 2} {p : Phase} (he : e ≠ 0 ↔ p = .fault) (henc : p ≠ .encRun)
    (hdec : p ≠ .decRun) : Inv { s with errCode := e, phase := p } :=
  { h with errCode := he, enc := fun hp => absurd hp henc, dec := fun hp => absurd hp hdec }

theorem Inv.fault (h : Inv s) (f : Fault) : Inv { s with errCode := faultCode f, phase := .fault } :=
  h.setPhase (by cases f <;> decide) (by decide) (by decide)

/-- The registers that the end of a step frees are cut to their widths, and the others stay. -/
theorem Inv.endStep (h : Inv s) : Inv (endStep s) :=
  { h with
    iWidth := by
      simp only [Machine.endStep]
      split
      exacts [h.iWidth, fitsLen_cutLen _ _]
    nbWidth := by
      simp only [Machine.endStep]
      split
      exacts [h.nbWidth, fitsBits_cutBits _ _]
    rpWidth := by
      simp only [Machine.endStep]
      split
      exacts [h.rpWidth, fitsBits_cutBits _ _]
    enc := fun hp => by
      rw [endStep_phase] at hp
      obtain ⟨hi, hnb, htail, hfilled, hcap⟩ := h.enc hp
      rw [endStep_i_of_encRun s hp, endStep_nb_of_encRun s hp]
      exact ⟨hi, hnb, tailZero_congr htail (endStep_nb_of_encRun s hp) rfl rfl, hfilled, hcap⟩
    dec := fun hp => by
      rw [endStep_phase] at hp
      rw [endStep_rp_of_decRun s hp]
      exact h.dec hp }

theorem Inv.writeInLen (h : Inv s) {n : Nat} (hx : hostWriteInLen n s = .next t) : Inv t := by
  obtain ⟨hidle, hcap, hwidth, rfl⟩ := hostWriteInLen_next.mp hx
  have hnotBusy : s.busy ≠ true := by simp [hidle]
  exact
    { h with
      inCap := hcap
      inLenWidth := hwidth
      enc := fun hp => absurd (busy_iff.mpr (.inr (.inl hp))) hnotBusy
      dec := fun hp => absurd (busy_iff.mpr (.inr (.inr (.inr hp)))) hnotBusy }

theorem Inv.writeIn (h : Inv s) {a : Nat} {b : Byte} (hx : hostWriteIn a b s = .next t) : Inv t := by
  obtain ⟨-, ha, rfl⟩ := hostWriteIn_next.mp hx
  exact { h with inWf := Memory.set_wf _ _ h.inWf, inAddr := Memory.below_set b h.inAddr ha }

theorem Inv.command (h : Inv s) {w : Nat} (hx : exec (decodeCmd w) s = .next t) : Inv t := by
  rcases exec_decodeCmd_next hx with rfl | ⟨p, rfl | rfl, rfl⟩
  · exact h
  · exact h.setPhase (by decide) (by decide) (by decide)
  · exact h.setPhase (by decide) (by decide) (by decide)

/-- Nothing listed and every register zero meets the invariant, whatever belongs to HOST. -/
theorem inv_hostReset (hx : hostReset s = .next t) : Inv t := by
  cases hx
  exact
    { inWf := List.Pairwise.nil
      outWf := List.Pairwise.nil
      inAddr := fun _ hc => absurd hc List.not_mem_nil
      outAddr := fun _ hc => absurd hc List.not_mem_nil
      errCode := iff_of_false (fun he => he rfl) nofun
      inCap := fitsCap_zero _
      outCap := fitsCap_zero _
      inLenWidth := fitsLen_zero _
      outLenWidth := fitsLen_zero _
      iWidth := fitsLen_zero _
      nbWidth := fitsBits_zero _
      rpWidth := fitsBits_zero _
      outFilled := Memory.filled_zero _
      enc := nofun
      dec := nofun }

/-! ### The invariant through each CORE operation -/

theorem Inv.encInit (h : Inv s) (hx : execEncInit s = .next t) : Inv t := by
  obtain ⟨hp, rfl⟩ := execEncInit_next.mp hx
  exact
    { h with
      errCode := h.errCode_iff (by simp [hp]) nofun
      outCap := fitsCap_zero _
      outLenWidth := fitsLen_zero _
      iWidth := fitsLen_zero _
      nbWidth := fitsBits_zero _
      outFilled := Memory.filled_zero _
      enc := fun _ => by simpa [TailZero, fitsCap_zero] using Memory.filled_zero s.outMem
      dec := nofun }

/-- A token pushed while the cursor advances over enough bytes of the input. -/
theorem Inv.pushToken (h : Inv s) (hp : s.phase = .encRun) {bs : List Bool} {l : Nat}
    (hroom : bitRoom s bs.length = none) (hbits : bs.length ≤ 9 * l) (hend : s.i + l ≤ s.inLen) :
    Inv { pushBits s bs with i := s.i + l } := by
  obtain ⟨-, hnb, -⟩ := h.enc hp
  have hstream := (h.stream hp).pushBits hroom
  exact
    { inWf := by simpa using h.inWf
      outWf := hstream.wf
      inAddr := by simpa using h.inAddr
      outAddr := hstream.below
      errCode := by simpa using h.errCode
      inCap := by simpa using h.inCap
      outCap := by simpa using h.outCap
      inLenWidth := by simpa using h.inLenWidth
      outLenWidth := by simpa using h.outLenWidth
      iWidth := by simpa using fitsLen_mono h.inLenWidth hend
      nbWidth := hstream.width
      rpWidth := by simpa using h.rpWidth
      outFilled := by simpa using pushBits_keeps_filled bs h.outFilled
      enc := fun _ => ⟨by simpa using hend, by simp; omega, hstream.tail, hstream.filled, hstream.cap⟩
      dec := fun hp' => by simp [hp] at hp' }

theorem Inv.encStep (h : Inv s) (hx : execEncStep s = .next t) : Inv t := by
  obtain ⟨hp, -, loc, bs, l, hroom, -, -, hbits, hend, rfl⟩ := execEncStep_cases hx
  exact (h.setLoc loc).pushToken hp hroom hbits hend

/-- ENC.FINAL: the padded stream is the output. -/
theorem Inv.encFinal (h : Inv s) (hx : execEncFinal s = .next t) : Inv t := by
  obtain ⟨hp, -, hroom, rfl⟩ := execEncFinal_next.mp hx
  have hstream := (h.stream hp).pushBits (bs := List.replicate (padCount s.nb) false) (by simpa using hroom)
  have hwhole := padCount_spec s.nb
  have hlen : (s.nb + padCount s.nb) / 8 ≤ (s.nb + padCount s.nb + 7) / 8 := by omega
  have height : 8 * ((s.nb + padCount s.nb) / 8) = s.nb + padCount s.nb := by omega
  exact
    { inWf := by simpa using h.inWf
      outWf := hstream.wf
      inAddr := by simpa using h.inAddr
      outAddr := hstream.below
      errCode := by rw [pushBits_errCode]; exact h.errCode_iff (by simp [hp]) nofun
      inCap := by simpa using h.inCap
      outCap := by simpa using fitsCap_mono (by simpa using hstream.cap) hlen
      inLenWidth := by simpa using h.inLenWidth
      outLenWidth := by
        have := hstream.width
        simp only [pushBits_cfg, pushBits_nb, List.length_replicate] at this
        rw [← height, fitsBits_eight_mul] at this
        simpa using this
      iWidth := by simpa using h.iWidth
      nbWidth := hstream.width
      rpWidth := by simpa using h.rpWidth
      outFilled := Memory.filled_mono hstream.filled (by simpa using hlen)
      enc := nofun
      dec := nofun }

theorem Inv.decInit (h : Inv s) (hx : execDecInit s = .next t) : Inv t := by
  obtain ⟨hp, ⟨-, rfl⟩ | ⟨-, rfl⟩⟩ := execDecInit_next.mp hx
  · exact h.fault .emptyInput
  · exact
      { h with
        errCode := h.errCode_iff (by simp [hp]) nofun
        outCap := fitsCap_zero _
        outLenWidth := fitsLen_zero _
        rpWidth := fitsBits_zero _
        outFilled := Memory.filled_zero _
        enc := nofun
        dec := fun _ => ⟨Nat.zero_le _, Nat.zero_le _⟩ }

/-- A token pays for the bytes it appends: 9 bits for one, 17 for at most 15 (43_decoder.md R169). -/
theorem outBound_lit (bits : Nat) : outBound bits + 1 ≤ outBound (bits + 9) := by
  unfold outBound
  omega

theorem outBound_match (bits : Nat) : outBound (bits + 17) = outBound bits + 15 := by
  unfold outBound
  omega

/-- The read cursor inside the input fits its width. -/
theorem Inv.fitsBits_of_le (h : Inv s) {n : Nat} (hn : n ≤ 8 * s.inLen) : fitsBits s.cfg n = true :=
  fitsBits_mono ((fitsBits_eight_mul _ _).trans h.inLenWidth) hn

/-- `t` is `s` after a token that moved RP inside the stream and appended what the token pays for. -/
theorem Inv.readToken (h : Inv s) (hp : s.phase = .decRun) (hout : OutputInv t)
    (hframe : t = { s with rp := t.rp, loc := t.loc, outMem := t.outMem, outLen := t.outLen })
    (hrp : t.rp ≤ 8 * s.inLen) (hbound : t.outLen ≤ outBound t.rp) : Inv t := by
  obtain ⟨hwf, hbelow, hfilled, hcap, hwidth⟩ := hout
  rw [hframe] at hwf hbelow hfilled hcap hwidth ⊢
  exact
    { h with
      outWf := hwf
      outAddr := hbelow
      outCap := hcap
      outLenWidth := hwidth
      rpWidth := h.fitsBits_of_le hrp
      outFilled := hfilled
      enc := fun hp' => by simp [hp] at hp'
      dec := fun _ => ⟨hrp, hbound⟩ }

theorem Inv.decStep (h : Inv s) (hx : execDecStep s = .next t) : Inv t := by
  obtain ⟨hp, ⟨f, rfl⟩ | ⟨b, h9, hroom, rfl⟩ | ⟨d, l, h17, hroom, rfl⟩⟩ := execDecStep_cases hx
  · exact h.fault f
  · obtain ⟨-, hbound⟩ := h.dec hp
    obtain ⟨hcap, hwidth⟩ := h.output.fits hroom
    have hcost := outBound_lit s.rp
    unfold State.remain at h9
    have hout : OutputInv { s with rp := s.rp + 9, loc := { s.loc with flag := false, litb := b } } :=
      ⟨h.outWf, h.outAddr, h.outFilled, h.outCap, h.outLenWidth⟩
    exact h.readToken hp (hout.appendOut b hcap hwidth) rfl (by simp; omega) (by simp; omega)
  · obtain ⟨-, hbound⟩ := h.dec hp
    obtain ⟨hcap, hwidth⟩ := h.output.fits hroom
    have hcost := outBound_match s.rp
    have hlen := l.isLt
    unfold State.remain at h17
    have hout : OutputInv (readMatch d l s) := ⟨h.outWf, h.outAddr, h.outFilled, h.outCap, h.outLenWidth⟩
    exact h.readToken hp (hout.copyLoop d.toNat l.toNat hcap hwidth) (afterMatch_frame d l s) (by simp; omega)
      (by simp; omega)

theorem Inv.decFinal (h : Inv s) (hx : execDecFinal s = .next t) : Inv t := by
  obtain ⟨hp, -, rfl⟩ := execDecFinal_next.mp hx
  exact h.setPhase (h.errCode_iff (by simp [hp]) nofun) nofun nofun

/-- A CORE step waits, or runs the enabled operation to its end. -/
theorem Inv.coreStep (h : Inv s) (hx : coreStep s = .next t) : Inv t := by
  obtain ⟨-, rfl⟩ | ⟨i, u, hen, hu, rfl⟩ := coreStep_next.mp hx
  · exact h
  · refine Inv.endStep ?_
    obtain ⟨-, rfl⟩ | ⟨-, -, rfl⟩ | ⟨-, -, rfl⟩ | ⟨-, rfl⟩ | ⟨-, -, rfl⟩ | ⟨-, -, rfl⟩ := enabledOp_cases hen
    · exact h.encInit hu
    · exact h.encStep hu
    · exact h.encFinal hu
    · exact h.decInit hu
    · exact h.decStep hu
    · exact h.decFinal hu

end Inv

/-- Settles O12: CORE's steps by `Inv.coreStep`, HOST's moves one by one. -/
theorem stepKeepsInv : Obligations.StepKeepsInv := by
  intro s t h hstep
  cases hhost : s.host with
  | nil => exact h.coreStep (step_nil hhost ▸ hstep)
  | cons m hs =>
    have hrest := h.setHost hs s.hostData
    cases m with
    | writeCmd w => exact hrest.command (step_writeCmd hhost ▸ hstep)
    | writeStatus v =>
      cases (step_writeStatus hhost).symm.trans hstep
      exact hrest
    | writeInLen n => exact hrest.writeInLen (step_writeInLen hhost ▸ hstep)
    | writeOutLen v =>
      cases (step_writeOutLen hhost).symm.trans hstep
      exact hrest
    | writeIn a b => exact hrest.writeIn (step_writeIn hhost ▸ hstep)
    | readCmd =>
      cases (step_readCmd hhost).symm.trans hstep
      exact h.setHost hs _
    | readStatus =>
      cases (step_readStatus hhost).symm.trans hstep
      exact h.setHost hs _
    | readInLen =>
      obtain ⟨-, hread⟩ := whileIdle_next.mp ((step_readInLen hhost).symm.trans hstep)
      cases hread
      exact h.setHost hs _
    | readOutLen =>
      obtain ⟨-, hread⟩ := whileIdle_next.mp ((step_readOutLen hhost).symm.trans hstep)
      cases hread
      exact h.setHost hs _
    | readOut a =>
      obtain ⟨-, -, rfl⟩ := hostReadOut_next.mp ((step_readOut hhost).symm.trans hstep)
      exact h.setHost hs _
    | poll =>
      rw [step_poll hhost] at hstep
      split at hstep
      · exact h.coreStep hstep
      · cases hstep
        exact h.setHost hs _
    | coreTurn => exact hrest.coreStep (step_coreTurn hhost ▸ hstep)
    | reset => exact inv_hostReset (step_reset hhost ▸ hstep)

end Sys2Proof.Machine
end

section
/-! PROOFS, layer 3. What no instruction writes (O49), the transition table (O7) and the cursors (O50). -/

namespace Sys2Proof.Machine

/-! ### What no instruction writes -/

/-- `t` has the input, the parameters, HOST's side and the model's counters of `s`. -/
def InputKept (s t : State) : Prop :=
  t.inMem = s.inMem ∧ t.inLen = s.inLen ∧ t.cfg = s.cfg ∧ t.host = s.host ∧ t.hostData = s.hostData ∧
    t.epoch = s.epoch ∧ t.fresh = s.fresh

section InputKept
variable {s t : State}

theorem inputKept_refl (s : State) : InputKept s s := ⟨rfl, rfl, rfl, rfl, rfl, rfl, rfl⟩

theorem inputKept_pushBits (s : State) (bs : List Bool) : InputKept s (pushBits s bs) := by simp [InputKept]

theorem inputKept_of_appendBits {bs : List Bool} (h : appendBits s bs = .next t) : InputKept s t := by
  obtain ⟨-, rfl⟩ := appendBits_next.mp h
  exact inputKept_pushBits s bs

theorem inputKept_of_acceptCommand {p : Phase} (h : acceptCommand p s = .next t) : InputKept s t := by
  rcases acceptCommand_cases p s with ⟨-, hc⟩ | ⟨-, hc⟩ <;> cases hc.symm.trans h
  all_goals exact inputKept_refl s

theorem inputKept_of_execPad (h : execPad s = .next t) : InputKept s t := by
  unfold execPad at h
  split at h
  · split at h <;> cases h
    exact inputKept_refl s
  all_goals exact inputKept_of_appendBits h

theorem inputKept_of_execLit {b : Byte} (h : execLit b s = .next t) : InputKept s t := by
  obtain ⟨-, -, -, rfl⟩ := execLit_next.mp h
  exact inputKept_refl s

theorem inputKept_afterMatch (d : Distance) (l : MatchLen) (s : State) : InputKept s (afterMatch d l s) := by
  rw [afterMatch_frame]
  exact inputKept_refl s

theorem inputKept_of_execMatchTok {d : Distance} {l : MatchLen} (h : execMatchTok d l s = .next t) : InputKept s t := by
  obtain ⟨-, ⟨-, rfl⟩ | ⟨-, -, rfl⟩ | ⟨-, -, -, rfl⟩⟩ := execMatchTok_next.mp h
  · exact inputKept_refl s
  · exact inputKept_refl s
  · exact inputKept_afterMatch d l s

theorem inputKept_of_execDecStep (h : execDecStep s = .next t) : InputKept s t := by
  obtain ⟨-, ⟨f, rfl⟩ | ⟨b, -, -, rfl⟩ | ⟨d, l, -, -, rfl⟩⟩ := execDecStep_cases h
  · exact inputKept_refl s
  · exact inputKept_refl s
  · exact inputKept_afterMatch d l s

theorem inputKept_of_execDecInit (h : execDecInit s = .next t) : InputKept s t := by
  obtain ⟨-, ⟨-, rfl⟩ | ⟨-, rfl⟩⟩ := execDecInit_next.mp h <;> exact inputKept_refl s

theorem inputKept_of_execEncStep (h : execEncStep s = .next t) : InputKept s t := by
  obtain ⟨-, -, loc, bs, l, -, -, -, -, -, rfl⟩ := execEncStep_cases h
  simp [InputKept]

theorem inputKept_of_execBsPushf {x : List Byte} {n : Nat} (h : execBsPushf x n s = .next t) : InputKept s t := by
  unfold execBsPushf at h
  split at h
  · exact inputKept_of_appendBits h
  · cases h

theorem inputKept_of_execMfWrap {x : List Byte} {n : Nat} (h : execMfWrap x n s = .next t) : InputKept s t := by
  unfold execMfWrap at h
  split at h <;> cases h
  exact inputKept_refl s

theorem inputKept_of_execEncEmitLit {b : Byte} (h : execEncEmitLit b s = .next t) : InputKept s t := by
  obtain ⟨-, rfl⟩ := unlessRefused_next.mp h
  exact inputKept_pushBits s _

theorem inputKept_of_execEncEmitMatch {d : Distance} {l : MatchLen} (h : execEncEmitMatch d l s = .next t) :
    InputKept s t := by
  unfold execEncEmitMatch at h
  split at h
  · obtain ⟨-, rfl⟩ := unlessRefused_next.mp h
    simp [InputKept, emitMatch]
  · cases h

theorem inputKept_of_execEncFinal (h : execEncFinal s = .next t) : InputKept s t := by
  obtain ⟨-, -, -, rfl⟩ := execEncFinal_next.mp h
  exact inputKept_pushBits s _

/-- An operation that answers one state under a guard. -/
theorem inputKept_of_guard {c : Prop} [Decidable c] {u : State} {q : Refusal}
    (h : (if c then .next u else .refused q : Result) = .next t) (hu : InputKept s u) : InputKept s t := by
  split at h <;> cases h
  exact hu

end InputKept

/-- Settles O49, instruction by instruction. -/
theorem noInstructionWritesTheInput : Obligations.NoInstructionWritesTheInput := by
  intro i s t h
  change InputKept s t
  cases i with
  | lit b => exact inputKept_of_execLit h
  | matchTok d l => exact inputKept_of_execMatchTok h
  | pad => exact inputKept_of_execPad h
  | compress => exact inputKept_of_acceptCommand h
  | decompress => exact inputKept_of_acceptCommand h
  | cmdNop0 | cmdRsvd3 | bsNew | bsLoad | bsRemain =>
    cases h
    exact inputKept_refl s
  | bsPush1 b => exact inputKept_of_appendBits h
  | bsPushf x n => exact inputKept_of_execBsPushf h
  | bsPad => exact inputKept_of_appendBits h
  | bsTobytes => exact inputKept_of_guard h (inputKept_refl s)
  | bsPop n => exact inputKept_of_guard h (inputKept_refl s)
  | bsPeek n => exact inputKept_of_guard h (inputKept_refl s)
  | mfWrap x n => exact inputKept_of_execMfWrap h
  | mfFind data p => exact inputKept_of_guard h (inputKept_refl s)
  | encInit =>
    obtain ⟨-, rfl⟩ := execEncInit_next.mp h
    exact inputKept_refl s
  | encStep => exact inputKept_of_execEncStep h
  | encEmitLit b => exact inputKept_of_execEncEmitLit h
  | encEmitMatch d l => exact inputKept_of_execEncEmitMatch h
  | encFinal => exact inputKept_of_execEncFinal h
  | decInit => exact inputKept_of_execDecInit h
  | decStep => exact inputKept_of_execDecStep h
  | decFinal =>
    obtain ⟨-, -, rfl⟩ := execDecFinal_next.mp h
    exact inputKept_refl s

/-! ### The transition table (10_state.md R24) -/

section coreStep
variable {s : State}

theorem coreStep_of_idle (h : s.phase = .idle ∨ s.phase = .done ∨ s.phase = .fault) : coreStep s = .next s := by
  rcases h with h | h | h <;> simp [coreStep, enabledOp, h]

theorem coreStep_of_encInit (h : s.phase = .encInit) : coreStep s = finishStep (exec .encInit s) := by
  simp [coreStep, enabledOp, h]

theorem coreStep_of_encRun_lt (h : s.phase = .encRun) (hi : s.i < s.inLen) :
    coreStep s = finishStep (exec .encStep s) := by
  simp [coreStep, enabledOp, h, hi]

theorem coreStep_of_encRun_eq (h : s.phase = .encRun) (hi : s.i = s.inLen) :
    coreStep s = finishStep (exec .encFinal s) := by
  simp [coreStep, enabledOp, h, hi]

theorem coreStep_of_decInit (h : s.phase = .decInit) : coreStep s = finishStep (exec .decInit s) := by
  simp [coreStep, enabledOp, h]

theorem coreStep_of_decRun_le (h : s.phase = .decRun) (h9 : 9 ≤ s.remain) :
    coreStep s = finishStep (exec .decStep s) := by
  simp [coreStep, enabledOp, h, h9]

theorem coreStep_of_decRun_lt (h : s.phase = .decRun) (h9 : s.remain < 9) :
    coreStep s = finishStep (exec .decFinal s) := by
  simp [coreStep, enabledOp, h, Nat.not_le.mpr h9]

end coreStep

section phase
variable {s t : State}

theorem phase_of_execEncInit (h : execEncInit s = .next t) : t.phase = .encRun := by
  obtain ⟨-, rfl⟩ := execEncInit_next.mp h
  rfl

theorem phase_of_execEncStep (h : execEncStep s = .next t) : t.phase = .encRun := by
  obtain ⟨hp, -, loc, bs, l, -, -, -, -, -, rfl⟩ := execEncStep_cases h
  simpa using hp

theorem phase_of_execEncFinal (h : execEncFinal s = .next t) : t.phase = .done := by
  obtain ⟨-, -, -, rfl⟩ := execEncFinal_next.mp h
  rfl

theorem phase_of_execDecInit (h : execDecInit s = .next t) : t.phase = .decRun ∨ t.phase = .fault := by
  obtain ⟨-, ⟨-, rfl⟩ | ⟨-, rfl⟩⟩ := execDecInit_next.mp h
  · exact .inr rfl
  · exact .inl rfl

theorem phase_of_execDecStep (h : execDecStep s = .next t) : t.phase = .decRun ∨ t.phase = .fault := by
  obtain ⟨hp, ⟨f, rfl⟩ | ⟨b, -, -, rfl⟩ | ⟨d, l, -, -, rfl⟩⟩ := execDecStep_cases h
  · exact .inr rfl
  · exact .inl hp
  · exact .inl ((afterMatch_phase d l s).trans hp)

theorem phase_of_execDecFinal (h : execDecFinal s = .next t) : t.phase = .done := by
  obtain ⟨-, -, rfl⟩ := execDecFinal_next.mp h
  rfl

/-- The end of a step keeps the PHASE the operation left. -/
theorem phase_of_finishStep {r : Result} {P : Phase → Prop} (h : finishStep r = .next t)
    (hr : ∀ u, r = .next u → P u.phase) : P t.phase := by
  obtain ⟨u, hu, rfl⟩ := finishStep_next.mp h
  exact hr u hu

end phase

/-- Settles O7: the rows of R24 by the lemmas on `coreStep`, what follows each by the operation it runs. -/
theorem stepFollowsThePhaseTable : Obligations.StepFollowsThePhaseTable := by
  refine ⟨fun s hhost => ?_, fun s t w hs hhost _ hstep => ?_, rfl⟩
  · rw [step_nil hhost]
    refine ⟨coreStep_of_idle, coreStep_of_encInit, coreStep_of_encRun_lt, coreStep_of_encRun_eq, coreStep_of_decInit,
      coreStep_of_decRun_le, coreStep_of_decRun_lt, fun t hstep => ⟨fun hp => ?_, fun hp hi => ?_, fun hp hi => ?_,
      fun hp => ?_, fun hp h9 => ?_, fun hp h9 => ?_⟩⟩
    · rw [coreStep_of_encInit hp] at hstep
      exact phase_of_finishStep (P := (· = .encRun)) hstep fun _ => phase_of_execEncInit
    · rw [coreStep_of_encRun_lt hp hi] at hstep
      exact phase_of_finishStep (P := (· = .encRun)) hstep fun _ => phase_of_execEncStep
    · rw [coreStep_of_encRun_eq hp hi] at hstep
      exact phase_of_finishStep (P := (· = .done)) hstep fun _ => phase_of_execEncFinal
    · rw [coreStep_of_decInit hp] at hstep
      exact phase_of_finishStep (P := fun p => p = .decRun ∨ p = .fault) hstep fun _ => phase_of_execDecInit
    · rw [coreStep_of_decRun_le hp h9] at hstep
      exact phase_of_finishStep (P := fun p => p = .decRun ∨ p = .fault) hstep fun _ => phase_of_execDecStep
    · rw [coreStep_of_decRun_lt hp h9] at hstep
      exact phase_of_finishStep (P := (· = .done)) hstep fun _ => phase_of_execDecFinal
  · rw [step_writeCmd hhost] at hstep
    rcases exec_decodeCmd_next hstep with rfl | ⟨p, hp, rfl⟩
    · exact .inl rfl
    · exact .inr hp

/-! ### The cursors -/

/-- Settles O50: a token moves its cursor by its own size, and the stream grows by at most 9 bits a byte covered. -/
theorem cursorsAdvanceWithinBounds : Obligations.CursorsAdvanceWithinBounds := by
  intro s t hhost hstep
  rw [step_nil hhost] at hstep
  refine ⟨fun hp hp' => ?_, fun hp hi => ?_⟩
  · rcases Nat.lt_or_ge s.remain 9 with h9 | h9
    · rw [coreStep_of_decRun_lt hp h9] at hstep
      have hdone := phase_of_finishStep (P := (· = .done)) hstep fun _ => phase_of_execDecFinal
      simp [hdone] at hp'
    · rw [coreStep_of_decRun_le hp h9] at hstep
      obtain ⟨u, hu, rfl⟩ := finishStep_next.mp hstep
      rw [endStep_phase] at hp'
      rw [endStep_rp_of_decRun u hp']
      obtain ⟨-, ⟨f, rfl⟩ | ⟨b, -, -, rfl⟩ | ⟨d, l, h17, -, rfl⟩⟩ := execDecStep_cases hu
      · simp at hp'
      · rw [State.remain] at h9
        exact ⟨.inl rfl, by rw [afterLit_rp]; omega⟩
      · rw [State.remain] at h17
        exact ⟨.inr (afterMatch_rp d l s), by rw [afterMatch_rp]; omega⟩
  · rw [coreStep_of_encRun_lt hp hi] at hstep
    obtain ⟨u, hu, rfl⟩ := finishStep_next.mp hstep
    have hu' := phase_of_execEncStep hu
    rw [endStep_i_of_encRun u hu', endStep_nb_of_encRun u hu']
    obtain ⟨-, -, loc, bs, l, -, hbs, hl, hbits, hend, rfl⟩ := execEncStep_cases hu
    simp only [pushBits_nb]
    omega

end Sys2Proof.Machine
end

section
/-! PROOFS, layer 4. No CORE step reads a register that holds no value (O54). -/

namespace Sys2Proof.Machine

/-! ### Agreement in every register that holds a value (10_state.md R25, R26, R28 to R30) -/

/-- `t` is `s` but for the step-local registers, I and NB outside ENC_RUN, RP outside DEC_RUN and FAULT, and what the
last unit operation returned. -/
structure Agree (s t : State) : Prop where
  phase : t.phase = s.phase
  errCode : t.errCode = s.errCode
  inLen : t.inLen = s.inLen
  outLen : t.outLen = s.outLen
  inMem : t.inMem = s.inMem
  outMem : t.outMem = s.outMem
  cfg : t.cfg = s.cfg
  host : t.host = s.host
  hostData : t.hostData = s.hostData
  epoch : t.epoch = s.epoch
  fresh : t.fresh = s.fresh
  cursors : s.phase = .encRun → t.i = s.i ∧ t.nb = s.nb
  readCursor : s.phase = .decRun ∨ s.phase = .fault → t.rp = s.rp

theorem agree_refl (s : State) : Agree s s :=
  ⟨rfl, rfl, rfl, rfl, rfl, rfl, rfl, rfl, rfl, rfl, rfl, fun _ => ⟨rfl, rfl⟩, fun _ => rfl⟩

theorem keepsEncoderCursors_iff {p : Phase} : keepsEncoderCursors p = true ↔ p = .encRun := by
  cases p <;> decide

theorem keepsReadCursor_iff {p : Phase} : keepsReadCursor p = true ↔ p = .decRun ∨ p = .fault := by
  cases p <;> decide

namespace Agree
variable {s t : State}

/-- The end of a step replaces all that states in agreement differ in. -/
theorem endStep_eq (h : Agree s t) : endStep t = endStep s := by
  have hi : (endStep t).i = (endStep s).i := by
    simp only [endStep, h.phase, h.cfg, h.fresh, keepsEncoderCursors_iff]
    split
    · exact (h.cursors ‹_›).1
    · rfl
  have hnb : (endStep t).nb = (endStep s).nb := by
    simp only [endStep, h.phase, h.cfg, h.fresh, keepsEncoderCursors_iff]
    split
    · exact (h.cursors ‹_›).2
    · rfl
  have hrp : (endStep t).rp = (endStep s).rp := by
    simp only [endStep, h.phase, h.cfg, h.fresh, keepsReadCursor_iff]
    split
    · exact h.readCursor ‹_›
    · rfl
  simp only [endStep] at hi hnb hrp ⊢
  simp only [h.errCode, h.inLen, h.outLen, h.inMem, h.outMem, h.host, h.hostData, h.epoch, hi, hnb, hrp]
  simp only [h.phase, h.cfg, h.fresh]

theorem finishStep_eq (h : Agree s t) (why : Option Refusal) :
    finishStep (unlessRefused why t) = finishStep (unlessRefused why s) := by
  cases why with
  | none => exact congrArg Host.Outcome.next h.endStep_eq
  | some r => rfl

theorem setLoc (h : Agree s t) (l l' : Locals) : Agree { s with loc := l } { t with loc := l' } := { h with }

theorem inByte_eq (h : Agree s t) : t.inByte = s.inByte := inByte_congr h.inMem h.epoch

theorem outByte_eq (h : Agree s t) : t.outByte = s.outByte := outByte_congr h.outMem h.epoch

theorem inputBytes_eq (h : Agree s t) : t.inputBytes = s.inputBytes := by
  rw [State.inputBytes, h.inByte_eq, h.inLen, State.inputBytes]

theorem remain_eq (h : Agree s t) (hp : s.phase = .decRun) : t.remain = s.remain := by
  rw [State.remain, h.inLen, h.readCursor (.inl hp), State.remain]

theorem fetched_eq (h : Agree s t) (hp : s.phase = .decRun) : t.fetched = s.fetched := by
  simp only [State.fetched, State.fetchBits, State.inBit, h.remain_eq hp, h.inByte_eq, h.readCursor (.inl hp)]

theorem bitRoom_eq (h : Agree s t) (hp : s.phase = .encRun) (n : Nat) : bitRoom t n = bitRoom s n := by
  simp only [bitRoom, h.cfg, (h.cursors hp).2]

theorem outRoom_eq (h : Agree s t) (n : Nat) : outRoom t n = outRoom s n := by
  simp only [outRoom, h.cfg, h.outLen]

/-! ### The shared operations keep agreement -/

theorem pushBit (h : Agree s t) (hp : s.phase = .encRun) (b : Bool) : Agree (pushBit s b) (pushBit t b) := by
  obtain ⟨hi, hnb⟩ := h.cursors hp
  exact
    { h with
      outMem := by simp only [Machine.pushBit, h.outMem, hnb, h.outByte_eq]
      cursors := fun _ => ⟨hi, congrArg (· + 1) hnb⟩ }

theorem pushBits (h : Agree s t) (hp : s.phase = .encRun) (bs : List Bool) : Agree (pushBits s bs) (pushBits t bs) := by
  induction bs generalizing s t with
  | nil => exact h
  | cons b bs ih => exact ih (h.pushBit hp b) hp

theorem appendOut (h : Agree s t) (b : Byte) : Agree (appendOut s b) (appendOut t b) :=
  { h with
    outLen := congrArg (· + 1) h.outLen
    outMem := by simp only [appendOut_outMem, h.outMem, h.outLen] }

theorem copyLoop (h : Agree s t) (d n : Nat) : Agree (copyLoop d n s) (copyLoop d n t) := by
  induction n with
  | zero => exact h
  | succ n ih =>
    simp only [Machine.copyLoop, ih.outByte_eq, ih.outLen]
    exact (ih.appendOut _).setLoc _ _

/-! ### The CORE operations, run from states in agreement -/

theorem encInit (h : Agree s t) : finishStep (execEncInit t) = finishStep (execEncInit s) := by
  have hnext : Agree { s with i := 0, nb := 0, outLen := 0, phase := .encRun }
      { t with i := 0, nb := 0, outLen := 0, phase := .encRun } :=
    { h with phase := rfl, outLen := rfl, cursors := fun _ => ⟨rfl, rfl⟩, readCursor := nofun }
  unfold execEncInit
  rw [h.phase]
  split
  · exact hnext.finishStep_eq none
  all_goals rfl

theorem pushToken (h : Agree s t) (hp : s.phase = .encRun) (l l' : Locals) (bs : List Bool) (n : Nat) :
    Agree { Machine.pushBits { s with loc := l } bs with i := s.i + n }
      { Machine.pushBits { t with loc := l' } bs with i := t.i + n } :=
  have hpush := (h.setLoc l l').pushBits hp bs
  { hpush with
    cursors := fun _ => ⟨congrArg (· + n) (h.cursors hp).1, (hpush.cursors (by simpa using hp)).2⟩ }

theorem encodeMatch (h : Agree s t) (hp : s.phase = .encRun) (d : Distance) (l : MatchLen) :
    finishStep (encodeMatch d l t) = finishStep (encodeMatch d l s) := by
  unfold Machine.encodeMatch emitMatch
  rw [h.bitRoom_eq hp]
  exact (h.pushToken hp _ _ (matchTokenOf d l) l.toNat).finishStep_eq _

theorem encodeLit (h : Agree s t) (hp : s.phase = .encRun) :
    finishStep (encodeLit t) = finishStep (encodeLit s) := by
  have hbyte : t.inByte t.i = s.inByte s.i := by rw [h.inByte_eq, (h.cursors hp).1]
  unfold Machine.encodeLit emitLit
  rw [h.bitRoom_eq hp, hbyte]
  exact (h.pushToken hp _ _ (litTokenOf (s.inByte s.i)) 1).finishStep_eq _

theorem encStep (h : Agree s t) : finishStep (execEncStep t) = finishStep (execEncStep s) := by
  unfold execEncStep
  rw [h.phase]
  split
  · rename_i hp
    rw [h.inputBytes_eq, h.inLen, (h.cursors hp).1]
    split
    · split
      · exact h.encodeMatch hp _ _
      · exact h.encodeLit hp
    · rfl
  all_goals rfl

theorem encFinal (h : Agree s t) : finishStep (execEncFinal t) = finishStep (execEncFinal s) := by
  unfold execEncFinal
  rw [h.phase]
  split
  · rename_i hp
    obtain ⟨hi, hnb⟩ := h.cursors hp
    rw [hi, hnb, h.inLen, h.bitRoom_eq hp]
    split
    · have hpush := h.pushBits hp (List.replicate (padCount s.nb) false)
      refine Agree.finishStep_eq ?_ _
      exact
        { hpush with
          phase := rfl
          outLen := congrArg (· / 8) (hpush.cursors (by simpa using hp)).2
          cursors := nofun
          readCursor := nofun }
    · rfl
  all_goals rfl

/-- DEC.INIT overwrites RP, or carries it into FAULT. -/
theorem decInit (h : Agree s t) (hrp : s.phase = .decInit → s.inLen = 0 → t.rp = s.rp) :
    finishStep (execDecInit t) = finishStep (execDecInit s) := by
  unfold execDecInit
  rw [h.phase]
  split
  · rename_i hp
    by_cases hlen : s.inLen = 0
    · rw [if_pos hlen, if_pos (h.inLen.trans hlen)]
      have hfault : Agree { s with errCode := faultCode .emptyInput, phase := .fault }
          { t with errCode := faultCode .emptyInput, phase := .fault } :=
        { h with phase := rfl, errCode := rfl, cursors := nofun, readCursor := fun _ => hrp hp hlen }
      exact hfault.finishStep_eq none
    · rw [if_neg hlen, if_neg (h.inLen.trans_ne hlen)]
      have hrun : Agree { s with rp := 0, outLen := 0, phase := .decRun }
          { t with rp := 0, outLen := 0, phase := .decRun } :=
        { h with phase := rfl, outLen := rfl, cursors := nofun, readCursor := fun _ => rfl }
      exact hrun.finishStep_eq none
  all_goals rfl

theorem fault (h : Agree s t) (hp : s.phase = .decRun) (f : Fault) :
    finishStep (raise f t) = finishStep (raise f s) :=
  have hfault : Agree { s with errCode := faultCode f, phase := .fault }
      { t with errCode := faultCode f, phase := .fault } :=
    { h with phase := rfl, errCode := rfl, cursors := nofun, readCursor := fun _ => h.readCursor (.inl hp) }
  hfault.finishStep_eq none

/-- RP moved on by one token in DEC_RUN. -/
theorem advance (h : Agree s t) (hp : s.phase = .decRun) (n : Nat) (l l' : Locals) :
    Agree { s with rp := s.rp + n, loc := l } { t with rp := t.rp + n, loc := l' } :=
  { h with readCursor := fun _ => congrArg (· + n) (h.readCursor (.inl hp)) }

theorem lit (h : Agree s t) (b : Byte) : finishStep (execLit b t) = finishStep (execLit b s) := by
  by_cases hp : s.phase = .decRun
  · rw [execLit_of_decRun hp, execLit_of_decRun (h.phase.trans hp), h.remain_eq hp, h.outRoom_eq]
    split
    · exact ((h.advance hp 9 _ _).appendOut b).finishStep_eq _
    · rfl
  · rw [execLit_of_ne hp, execLit_of_ne (h.phase.trans_ne hp)]

theorem matchTok (h : Agree s t) (d : Distance) (l : MatchLen) :
    finishStep (execMatchTok d l t) = finishStep (execMatchTok d l s) := by
  have hbad : badMatch d l t = badMatch d l s := by simp only [badMatch, h.outLen, h.cfg]
  unfold execMatchTok
  rw [h.phase]
  split
  · rename_i hp
    rw [h.remain_eq hp, h.outRoom_eq, hbad]
    split
    · exact h.fault hp .truncated
    · split
      · exact h.fault hp .distance
      · exact ((h.advance hp 17 _ _).copyLoop d.toNat l.toNat).finishStep_eq _
  all_goals rfl

theorem decStep (h : Agree s t) : finishStep (execDecStep t) = finishStep (execDecStep s) := by
  unfold execDecStep
  rw [h.phase]
  split
  · rename_i hp
    rw [h.fetched_eq hp]
    split
    · exact h.lit _
    · exact h.matchTok _ _
    · rfl
    · exact h.fault hp .truncated
    · rfl
  all_goals rfl

theorem decFinal (h : Agree s t) : finishStep (execDecFinal t) = finishStep (execDecFinal s) := by
  unfold execDecFinal
  rw [h.phase]
  split
  · rename_i hp
    rw [h.remain_eq hp]
    split
    · have hdone : Agree { s with phase := .done } { t with phase := .done } :=
        { h with phase := rfl, cursors := nofun, readCursor := nofun }
      exact hdone.finishStep_eq none
    · rfl
  all_goals rfl

theorem enabledOp_eq (h : Agree s t) : enabledOp t = enabledOp s := by
  unfold enabledOp
  rw [h.phase]
  split
  · rfl
  · rfl
  · rename_i hp
    rw [(h.cursors hp).1, h.inLen]
  · rfl
  · rename_i hp
    rw [h.remain_eq hp]
  · rfl
  · rfl

/-- An enabled CORE step does not see what states in agreement differ in. -/
theorem coreStep_eq (h : Agree s t) {op : Instr} (hen : enabledOp s = some op)
    (hrp : s.phase = .decInit → s.inLen = 0 → t.rp = s.rp) : coreStep t = coreStep s := by
  unfold coreStep
  rw [h.enabledOp_eq, hen]
  obtain ⟨-, rfl⟩ | ⟨-, -, rfl⟩ | ⟨-, -, rfl⟩ | ⟨-, rfl⟩ | ⟨-, -, rfl⟩ | ⟨-, -, rfl⟩ := enabledOp_cases hen
  · exact h.encInit
  · exact h.encStep
  · exact h.encFinal
  · exact h.decInit hrp
  · exact h.decStep
  · exact h.decFinal

end Agree

/-- The step that raises EmptyInput carries RP into FAULT. -/
theorem coreStep_emptyInput {s : State} (hp : s.phase = .decInit) (hlen : s.inLen = 0) (rp : Nat) :
    coreStep { s with rp := rp } =
      .next { endStep { s with errCode := faultCode .emptyInput, phase := .fault } with rp := rp } := by
  rw [coreStep_of_decInit (by exact hp)]
  simp [exec, execDecInit, hp, hlen, raise, finishStep, endStep, keepsEncoderCursors, keepsReadCursor]

/-- Settles O54: the CORE step is the same from states in agreement, but for the RP of EmptyInput. -/
theorem valuelessRegistersAreNotRead : Obligations.ValuelessRegistersAreNotRead := by
  intro s op hhost hen
  refine ⟨fun l => ?_, fun i nb hp => ?_, fun rp hp => ?_, fun rp hp hlen => ?_⟩
  · have hagree : Agree s { s with loc := l } := (agree_refl s).setLoc s.loc l
    rw [step_nil hhost, step_nil (by exact hhost)]
    exact hagree.coreStep_eq hen fun _ _ => rfl
  · have hagree : Agree s { s with i := i, nb := nb } := { agree_refl s with cursors := fun hrun => absurd hrun hp }
    rw [step_nil hhost, step_nil (by exact hhost)]
    exact hagree.coreStep_eq hen fun _ _ => rfl
  · have hagree : Agree s { s with rp := rp } :=
      { agree_refl s with readCursor := fun hread => by rcases hp with hp | hp | ⟨hp, -⟩ <;> simp [hp] at hread }
    rw [step_nil hhost, step_nil (by exact hhost)]
    exact hagree.coreStep_eq hen fun hinit hlen => by rcases hp with hp | hp | ⟨-, hne⟩ <;> simp_all
  · rw [step_nil hhost, step_nil (by exact hhost)]
    exact ⟨_, coreStep_emptyInput hp hlen s.rp, coreStep_emptyInput hp hlen rp⟩

end Sys2Proof.Machine
end

section
/-! PROOFS, layer 5. STATUS (O13), HOST's accesses while BUSY = 0 (O45) and the refusals (O56). -/

namespace Sys2Proof.Machine

/-! ### STATUS (10_state.md R23) -/

section status
variable (s : State)

/-- BUSY, DONE and ERR are the low three bits. -/
theorem status_low_bits :
    s.status.setWidth 3 = BitVec.ofBool s.err ++ (BitVec.ofBool s.done ++ BitVec.ofBool s.busy) :=
  BitVec.setWidth_append_eq_right

theorem status_code_bits : s.status.extractLsb' 3 2 = if s.phase = .fault then s.errCode else 0 := by
  have herr : s.err = true ↔ s.phase = .fault := by simp [State.err]
  simp only [← herr]
  exact BitVec.extractLsb'_append_eq_left

theorem ofBool_append_getLsbD (e d b : Bool) :
    (BitVec.ofBool e ++ (BitVec.ofBool d ++ BitVec.ofBool b)).getLsbD 0 = b ∧
      (BitVec.ofBool e ++ (BitVec.ofBool d ++ BitVec.ofBool b)).getLsbD 1 = d ∧
      (BitVec.ofBool e ++ (BitVec.ofBool d ++ BitVec.ofBool b)).getLsbD 2 = e := by
  revert e d b
  decide

theorem status_getLsbD :
    s.status.getLsbD 0 = s.busy ∧ s.status.getLsbD 1 = s.done ∧ s.status.getLsbD 2 = s.err := by
  have hbits := ofBool_append_getLsbD s.err s.done s.busy
  rw [← status_low_bits] at hbits
  simpa [BitVec.getLsbD_setWidth] using hbits

/-- At most one of BUSY, DONE and ERR. -/
theorem status_mod_eight : s.status.toNat % 8 ∈ [0, 1, 2, 4] := by
  have hlow : s.status.toNat % 8 = (BitVec.ofBool s.err ++ (BitVec.ofBool s.done ++ BitVec.ofBool s.busy)).toNat := by
    rw [← status_low_bits, BitVec.toNat_setWidth]
  rw [hlow]
  cases hp : s.phase <;> simp [State.err, State.done, State.busy, hp]

end status

/-- Settles O13: BUSY, DONE and ERR are the low three bits of STATUS, ERR_CODE is above them. -/
theorem statusIsAViewOfPhase : Obligations.StatusIsAViewOfPhase := by
  refine ⟨fun s => ?_, fun _ _ _ => step_writeStatus, fun _ _ => step_readStatus, by decide⟩
  obtain ⟨hbusy, hdone, herr⟩ := status_getLsbD s
  refine ⟨?_, ?_, ?_, status_code_bits s, status_mod_eight s⟩
  · rw [hbusy, busy_iff]
  · rw [hdone, State.done, decide_eq_true_iff]
  · rw [herr, State.err, decide_eq_true_iff]

/-! ### HOST's accesses while BUSY = 0 -/

/-- Settles O45, access by access. -/
theorem hostAccessesWhileIdle : Obligations.HostAccessesWhileIdle := by
  intro s hs hidle
  refine ⟨fun a b hhost ha => ?_, fun n hhost hcap hwidth => ?_, fun _ => step_writeOutLen, step_readCmd,
    fun hhost => ?_, fun hhost => ?_, fun a hhost ha => ⟨fun hdone hlt => ?_, fun hfree => ?_⟩⟩
  · refine ⟨{ s with host := hs, inMem := s.inMem.set a b }, ?_, ?_, fun x hx => Memory.get_set_other _ _ hx, rfl⟩
    · rw [step_writeIn hhost]
      exact hostWriteIn_next.mpr ⟨hidle, ha, rfl⟩
    · simp [State.inByte]
  · rw [step_writeInLen hhost]
    exact hostWriteInLen_next.mpr ⟨hidle, hcap, hwidth, rfl⟩
  · rw [step_readInLen hhost, whileIdle_of_idle hidle]
  · rw [step_readOutLen hhost, whileIdle_of_idle hidle]
  · rw [step_readOut hhost]
    exact hostReadOut_next.mpr ⟨hidle, ha, by rw [if_pos ⟨hdone, hlt⟩]; rfl⟩
  · have hnot : ¬(s.phase = .done ∧ a < s.outLen) := fun ⟨hdone, hlt⟩ =>
      hfree.elim (· hdone) (Nat.not_le.mpr hlt)
    rw [step_readOut hhost]
    exact hostReadOut_next.mpr ⟨hidle, ha, by rw [if_neg hnot]⟩

/-! ### Refusals outside an operation's domain -/

section refusals
variable {s : State}

theorem execEncInit_of_ne (hp : s.phase ≠ .encInit) : execEncInit s = .refused .notEnabled := by
  cases hs : s.phase <;> simp_all [execEncInit]

theorem execDecInit_of_ne (hp : s.phase ≠ .decInit) : execDecInit s = .refused .notEnabled := by
  cases hs : s.phase <;> simp_all [execDecInit]

theorem execEncStep_of_not_enabled (h : s.phase ≠ .encRun ∨ s.inLen ≤ s.i) :
    execEncStep s = .refused .notEnabled := by
  unfold execEncStep
  split
  · rename_i hp
    rw [if_neg (Nat.not_lt.mpr (h.resolve_left (not_not_intro hp)))]
  all_goals rfl

theorem execEncFinal_of_not_enabled (h : s.phase ≠ .encRun ∨ s.i ≠ s.inLen) :
    execEncFinal s = .refused .notEnabled := by
  unfold execEncFinal
  split
  · rename_i hp
    rw [if_neg (h.resolve_left (not_not_intro hp))]
  all_goals rfl

/-- With fewer than 9 bits left the Decoder finds padding. -/
theorem fetched_of_remain_lt (h9 : s.remain < 9) : s.fetched = .padding := by
  unfold State.fetched decodeBits
  rw [if_pos]
  rw [fetchBits_length]
  omega

theorem execDecStep_of_not_enabled (h : s.phase ≠ .decRun ∨ s.remain < 9) :
    execDecStep s = .refused .notEnabled := by
  unfold execDecStep
  split
  · rename_i hp
    rw [fetched_of_remain_lt (h.resolve_left (not_not_intro hp))]
  all_goals rfl

theorem execDecFinal_of_not_enabled (h : s.phase ≠ .decRun ∨ 9 ≤ s.remain) :
    execDecFinal s = .refused .notEnabled := by
  unfold execDecFinal
  split
  · rename_i hp
    rw [if_neg (Nat.not_lt.mpr (h.resolve_left (not_not_intro hp)))]
  all_goals rfl

theorem execMatchTok_of_ne {d : Distance} {l : MatchLen} (hp : s.phase ≠ .decRun) :
    execMatchTok d l s = .refused .notEnabled := by
  unfold execMatchTok
  split
  · contradiction
  all_goals rfl

theorem execBsTobytes_of_not_padded (h : s.nb % 8 ≠ 0) : execBsTobytes s = .refused .streamNotPadded := if_neg h

theorem execEncEmitMatch_of_out_of_range {d : Distance} {l : MatchLen} (h : d.toNat = 0 ∨ l.toNat < 4) :
    execEncEmitMatch d l s = .refused .emitOutOfRange := if_neg (by omega)

end refusals

/-- Settles O56, by the refusal of each operation. -/
theorem operationsOutsideTheirDomainAreRefused : Obligations.OperationsOutsideTheirDomainAreRefused := by
  intro s
  refine ⟨execEncInit_of_ne, execDecInit_of_ne, execEncStep_of_not_enabled, execEncFinal_of_not_enabled,
    execDecStep_of_not_enabled, execDecFinal_of_not_enabled, execBsTobytes_of_not_padded, fun _ => execLit_of_ne,
    fun b hp h9 => ?_, fun _ _ => execMatchTok_of_ne, fun _ _ => execEncEmitMatch_of_out_of_range⟩
  rw [exec, execLit_of_decRun hp, if_neg (Nat.not_le.mpr h9)]

end Sys2Proof.Machine
end

section
/-! PROOFS, layer 6. HOST's refused accesses (O46), HOST's reads (O48), and a CORE step under any list of HOST moves
(O47). -/

namespace Sys2Proof.Machine

/-! ### When HOST's accesses are refused (93_implementation_defined.md U6, U7) -/

section duties
variable {s : State}

theorem whileIdle_of_busy (h : s.busy = true) (r : Result) : whileIdle s r = .refused .hostDuty := by
  simp [whileIdle, h]

theorem belowLimit_eq_false {limit : Option Nat} {c a : Nat} (hlimit : limit = some c) (ha : c ≤ a) :
    belowLimit limit a = false := by
  simp [belowLimit, hlimit, ha]

theorem fitsCap_eq_false {cap : Option Nat} {c n : Nat} (hcap : cap = some c) (hn : c < n) :
    fitsCap cap n = false := by
  simp [fitsCap, hcap, hn]

theorem fitsLen_eq_false {c : Config} {w n : Nat} (hwidth : c.lenW = some w) (hn : 2 ^ w ≤ n) :
    fitsLen c n = false := by
  simp [fitsLen, hwidth, hn]

theorem hostWriteIn_of_beyond {a : Nat} (b : Byte) (hidle : s.busy = false)
    (ha : belowLimit s.cfg.capIn a = false) : hostWriteIn a b s = .refused .noSuchByte := by
  rw [hostWriteIn, whileIdle_of_idle hidle, ha]
  rfl

theorem hostReadOut_of_beyond {a : Nat} (hidle : s.busy = false) (ha : belowLimit s.cfg.capOut a = false) :
    hostReadOut a s = .refused .noSuchByte := by
  rw [hostReadOut, whileIdle_of_idle hidle, if_pos ha]

theorem hostWriteInLen_of_beyond {n : Nat} (hidle : s.busy = false)
    (hn : fitsCap s.cfg.capIn n = false ∨ fitsLen s.cfg n = false) :
    hostWriteInLen n s = .refused .inLenOutOfRange := by
  rw [hostWriteInLen, whileIdle_of_idle hidle, if_neg (by rcases hn with hn | hn <;> simp [hn])]

end duties

/-- Settles O46: every guarded access is refused while BUSY = 1, and beyond its limit while BUSY = 0. -/
theorem hostDutiesAreRefused : Obligations.HostDutiesAreRefused := by
  intro s hs
  refine ⟨fun hbusy => ⟨fun a b hhost => ?_, fun n hhost => ?_, fun hhost => ?_, fun hhost => ?_, fun a hhost => ?_⟩,
    fun hidle => ⟨fun a b c hhost hcap ha => ?_, fun a c hhost hcap ha => ?_, fun n c hhost hcap hn => ?_,
      fun n w hhost hwidth hn => ?_⟩⟩
  · rw [step_writeIn hhost]
    exact whileIdle_of_busy (by exact hbusy) _
  · rw [step_writeInLen hhost]
    exact whileIdle_of_busy (by exact hbusy) _
  · rw [step_readInLen hhost, whileIdle_of_busy hbusy]
  · rw [step_readOutLen hhost, whileIdle_of_busy hbusy]
  · rw [step_readOut hhost]
    exact whileIdle_of_busy (by exact hbusy) _
  · rw [step_writeIn hhost]
    exact hostWriteIn_of_beyond b hidle (belowLimit_eq_false hcap ha)
  · rw [step_readOut hhost]
    exact hostReadOut_of_beyond hidle (belowLimit_eq_false hcap ha)
  · rw [step_writeInLen hhost]
    exact hostWriteInLen_of_beyond hidle (.inl (fitsCap_eq_false hcap hn))
  · rw [step_writeInLen hhost]
    exact hostWriteInLen_of_beyond hidle (.inr (fitsLen_eq_false hwidth hn))

/-! ### HOST's reads (20_memory.md R61, 44_host_commands.md R179) -/

/-- The value a read move returns; 0 for a move that reads nothing. -/
def readValue (m : HostMove) (s : State) : Nat :=
  match m with
  | .readStatus => s.status.toNat
  | .readInLen => s.inLen
  | .readOutLen => s.outLen
  | .readOut a =>
    if s.phase = .done ∧ a < s.outLen then (s.outByte a).toNat else (Config.unspecifiedByte s.epoch s.fresh a).toNat
  | _ => 0

/-- When a read move is made rather than refused: CMD and STATUS at any time, the others while BUSY = 0. -/
def readAllowed (m : HostMove) (s : State) : Prop :=
  match m with
  | .readInLen | .readOutLen => s.busy = false
  | .readOut a => s.busy = false ∧ belowLimit s.cfg.capOut a = true
  | _ => True

/-- The five reads. -/
def IsRead (m : HostMove) : Prop :=
  m = .readCmd ∨ m = .readStatus ∨ m = .readInLen ∨ m = .readOutLen ∨ ∃ a, m = .readOut a

section reads
variable {s t : State} {m : HostMove} {hs : List HostMove}

theorem readValue_setHost (m : HostMove) (s : State) (hs : List HostMove) (v : Nat) :
    readValue m { s with host := hs, hostData := v } = readValue m s := by
  cases m <;> rfl

theorem readAllowed_setHost (m : HostMove) (s : State) (hs : List HostMove) (v : Nat) :
    readAllowed m { s with host := hs, hostData := v } ↔ readAllowed m s := by
  cases m <;> exact Iff.rfl

/-- A read writes HOST's side only. -/
theorem step_read_next (hm : IsRead m) (hhost : s.host = m :: hs) :
    step s = .next t ↔ readAllowed m s ∧ t = { s with host := hs, hostData := readValue m s } := by
  obtain rfl | rfl | rfl | rfl | ⟨a, rfl⟩ := hm
  · simp [step_readCmd hhost, readAllowed, readValue, eq_comm (a := t)]
  · simp [step_readStatus hhost, readAllowed, readValue, eq_comm (a := t)]
  · simp [step_readInLen hhost, whileIdle_next, readAllowed, readValue, eq_comm (a := t)]
  · simp [step_readOutLen hhost, whileIdle_next, readAllowed, readValue, eq_comm (a := t)]
  · rw [step_readOut hhost, hostReadOut_next, readAllowed, and_assoc]
    rfl

/-- The same read made again, whatever HOST's side holds, returns the same. -/
theorem step_read_again (hm : IsRead m) (hallowed : readAllowed m s) (hs : List HostMove) :
    step { s with host := m :: hs, hostData := readValue m s } =
      .next { s with host := hs, hostData := readValue m s } :=
  (step_read_next hm rfl).mpr
    ⟨(readAllowed_setHost m s _ _).mpr hallowed,
      congrArg (fun v => { s with host := hs, hostData := v }) (readValue_setHost m s _ _).symm⟩

theorem phase_of_not_busy (h : s.busy = false) : s.phase = .idle ∨ s.phase = .done ∨ s.phase = .fault := by
  cases hp : s.phase <;> simp [State.busy, hp] at h ⊢

end reads

/-- Settles O48: the value read does not depend on HOST's side, which is all that a read, or a CORE that waits, writes. -/
theorem hostReadsAreIdempotent : Obligations.HostReadsAreIdempotent := by
  intro s t m hs hm
  refine ⟨fun hhost hstep => ?_, fun hhost hstep => ?_, fun hhost hidle hstep => ?_⟩
  · obtain ⟨-, rfl⟩ := (step_read_next hm hhost).mp hstep
    rfl
  · obtain ⟨hallowed, rfl⟩ := (step_read_next hm hhost).mp hstep
    exact step_read_again hm hallowed hs
  · obtain ⟨hallowed, rfl⟩ := (step_read_next hm hhost).mp hstep
    refine ⟨_, ?_, rfl, step_read_again hm hallowed hs⟩
    rw [step_coreTurn rfl]
    exact coreStep_of_idle (by exact phase_of_not_busy hidle)

/-! ### CORE does not see HOST's list (log entry 1) -/

/-- An outcome with HOST's list replaced in its next state. -/
def replaceHost (hs : List HostMove) (r : Result) : Result :=
  match r with
  | .next t => .next { t with host := hs }
  | .fault f => .fault f
  | .refused q => .refused q

section replaceHost
variable (s : State) (hs : List HostMove)

theorem finishStep_replaceHost (r : Result) : finishStep (replaceHost hs r) = replaceHost hs (finishStep r) := by
  cases r <;> rfl

theorem unlessRefused_replaceHost {s t : State} (why : Option Refusal) (h : t = { s with host := hs }) :
    unlessRefused why t = replaceHost hs (unlessRefused why s) := by
  subst h
  cases why <;> rfl

theorem pushBits_setHost (bs : List Bool) : pushBits { s with host := hs } bs = { pushBits s bs with host := hs } := by
  induction bs generalizing s with
  | nil => rfl
  | cons b bs ih => exact ih (pushBit s b)

theorem copyLoop_setHost (d n : Nat) : copyLoop d n { s with host := hs } = { copyLoop d n s with host := hs } := by
  induction n with
  | zero => rfl
  | succ n ih =>
    simp only [copyLoop, ih]
    rfl

theorem execEncInit_setHost : execEncInit { s with host := hs } = replaceHost hs (execEncInit s) := by
  simp only [execEncInit]
  split <;> rfl

/-- One token of the Encoder: bits pushed after a change of step-local registers, then the cursor moved. -/
theorem pushToken_setHost (l : Locals) (bs : List Bool) (n : Nat) :
    ({ pushBits { s with host := hs, loc := l } bs with i := s.i + n } : State) =
      { pushBits { s with loc := l } bs with i := s.i + n, host := hs } :=
  congrArg (fun u : State => { u with i := s.i + n }) (pushBits_setHost { s with loc := l } hs bs)

theorem encodeMatch_setHost (d : Distance) (l : MatchLen) :
    encodeMatch d l { s with host := hs } = replaceHost hs (encodeMatch d l s) := by
  unfold encodeMatch emitMatch
  generalize matchTokenOf d l = bs
  exact unlessRefused_replaceHost hs (bitRoom s 17) (pushToken_setHost s hs _ bs l.toNat)

theorem encodeLit_setHost : encodeLit { s with host := hs } = replaceHost hs (encodeLit s) := by
  unfold encodeLit emitLit
  exact unlessRefused_replaceHost hs (bitRoom s 9) (pushToken_setHost s hs _ (litTokenOf (s.inByte s.i)) 1)

theorem execEncStep_setHost : execEncStep { s with host := hs } = replaceHost hs (execEncStep s) := by
  have hinput : ({ s with host := hs } : State).inputBytes = s.inputBytes := rfl
  simp only [execEncStep, hinput]
  split
  · split
    · split
      · exact encodeMatch_setHost s hs _ _
      · exact encodeLit_setHost s hs
    · rfl
  all_goals rfl

theorem execEncFinal_setHost : execEncFinal { s with host := hs } = replaceHost hs (execEncFinal s) := by
  simp only [execEncFinal, pushBits_setHost]
  split
  · split
    · exact unlessRefused_replaceHost hs (bitRoom s (padCount s.nb)) rfl
    · rfl
  all_goals rfl

theorem execDecInit_setHost : execDecInit { s with host := hs } = replaceHost hs (execDecInit s) := by
  simp only [execDecInit]
  split
  · split <;> rfl
  all_goals rfl

theorem execDecFinal_setHost : execDecFinal { s with host := hs } = replaceHost hs (execDecFinal s) := by
  have hremain : ({ s with host := hs } : State).remain = s.remain := rfl
  simp only [execDecFinal, hremain]
  split
  · split <;> rfl
  all_goals rfl

theorem execLit_setHost (b : Byte) : execLit b { s with host := hs } = replaceHost hs (execLit b s) := by
  have hremain : ({ s with host := hs } : State).remain = s.remain := rfl
  simp only [execLit, hremain]
  split
  · split
    · exact unlessRefused_replaceHost hs (outRoom s 1) rfl
    · rfl
  all_goals rfl

theorem afterMatch_setHost (d : Distance) (l : MatchLen) :
    afterMatch d l { s with host := hs } = { afterMatch d l s with host := hs } :=
  copyLoop_setHost (readMatch d l s) hs d.toNat l.toNat

theorem execMatchTok_setHost (d : Distance) (l : MatchLen) :
    execMatchTok d l { s with host := hs } = replaceHost hs (execMatchTok d l s) := by
  have hremain : ({ s with host := hs } : State).remain = s.remain := rfl
  have hbad : badMatch d l { s with host := hs } = badMatch d l s := rfl
  simp only [execMatchTok, hremain, hbad]
  split
  · split
    · rfl
    · split
      · rfl
      · exact unlessRefused_replaceHost hs (outRoom s l.toNat) (afterMatch_setHost s hs d l)
  all_goals rfl

theorem execDecStep_setHost : execDecStep { s with host := hs } = replaceHost hs (execDecStep s) := by
  have hfetched : ({ s with host := hs } : State).fetched = s.fetched := rfl
  simp only [execDecStep, hfetched]
  split
  · split
    · exact execLit_setHost s hs _
    · exact execMatchTok_setHost s hs _ _
    all_goals rfl
  all_goals rfl

/-- A CORE step is the same with any list of HOST moves, and leaves the list as it is. -/
theorem coreStep_setHost : coreStep { s with host := hs } = replaceHost hs (coreStep s) := by
  have henabled : enabledOp { s with host := hs } = enabledOp s := rfl
  unfold coreStep
  rw [henabled]
  split
  · rename_i op hop
    rw [← finishStep_replaceHost]
    obtain ⟨-, rfl⟩ | ⟨-, -, rfl⟩ | ⟨-, -, rfl⟩ | ⟨-, rfl⟩ | ⟨-, -, rfl⟩ | ⟨-, -, rfl⟩ := enabledOp_cases hop
    · exact congrArg finishStep (execEncInit_setHost s hs)
    · exact congrArg finishStep (execEncStep_setHost s hs)
    · exact congrArg finishStep (execEncFinal_setHost s hs)
    · exact congrArg finishStep (execDecInit_setHost s hs)
    · exact congrArg finishStep (execDecStep_setHost s hs)
    · exact congrArg finishStep (execDecFinal_setHost s hs)
  · rfl

theorem coreStep_keeps_host {s t : State} (h : coreStep s = .next t) : t.host = s.host := by
  have hsame : coreStep s = replaceHost s.host (coreStep s) := coreStep_setHost s s.host
  rw [h, replaceHost, Host.Outcome.next.injEq] at hsame
  exact (congrArg State.host hsame :)

/-- The step CORE takes under any list of HOST moves, from the step it takes when HOST has no move. -/
theorem coreStep_of_step_without_host :
    coreStep { s with host := hs } = replaceHost hs (step { s with host := [] }) := by
  rw [step_nil rfl, ← coreStep_setHost]
end replaceHost

/-- Settles O47: a poll that reads BUSY = 1 and a turn given to CORE are the step of CORE without a HOST move. -/
theorem pollWaitsUntilNotBusy : Obligations.PollWaitsUntilNotBusy := by
  refine ⟨fun s hs hhost => ⟨fun hidle => ?_, ?_⟩, fun s hs hhost => ?_⟩
  · rw [step_poll hhost, hidle]
    rfl
  · have hpoll (hbusy : s.busy = true) : step s = coreStep s := by rw [step_poll hhost, if_pos hbusy]
    have hcore : coreStep s = replaceHost (.poll :: hs) (step { s with host := [] }) := by
      rw [← coreStep_of_step_without_host, ← hhost]
    refine ⟨fun t hbusy hstep => ?_, fun t hbusy hstep => ?_, fun r hbusy hstep => ?_⟩
    · rw [hpoll hbusy] at hstep
      rw [coreStep_keeps_host hstep, hhost]
    · rw [hpoll hbusy, hcore, hstep]
      rfl
    · rw [hpoll hbusy, hcore, hstep]
      rfl
  · have hturn : step s = replaceHost hs (step { s with host := [] }) := by
      rw [step_coreTurn hhost, coreStep_of_step_without_host]
    refine ⟨fun t hstep => ?_, fun t hstep => ?_, fun r hstep => ?_⟩
    · rw [step_coreTurn hhost] at hstep
      exact coreStep_keeps_host hstep
    · rw [hturn, hstep]
      rfl
    · rw [hturn, hstep]
      rfl

end Sys2Proof.Machine
end

section
/-! PROOFS, layer 7. No byte of OUT is written beyond CAP_OUT (O55), and with unbounded capacities no CORE step is refused
(O8). -/

namespace Sys2Proof.Machine

/-! ### Which bytes of OUT an instruction writes (20_memory.md R63) -/

/-- Every byte of OUT that differs between `s` and `t` lies below CAP_OUT. -/
def OutWithinCap (s t : State) : Prop :=
  ∀ a, t.outMem.get a ≠ s.outMem.get a → belowLimit s.cfg.capOut a = true

section OutWithinCap
variable {s t : State}

theorem outWithinCap_of_outMem_eq (h : t.outMem = s.outMem) : OutWithinCap s t :=
  fun _ hne => absurd (by rw [h]) hne

/-- Pushed bits go into the bytes from OUT[NB // 8] to the byte of the last of them. -/
theorem pushBits_get_other {s : State} {bs : List Bool} {a : Nat}
    (h : a < s.nb / 8 ∨ (s.nb + bs.length + 7) / 8 ≤ a) : (pushBits s bs).outMem.get a = s.outMem.get a := by
  induction bs generalizing s with
  | nil => rfl
  | cons b bs ih =>
    rw [List.length_cons] at h
    rw [pushBits_cons, ih (by rw [pushBit_nb]; omega), pushBit_get_other s b (by omega)]

theorem outWithinCap_pushBits {bs : List Bool} (hroom : bitRoom s bs.length = none) :
    OutWithinCap s (pushBits s bs) := by
  intro a hne
  rcases bitRoom_eq_none.mp hroom with hnil | ⟨hcap, -⟩
  · rw [List.length_eq_zero_iff] at hnil
    simp [hnil] at hne
  · by_contra hbeyond
    refine hne (pushBits_get_other (.inr (Nat.not_lt.mp fun hlt => hbeyond ?_)))
    exact belowLimit_of_fitsCap hcap hlt

theorem outWithinCap_of_appendBits {bs : List Bool} (h : appendBits s bs = .next t) : OutWithinCap s t := by
  obtain ⟨hroom, rfl⟩ := appendBits_next.mp h
  exact outWithinCap_pushBits hroom

theorem outWithinCap_of_acceptCommand {p : Phase} (h : acceptCommand p s = .next t) : OutWithinCap s t := by
  rcases acceptCommand_cases p s with ⟨-, hc⟩ | ⟨-, hc⟩ <;> cases hc.symm.trans h
  all_goals exact outWithinCap_of_outMem_eq rfl

theorem outWithinCap_of_execPad (h : execPad s = .next t) : OutWithinCap s t := by
  unfold execPad at h
  split at h
  · split at h <;> cases h
    exact outWithinCap_of_outMem_eq rfl
  all_goals exact outWithinCap_of_appendBits h

/-- The Decoder appends below OUT_LEN + n only. -/
theorem belowCap_of_outRoom {n a : Nat} (hroom : outRoom s n = none) (hlo : s.outLen ≤ a) (hhi : a < s.outLen + n) :
    belowLimit s.cfg.capOut a = true := by
  rcases outRoom_eq_none.mp hroom with rfl | ⟨hcap, -⟩
  · omega
  · exact belowLimit_of_fitsCap hcap hhi

theorem outWithinCap_afterLit (b : Byte) (hroom : outRoom s 1 = none) : OutWithinCap s (afterLit b s) := by
  intro a hne
  obtain rfl : a = s.outLen := by
    by_contra ha
    exact hne (Memory.get_set_other s.outMem b ha)
  exact belowCap_of_outRoom hroom le_rfl (Nat.lt_succ_self _)

theorem outWithinCap_afterMatch (d : Distance) (l : MatchLen) (hroom : outRoom s l.toNat = none) :
    OutWithinCap s (afterMatch d l s) := by
  intro a hne
  obtain ⟨hlo, hhi⟩ : s.outLen ≤ a ∧ a < s.outLen + l.toNat := by
    by_contra hout
    exact hne (copyLoop_get_other d.toNat l.toNat (readMatch d l s) (by rw [readMatch_outLen]; omega))
  exact belowCap_of_outRoom hroom hlo hhi

theorem outWithinCap_of_execMatchTok {d : Distance} {l : MatchLen} (h : execMatchTok d l s = .next t) :
    OutWithinCap s t := by
  obtain ⟨-, ⟨-, rfl⟩ | ⟨-, -, rfl⟩ | ⟨-, -, hroom, rfl⟩⟩ := execMatchTok_next.mp h
  · exact outWithinCap_of_outMem_eq rfl
  · exact outWithinCap_of_outMem_eq rfl
  · exact outWithinCap_afterMatch d l hroom

theorem outWithinCap_of_execDecStep (h : execDecStep s = .next t) : OutWithinCap s t := by
  obtain ⟨-, ⟨f, rfl⟩ | ⟨b, -, hroom, rfl⟩ | ⟨d, l, -, hroom, rfl⟩⟩ := execDecStep_cases h
  · exact outWithinCap_of_outMem_eq rfl
  · exact outWithinCap_afterLit b hroom
  · exact outWithinCap_afterMatch d l hroom

/-- A token pushed after a change of step-local registers. -/
theorem outWithinCap_pushBits_setLoc (l : Locals) {bs : List Bool} (hroom : bitRoom s bs.length = none) :
    OutWithinCap s (pushBits { s with loc := l } bs) :=
  outWithinCap_pushBits (s := { s with loc := l }) hroom

theorem outWithinCap_of_execEncStep (h : execEncStep s = .next t) : OutWithinCap s t := by
  obtain ⟨-, -, loc, bs, l, hroom, -, -, -, -, rfl⟩ := execEncStep_cases h
  exact outWithinCap_pushBits_setLoc loc hroom

theorem outWithinCap_of_execEncEmitLit {b : Byte} (h : execEncEmitLit b s = .next t) : OutWithinCap s t := by
  obtain ⟨hroom, rfl⟩ := unlessRefused_next.mp h
  exact outWithinCap_pushBits (by rwa [litTokenOf_length])

theorem outWithinCap_of_execEncEmitMatch {d : Distance} {l : MatchLen} (h : execEncEmitMatch d l s = .next t) :
    OutWithinCap s t := by
  unfold execEncEmitMatch at h
  split at h
  · obtain ⟨hroom, rfl⟩ := unlessRefused_next.mp h
    exact outWithinCap_pushBits_setLoc _ (by rwa [matchTokenOf_length])
  · cases h

theorem outWithinCap_of_execEncFinal (h : execEncFinal s = .next t) : OutWithinCap s t := by
  obtain ⟨-, -, hroom, rfl⟩ := execEncFinal_next.mp h
  exact outWithinCap_pushBits (s := s) (by rwa [List.length_replicate])

theorem outWithinCap_of_execDecInit (h : execDecInit s = .next t) : OutWithinCap s t := by
  obtain ⟨-, ⟨-, rfl⟩ | ⟨-, rfl⟩⟩ := execDecInit_next.mp h <;> exact outWithinCap_of_outMem_eq rfl

/-- An operation that answers an outcome under a guard. -/
theorem outWithinCap_of_guard {c : Prop} [Decidable c] {r : Result} {q : Refusal}
    (h : (if c then r else .refused q) = .next t) (hr : r = .next t → OutWithinCap s t) : OutWithinCap s t := by
  split at h
  · exact hr h
  · cases h

/-- A unit operation that leaves OUT alone. -/
theorem outWithinCap_of_next {u : State} (h : (.next u : Result) = .next t) (hu : u.outMem = s.outMem) :
    OutWithinCap s t := by
  cases h
  exact outWithinCap_of_outMem_eq hu

theorem outWithinCap_of_execMfWrap {x : List Byte} {n : Nat} (h : execMfWrap x n s = .next t) : OutWithinCap s t := by
  unfold execMfWrap at h
  split at h
  · cases h
  · exact outWithinCap_of_next h rfl

end OutWithinCap

/-- Settles O55, instruction by instruction. -/
theorem outIsNotWrittenBeyondCapacity : Obligations.OutIsNotWrittenBeyondCapacity := by
  intro i s t a h
  suffices hcap : OutWithinCap s t from hcap a
  cases i with
  | lit b =>
    obtain ⟨-, -, hroom, rfl⟩ := execLit_next.mp h
    exact outWithinCap_afterLit b hroom
  | matchTok d l => exact outWithinCap_of_execMatchTok h
  | pad => exact outWithinCap_of_execPad h
  | compress | decompress => exact outWithinCap_of_acceptCommand h
  | cmdNop0 | cmdRsvd3 | bsNew | bsLoad | bsRemain => exact outWithinCap_of_next h rfl
  | bsPush1 | bsPad => exact outWithinCap_of_appendBits h
  | bsPushf => exact outWithinCap_of_guard h outWithinCap_of_appendBits
  | bsTobytes | bsPop | bsPeek | mfFind => exact outWithinCap_of_guard h fun hu => outWithinCap_of_next hu rfl
  | mfWrap x n => exact outWithinCap_of_execMfWrap h
  | encInit =>
    obtain ⟨-, rfl⟩ := execEncInit_next.mp h
    exact outWithinCap_of_outMem_eq rfl
  | encStep => exact outWithinCap_of_execEncStep h
  | encEmitLit b => exact outWithinCap_of_execEncEmitLit h
  | encEmitMatch d l => exact outWithinCap_of_execEncEmitMatch h
  | encFinal => exact outWithinCap_of_execEncFinal h
  | decInit => exact outWithinCap_of_execDecInit h
  | decStep => exact outWithinCap_of_execDecStep h
  | decFinal =>
    obtain ⟨-, -, rfl⟩ := execDecFinal_next.mp h
    exact outWithinCap_of_outMem_eq rfl

/-! ### Unbounded capacities (20_memory.md R63, 70_reset_and_hazards.md R223) -/

/-- At least 9 bits hold a token or a match flag without its 16 bits (30_encoding.md R80, R82). -/
theorem decodeBits_cases {bs : List Bool} (h : 9 ≤ bs.length) :
    (∃ b rest, decodeBits bs = .token (.lit b) rest) ∨ (∃ d l rest, decodeBits bs = .token (.matchTok d l) rest) ∨
      decodeBits bs = .truncatedMatch := by
  unfold decodeBits
  rw [if_neg (Nat.not_lt.mpr h)]
  split
  · simp at h
  · exact .inl ⟨_, _, rfl⟩
  · split
    · exact .inr (.inr rfl)
    · exact .inr (.inl ⟨_, _, _, rfl⟩)

theorem fetched_cases {s : State} (h : 9 ≤ s.remain) :
    (∃ b rest, s.fetched = .token (.lit b) rest) ∨ (∃ d l rest, s.fetched = .token (.matchTok d l) rest) ∨
      s.fetched = .truncatedMatch :=
  decodeBits_cases (by rw [fetchBits_length]; omega)

/-- The outcome is a next state. -/
def Answers (r : Result) : Prop := ∃ t, r = .next t

section unbounded
variable {s : State} (hcap : s.cfg.capOut = none) (hwidth : s.cfg.lenW = none)
include hcap hwidth

theorem bitRoom_of_unbounded (n : Nat) : bitRoom s n = none :=
  bitRoom_eq_none.mpr (.inr ⟨by simp [fitsCap, hcap], by simp [fitsBits, hwidth]⟩)

theorem outRoom_of_unbounded (n : Nat) : outRoom s n = none :=
  outRoom_eq_none.mpr (.inr ⟨by simp [fitsCap, hcap], by simp [fitsLen, hwidth]⟩)

theorem execEncStep_answers (hp : s.phase = .encRun) (hi : s.i < s.inLen) : Answers (execEncStep s) := by
  have hroom := bitRoom_of_unbounded hcap hwidth
  rcases hfind : find s.inputBytes s.i with _ | ⟨d, l⟩
  · exact ⟨_, execEncStep_next.mpr ⟨hp, hi, .inr ⟨hfind, unlessRefused_next.mpr ⟨hroom 9, rfl⟩⟩⟩⟩
  · exact ⟨_, execEncStep_next.mpr ⟨hp, hi, .inl ⟨d, l, hfind, unlessRefused_next.mpr ⟨hroom 17, rfl⟩⟩⟩⟩

theorem execMatchTok_answers (d : Distance) (l : MatchLen) (hp : s.phase = .decRun) : Answers (execMatchTok d l s) := by
  rcases Nat.lt_or_ge s.remain 17 with h17 | h17
  · exact ⟨_, execMatchTok_next.mpr ⟨hp, .inl ⟨h17, rfl⟩⟩⟩
  · cases hbad : badMatch d l s with
    | true => exact ⟨_, execMatchTok_next.mpr ⟨hp, .inr (.inl ⟨h17, hbad, rfl⟩)⟩⟩
    | false =>
      have hroom := outRoom_of_unbounded hcap hwidth l.toNat
      exact ⟨_, execMatchTok_next.mpr ⟨hp, .inr (.inr ⟨h17, hbad, hroom, rfl⟩)⟩⟩

theorem execDecStep_answers (hp : s.phase = .decRun) (h9 : 9 ≤ s.remain) : Answers (execDecStep s) := by
  unfold execDecStep
  rw [hp]
  obtain ⟨b, rest, hf⟩ | ⟨d, l, rest, hf⟩ | hf := fetched_cases h9 <;> rw [hf]
  · exact ⟨_, execLit_next.mpr ⟨hp, h9, outRoom_of_unbounded hcap hwidth 1, rfl⟩⟩
  · exact execMatchTok_answers hcap hwidth d l hp
  · exact ⟨_, rfl⟩

theorem exec_enabledOp_answers {op : Instr} (hop : enabledOp s = some op) : Answers (exec op s) := by
  obtain ⟨hp, rfl⟩ | ⟨hp, hi, rfl⟩ | ⟨hp, hi, rfl⟩ | ⟨hp, rfl⟩ | ⟨hp, h9, rfl⟩ | ⟨hp, h9, rfl⟩ := enabledOp_cases hop
  · exact ⟨_, execEncInit_next.mpr ⟨hp, rfl⟩⟩
  · exact execEncStep_answers hcap hwidth hp hi
  · exact ⟨_, execEncFinal_next.mpr ⟨hp, hi, bitRoom_of_unbounded hcap hwidth _, rfl⟩⟩
  · rcases Nat.eq_zero_or_pos s.inLen with hlen | hlen
    · exact ⟨_, execDecInit_next.mpr ⟨hp, .inl ⟨hlen, rfl⟩⟩⟩
    · exact ⟨_, execDecInit_next.mpr ⟨hp, .inr ⟨hlen.ne', rfl⟩⟩⟩
  · exact execDecStep_answers hcap hwidth hp h9
  · exact ⟨_, execDecFinal_next.mpr ⟨hp, h9, rfl⟩⟩

end unbounded

/-- Settles O8: CORE waits, or the operation R24 enables answers. -/
theorem noCoreStepIsRefusedWhenUnbounded : Obligations.NoCoreStepIsRefusedWhenUnbounded := by
  intro s hcap hwidth hhost
  rw [step_nil hhost]
  rcases hop : enabledOp s with _ | op
  · exact ⟨s, coreStep_next.mpr (.inl ⟨hop, rfl⟩)⟩
  · obtain ⟨u, hu⟩ := exec_enabledOp_answers hcap hwidth hop
    exact ⟨endStep u, coreStep_next.mpr (.inr ⟨op, u, hop, hu, rfl⟩)⟩

end Sys2Proof.Machine
end

section
/-! PROOFS, layer 8. What MF.FIND reads of its data (O25). -/

namespace Sys2Proof.Machine

/-- A slice depends on the bytes between its ends only. -/
theorem slice_congr {x y : List Byte} {i j : Nat} (h : ∀ a, i ≤ a → a < j → x[a]? = y[a]?) :
    slice x i j = slice y i j := by
  refine List.ext_getElem? fun k => ?_
  simp only [slice, List.getElem?_take, List.getElem?_drop]
  split
  · exact h (i + k) (by omega) (by omega)
  · rfl

/-- A candidate depends on the bytes from its source to its own end. -/
theorem matchesAt_congr {x y : List Byte} {p s c : Nat} (h : ∀ a, s ≤ a → a < p + c → x[a]? = y[a]?) (hs : s ≤ p) :
    matchesAt x p s c = matchesAt y p s c := by
  have hsource : slice x s p = slice y s p := slice_congr fun a ha hap => h a ha (by omega)
  have htarget : slice x p (p + c) = slice y p (p + c) := slice_congr fun a ha hac => h a (by omega) hac
  simp only [matchesAt, hsource, htarget]

theorem findSource_congr {x y : List Byte} {p c : Nat}
    (h : ∀ a, windowStart p ≤ a → a < p + c → x[a]? = y[a]?) : findSource x p c = findSource y p c := by
  refine List.find?_congr fun s hs => ?_
  rw [List.mem_range'_1] at hs
  exact matchesAt_congr (fun a ha => h a (by omega)) (by omega)

theorem candidateLens_congr {x y : List Byte} (h : x.length = y.length) (p : Nat) :
    candidateLens x p = candidateLens y p := by
  simp only [candidateLens, maxMatchLen, h]

/-- A candidate length is within the lookahead. -/
theorem le_maxMatchLen_of_mem_candidateLens {x : List Byte} {p c : Nat} (h : c ∈ candidateLens x p) :
    c ≤ maxMatchLen x p := by
  rw [candidateLens, List.mem_reverse, List.mem_range'_1] at h
  omega

/-- Searches that agree on every element of the list find the same. -/
theorem findSome?_congr {α β : Type} {f g : α → Option β} {l : List α} (h : ∀ x ∈ l, f x = g x) :
    l.findSome? f = l.findSome? g := by
  induction l with
  | nil => rfl
  | cons x xs ih =>
    rw [List.findSome?_cons, List.findSome?_cons, h x List.mem_cons_self,
      ih fun z hz => h z (List.mem_cons_of_mem x hz)]

/-- Settles O25: no candidate starts before the window, and none ends beyond the lookahead. -/
theorem findReadsWindowAndLookaheadOnly : Obligations.FindReadsWindowAndLookaheadOnly := by
  intro x y p hlen _ hbytes
  rw [find, find, candidateLens_congr hlen.symm]
  refine findSome?_congr fun c hc => ?_
  have hend : c ≤ min 15 (x.length - p) := le_maxMatchLen_of_mem_candidateLens hc
  rw [findSource_congr fun a ha hac => hbytes a ha (by omega)]

end Sys2Proof.Machine
end

section
/-! PROOFS, layer 9. The bits of bytes and tokens, and decoding as the inverse of encoding (O1, O3). -/

namespace Sys2Proof

open Machine

/-! ### Bits and the bytes they are packed into (20_memory.md R53, R58) -/

/-- Bit strings of one length that form the same number are the same. -/
theorem bitsToNat_inj {xs ys : List Bool} (hlen : xs.length = ys.length) (h : bitsToNat xs = bitsToNat ys) :
    xs = ys := by
  induction xs generalizing ys with
  | nil => exact (List.length_eq_zero_iff.mp hlen.symm).symm
  | cons x xs ih =>
    obtain _ | ⟨y, ys⟩ := ys
    · simp at hlen
    · have htail : xs.length = ys.length := by simpa using hlen
      have hx := bitsToNat_lt xs
      have hy := bitsToNat_lt ys
      rw [htail] at hx
      rw [bitsToNat_cons, bitsToNat_cons, htail] at h
      cases x <;> cases y <;> simp only [Bool.toNat_true, Bool.toNat_false] at h
      · rw [ih htail (by omega)]
      · omega
      · omega
      · rw [ih htail (by omega)]

/-- Bits are recovered from the number they form. -/
theorem fieldBits_bitsToNat (bs : List Bool) : fieldBits bs.length (bitsToNat bs) = bs := by
  refine bitsToNat_inj (fieldBits_length _ _) ?_
  rw [bitsToNat_fieldBits, Nat.mod_eq_of_lt (bitsToNat_lt bs)]

/-- The bits of a packed byte. -/
theorem byteBits_byteOfBits {bs : List Bool} (h : 8 ≤ bs.length) : byteBits (byteOfBits bs) = bs.take 8 := by
  have hlen : (bs.take 8).length = 8 := by simpa using h
  have hlt : bitsToNat (bs.take 8) < 2 ^ 8 := by simpa only [hlen] using bitsToNat_lt (bs.take 8)
  have hfield := fieldBits_bitsToNat (bs.take 8)
  rw [hlen] at hfield
  rw [byteOfBits, List.take_append_of_le_length h, byteBits, BitVec.toNat_ofNat, Nat.mod_eq_of_lt hlt, hfield]

theorem bytesBits_packCount {n : Nat} {bs : List Bool} (h : 8 * n ≤ bs.length) :
    bytesBits (packCount n bs) = bs.take (8 * n) := by
  induction n generalizing bs with
  | zero => simp [packCount]
  | succ n ih =>
    rw [packCount, bytesBits_cons, byteBits_byteOfBits (by omega), ih (by rw [List.length_drop]; omega),
      ← List.take_add]
    congr 1
    omega

/-- Packing loses nothing where the bits fill whole bytes. -/
theorem bytesBits_packBytes {bs : List Bool} (h : bs.length % 8 = 0) : bytesBits (packBytes bs) = bs := by
  rw [packBytes, bytesBits_packCount (by omega)]
  exact List.take_of_length_le (by omega)

/-! ### Tokens -/

theorem matchByte1_fields (b1 b2 : Byte) : matchByte1 (matchDistance b1 b2) = b1 := by
  ext k hk
  simp only [matchDistance, matchByte1]
  interval_cases k <;> simp [BitVec.getElem_or]

theorem matchByte2_fields (b1 b2 : Byte) : matchByte2 (matchDistance b1 b2) (matchLength b2) = b2 := by
  ext k hk
  simp only [matchDistance, matchByte2, matchLength]
  interval_cases k <;> simp [BitVec.getElem_or]

theorem tokenBits_lit (b : Byte) : tokenBits (.lit b) = litTokenOf b := rfl

/-- The fields of a match token are its two bytes (30_encoding.md R79). -/
theorem tokenBits_matchTok (d : Distance) (l : MatchLen) : tokenBits (.matchTok d l) = matchTokenOf d l := by
  simp only [tokenBits, encode, matchTokenOf, bytesBits_cons, byteBits, fieldBits, BitVec.testBit_toNat]
  simp [matchByte1, matchByte2]

theorem isToken_iff {i : Instr} : isToken i = true ↔ (∃ b, i = .lit b) ∨ ∃ d l, i = .matchTok d l := by
  cases i <;> simp [isToken, encode]

/-! ### Decoding inverts encoding (30_encoding.md R77, R78, R80, R82) -/

section decodeBits
variable {bs r : List Bool}

theorem decodeBits_of_short (h : bs.length < 9) : decodeBits bs = .padding := if_pos h

theorem decodeBits_of_lit (h : 8 ≤ r.length) : decodeBits (false :: r) = .token (.lit (byteOfBits r)) (r.drop 8) :=
  if_neg (by rw [List.length_cons]; omega)

theorem decodeBits_of_match (h : 16 ≤ r.length) :
    decodeBits (true :: r) =
      .token (.matchTok (matchDistance (byteOfBits r) (byteOfBits (r.drop 8))) (matchLength (byteOfBits (r.drop 8))))
        (r.drop 16) := by
  rw [decodeBits, if_neg (by rw [List.length_cons]; omega)]
  exact if_neg (Nat.not_lt.mpr h)

theorem decodeBits_of_truncated (h8 : 8 ≤ r.length) (h16 : r.length < 16) :
    decodeBits (true :: r) = .truncatedMatch := by
  rw [decodeBits, if_neg (by rw [List.length_cons]; omega)]
  exact if_pos h16

end decodeBits

theorem decodeBits_litTokenOf_append (b : Byte) (rest : List Bool) :
    decodeBits (litTokenOf b ++ rest) = .token (.lit b) rest := by
  rw [litTokenOf, List.cons_append, decodeBits_of_lit (by simp), byteOfBits_byteBits_append,
    List.drop_left' (byteBits_length b)]

theorem decodeBits_matchTokenOf_append (d : Distance) (l : MatchLen) (rest : List Bool) :
    decodeBits (matchTokenOf d l ++ rest) = .token (.matchTok d l) rest := by
  have hbits : matchTokenOf d l ++ rest = true :: (byteBits (matchByte1 d) ++ (byteBits (matchByte2 d l) ++ rest)) := by
    simp [matchTokenOf]
  have hrest : (byteBits (matchByte1 d) ++ (byteBits (matchByte2 d l) ++ rest)).drop 16 = rest := by
    rw [← List.append_assoc]
    exact List.drop_left' (by simp)
  rw [hbits, decodeBits_of_match (by simp; omega), hrest, List.drop_left' (byteBits_length _),
    byteOfBits_byteBits_append, byteOfBits_byteBits_append, matchDistance_bytes, matchLength_bytes]

/-- A token is read right whatever follows it. -/
theorem decodeBits_tokenBits_append {i : Instr} (hi : isToken i = true) (rest : List Bool) :
    decodeBits (tokenBits i ++ rest) = .token i rest := by
  obtain ⟨b, rfl⟩ | ⟨d, l, rfl⟩ := isToken_iff.mp hi
  · exact decodeBits_litTokenOf_append b rest
  · rw [tokenBits_matchTok]
    exact decodeBits_matchTokenOf_append d l rest

/-- Settles O1: a token is read right before no further bits; a command's code and PAD stand for themselves. -/
theorem decodingInvertsEncoding : Obligations.DecodingInvertsEncoding := by
  refine ⟨fun i hi => ?_, fun i rest hi => decodeBits_tokenBits_append hi rest⟩
  cases henc : encode i with
  | token bits =>
    have hbits : tokenBits i = bits := by simp [tokenBits, henc]
    have hdecode := decodeBits_tokenBits_append (i := i) (by simp [isToken, henc]) []
    rw [hbits, List.append_nil] at hdecode
    simp [Encoding.decode, hdecode]
  | command code =>
    cases i with
    | compress | decompress | cmdNop0 | cmdRsvd3 =>
      cases henc
      rfl
    | _ => cases henc
  | padding =>
    cases i with
    | pad => rfl
    | _ => cases henc
  | none => exact absurd henc hi

/-- Settles O3: each word is written out, and the decoder runs on it. -/
theorem writtenOutWordsDecode : Obligations.WrittenOutWordsDecode := by
  unfold Obligations.WrittenOutWordsDecode
  decide

end Sys2Proof
end

section
/-! PROOFS, layer 10. The assembler and the disassembler of 30_encoding.md section 7 (O2, O5). -/

namespace Sys2Proof

open Machine

/-! ### What the Decoder finds, inverted (30_encoding.md R82) -/

/-- What a stream can begin with: padding, a literal, a match cut short, or a match. -/
theorem stream_front_cases (bs : List Bool) :
    bs.length < 9 ∨ (∃ r, bs = false :: r ∧ 8 ≤ r.length) ∨ (∃ r, bs = true :: r ∧ 8 ≤ r.length ∧ r.length < 16) ∨
      ∃ r, bs = true :: r ∧ 16 ≤ r.length := by
  rcases Nat.lt_or_ge bs.length 9 with hshort | hlong
  · exact .inl hshort
  · obtain _ | ⟨flag, r⟩ := bs
    · simp at hlong
    · have h8 : 8 ≤ r.length := by simpa using hlong
      cases flag with
      | false => exact .inr (.inl ⟨r, rfl, h8⟩)
      | true =>
        rcases Nat.lt_or_ge r.length 16 with h16 | h16
        · exact .inr (.inr (.inl ⟨r, rfl, h8, h16⟩))
        · exact .inr (.inr (.inr ⟨r, rfl, h16⟩))

theorem false_cons_eq_lit_append {r : List Bool} (h : 8 ≤ r.length) :
    false :: r = tokenBits (.lit (byteOfBits r)) ++ r.drop 8 := by
  rw [tokenBits_lit, litTokenOf, byteBits_byteOfBits h, List.cons_append, List.take_append_drop]

theorem true_cons_eq_matchTok_append {r : List Bool} (h : 16 ≤ r.length) :
    true :: r =
      tokenBits
          (.matchTok (matchDistance (byteOfBits r) (byteOfBits (r.drop 8))) (matchLength (byteOfBits (r.drop 8)))) ++
        r.drop 16 := by
  have hfirst : byteBits (byteOfBits r) = r.take 8 := byteBits_byteOfBits (by omega)
  have hsecond : byteBits (byteOfBits (r.drop 8)) = (r.drop 8).take 8 :=
    byteBits_byteOfBits (by rw [List.length_drop]; omega)
  rw [tokenBits_matchTok, matchTokenOf, matchByte1_fields, matchByte2_fields, bytesBits_cons, bytesBits_cons,
    bytesBits_nil, List.append_nil, hfirst, hsecond, ← List.take_add, List.cons_append, List.take_append_drop]

/-- A token the Decoder finds is made of the bits it was found in. -/
theorem decodeBits_token {bs rest : List Bool} {i : Instr} (h : decodeBits bs = .token i rest) :
    isToken i = true ∧ bs = tokenBits i ++ rest := by
  obtain hshort | ⟨r, rfl, h8⟩ | ⟨r, rfl, h8, h16⟩ | ⟨r, rfl, h16⟩ := stream_front_cases bs
  · rw [decodeBits_of_short hshort] at h
    cases h
  · rw [decodeBits_of_lit h8] at h
    cases h
    exact ⟨rfl, false_cons_eq_lit_append h8⟩
  · rw [decodeBits_of_truncated h8 h16] at h
    cases h
  · rw [decodeBits_of_match h16] at h
    cases h
    exact ⟨rfl, true_cons_eq_matchTok_append h16⟩

/-- What disassembly may leave over: padding, or a match flag without its 16 bits (30_encoding.md R90). -/
def IsLeftover (bs : List Bool) : Prop := bs.length < 9 ∨ ∃ r, bs = true :: r ∧ r.length < 16

/-- Bits in which the Decoder finds no token are a leftover. -/
theorem isLeftover_of_decodeBits {bs : List Bool} (h : ∀ i rest, decodeBits bs ≠ .token i rest) : IsLeftover bs := by
  obtain hshort | ⟨r, rfl, h8⟩ | ⟨r, rfl, -, h16⟩ | ⟨r, rfl, h16⟩ := stream_front_cases bs
  · exact .inl hshort
  · exact absurd (decodeBits_of_lit h8) (h _ _)
  · exact .inr ⟨r, rfl, h16⟩
  · exact absurd (decodeBits_of_match h16) (h _ _)

/-- The two token lengths (30_encoding.md R82). -/
theorem tokenBits_length {i : Instr} (hi : isToken i = true) :
    (tokenBits i).length = 9 ∨ (tokenBits i).length = 17 := by
  obtain ⟨b, rfl⟩ | ⟨d, l, rfl⟩ := isToken_iff.mp hi
  · exact .inl (Laws.WordLength.lit b)
  · exact .inr (Laws.WordLength.matchTok d l)

theorem length_le_length_tokenBits {T : List Instr} (hT : ∀ i ∈ T, isToken i = true) :
    T.length ≤ (T.flatMap tokenBits).length := by
  induction T with
  | nil => simp
  | cons i T ih =>
    obtain ⟨hi, hT⟩ := List.forall_mem_cons.mp hT
    have hsize := tokenBits_length hi
    have htail := ih hT
    rw [List.flatMap_cons, List.length_append, List.length_cons]
    omega

/-! ### The disassembler -/

theorem disassembleBits_succ_token {bs rest : List Bool} {i : Instr} (fuel : Nat) (h : decodeBits bs = .token i rest) :
    disassembleBits (fuel + 1) bs = (i :: (disassembleBits fuel rest).1, (disassembleBits fuel rest).2) := by
  rw [disassembleBits, h]

theorem disassembleBits_of_no_token {bs : List Bool} (fuel : Nat) (h : ∀ i rest, decodeBits bs ≠ .token i rest) :
    disassembleBits fuel bs = ([], bs) := by
  cases fuel with
  | zero => rfl
  | succ fuel =>
    rw [disassembleBits]
    split
    · exact absurd ‹_› (h _ _)
    all_goals rfl

/-- The disassembler finds the tokens a stream starts with, up to fewer than 9 bits of padding. -/
theorem disassembleBits_tokens {T : List Instr} {rest : List Bool} {fuel : Nat} (hT : ∀ i ∈ T, isToken i = true)
    (hrest : rest.length < 9) (hfuel : T.length ≤ fuel) :
    disassembleBits fuel (T.flatMap tokenBits ++ rest) = (T, rest) := by
  induction T generalizing fuel with
  | nil => exact disassembleBits_of_no_token fuel fun i r => by simp [decodeBits_of_short hrest]
  | cons i T ih =>
    obtain ⟨hi, hT⟩ := List.forall_mem_cons.mp hT
    obtain ⟨fuel, rfl⟩ : ∃ n, fuel = n + 1 := ⟨fuel - 1, by rw [List.length_cons] at hfuel; omega⟩
    rw [List.flatMap_cons, List.append_assoc, disassembleBits_succ_token fuel (decodeBits_tokenBits_append hi _),
      ih hT (Nat.le_of_succ_le_succ hfuel)]

/-- The tokens and the leftover make up the bits; with fuel for every bit the leftover is no further token. -/
theorem disassembleBits_spec (fuel : Nat) (bs : List Bool) :
    (∀ i ∈ (disassembleBits fuel bs).1, isToken i = true) ∧
      (disassembleBits fuel bs).1.flatMap tokenBits ++ (disassembleBits fuel bs).2 = bs ∧
      (bs.length ≤ fuel → IsLeftover (disassembleBits fuel bs).2) := by
  induction fuel generalizing bs with
  | zero => exact ⟨by simp [disassembleBits], rfl, fun h => .inl (by simp [disassembleBits]; omega)⟩
  | succ fuel ih =>
    by_cases htoken : ∃ i rest, decodeBits bs = .token i rest
    · obtain ⟨i, rest, hdecode⟩ := htoken
      obtain ⟨hi, hbs⟩ := decodeBits_token hdecode
      obtain ⟨hall, hbits, hleft⟩ := ih rest
      have hsize := tokenBits_length hi
      rw [disassembleBits_succ_token fuel hdecode]
      refine ⟨List.forall_mem_cons.mpr ⟨hi, hall⟩, ?_, fun hfuel => hleft ?_⟩
      · rw [List.flatMap_cons, List.append_assoc, hbits, hbs]
      · rw [hbs, List.length_append] at hfuel
        omega
    · have hno : ∀ i rest, decodeBits bs ≠ .token i rest := fun i rest h => htoken ⟨i, rest, h⟩
      rw [disassembleBits_of_no_token _ hno]
      exact ⟨by simp, rfl, fun _ => isLeftover_of_decodeBits hno⟩

/-- Bytes that hold tokens and then fewer than 9 bits disassemble to those tokens. -/
theorem disassemble_of_bits {x : List Byte} {T : List Instr} {rest : List Bool} (hT : ∀ i ∈ T, isToken i = true)
    (hrest : rest.length < 9) (hx : bytesBits x = T.flatMap tokenBits ++ rest) : disassemble x = (T, rest) := by
  have hfuel : T.length ≤ 8 * x.length := by
    have hlen := congrArg List.length hx
    have htokens := length_le_length_tokenBits hT
    rw [bytesBits_length, List.length_append] at hlen
    omega
  rw [disassemble, hx, disassembleBits_tokens hT hrest hfuel]

/-! ### The assembler -/

theorem assembleBits_tokens (T : List Instr) (nb : Nat) (prog : List AsmItem) :
    assembleBits nb (T.map AsmItem.tok ++ prog) =
      T.flatMap tokenBits ++ assembleBits (nb + (T.flatMap tokenBits).length) prog := by
  induction T generalizing nb with
  | nil => rfl
  | cons i T ih =>
    rw [List.map_cons, List.cons_append, assembleBits, ih, List.flatMap_cons, List.append_assoc, List.length_append,
      Nat.add_assoc]
    rfl

/-- The padding that ends the stream of a token sequence. -/
def padBits (T : List Instr) : List Bool := List.replicate (padCount (T.flatMap tokenBits).length) false

theorem padBits_length (T : List Instr) : (padBits T).length = padCount (T.flatMap tokenBits).length :=
  List.length_replicate

theorem padBits_length_lt (T : List Instr) : (padBits T).length < 9 := by
  have hlt := padCount_lt (T.flatMap tokenBits).length
  rw [padBits_length]
  omega

/-- An assembled token sequence is its tokens' bits and the padding. -/
theorem bytesBits_assemble (T : List Instr) :
    bytesBits (assemble (T.map AsmItem.tok ++ [.pad])) = T.flatMap tokenBits ++ padBits T := by
  have hbits : assembleBits 0 (T.map AsmItem.tok ++ [.pad]) = T.flatMap tokenBits ++ padBits T := by
    simp [assembleBits_tokens, assembleBits, AsmItem.bitsAt, padBits]
  rw [assemble, hbits, bytesBits_packBytes]
  rw [List.length_append, padBits_length]
  exact padCount_spec _

/-- Settles O2: the pad is shorter than any token, the tokens' bits and the leftover are the whole stream, and the
tokens are determined by the bits before a leftover of fewer than 9. -/
theorem disassemblyInvertsAssembly : Obligations.DisassemblyInvertsAssembly := by
  refine ⟨fun T hT => ?_, fun x => ?_, fun x y hlen hleft hsame => ?_⟩
  · exact disassemble_of_bits hT (padBits_length_lt T) (bytesBits_assemble T)
  · obtain ⟨-, hbits, hleft⟩ := disassembleBits_spec (8 * x.length) (bytesBits x)
    exact ⟨hbits, hleft (bytesBits_length x).le⟩
  · obtain ⟨hall, hbits, -⟩ := disassembleBits_spec (8 * x.length) (bytesBits x)
    rw [← disassemble] at hall hbits
    have hy := List.take_append_drop ((disassemble x).1.flatMap tokenBits).length (bytesBits y)
    rw [hsame] at hy
    rw [disassemble_of_bits hall ?_ hy.symm]
    have hcount := congrArg List.length hbits
    rw [List.length_append, bytesBits_length] at hcount
    rw [List.length_drop, bytesBits_length]
    omega

/-- The zeros of the padding and one byte more are a literal token and at most 6 bits (30_encoding.md R84). -/
theorem padBits_append_byteBits {T : List Instr} (hpad : 1 ≤ padCount (T.flatMap tokenBits).length) (x : Byte) :
    ∃ b rest, rest.length < 9 ∧ padBits T ++ byteBits x = tokenBits (.lit b) ++ rest := by
  have hlt := padCount_lt (T.flatMap tokenBits).length
  obtain ⟨p, hp⟩ : ∃ p, padCount (T.flatMap tokenBits).length = p + 1 := ⟨_, (Nat.sub_add_cancel hpad).symm⟩
  have hzero : padBits T ++ byteBits x = false :: (List.replicate p false ++ byteBits x) := by
    rw [padBits, hp, List.replicate_succ, List.cons_append]
  refine ⟨_, _, ?_, hzero.trans (false_cons_eq_lit_append (by simp))⟩
  rw [List.length_drop, List.length_append, List.length_replicate, byteBits_length]
  omega

/-- Settles O5: the padding and the appended byte are one more literal token and fewer than 9 bits. -/
theorem appendedByteDecodesAsALiteral : Obligations.AppendedByteDecodesAsALiteral := by
  intro T x hT hpad
  obtain ⟨b, rest, hrest, hlit⟩ := padBits_append_byteBits hpad x
  have hbits : bytesBits (assemble (T.map AsmItem.tok ++ [.pad]) ++ [x]) =
      (T ++ [Instr.lit b]).flatMap tokenBits ++ rest := by
    rw [bytesBits_append, bytesBits_assemble, List.append_assoc, bytesBits_cons, bytesBits_nil, List.append_nil, hlit]
    simp
  have htokens : ∀ i ∈ T ++ [.lit b], isToken i = true :=
    List.forall_mem_append.mpr ⟨hT, List.forall_mem_singleton.mpr rfl⟩
  exact ⟨b, congrArg Prod.fst (disassemble_of_bits htokens hrest hbits)⟩

end Sys2Proof
end

section
/-! PROOFS, layer 11. A step runs what the Decoder finds at RP (O6), a table word placed for it included (O4); PAD on
either side (O18). -/

namespace Sys2Proof.Machine

/-! ### The bits the Decoder looks at (43_decoder.md R156) -/

theorem streamBit_eq_testBit (x : Nat → Byte) (n : Nat) : streamBit x n = (x (n / 8)).toNat.testBit (7 - n % 8) := rfl

/-- Stream bit `n` is bit `n` of the bytes' bits (20_memory.md R50, R54). -/
theorem bytesBits_getElem? (x : List Byte) {n : Nat} (h : n < 8 * x.length) :
    (bytesBits x)[n]? = some (streamBit (fun a => x.getD a 0) n) := by
  induction x generalizing n with
  | nil => simp at h
  | cons b x ih =>
    rw [bytesBits_cons]
    rcases Nat.lt_or_ge n 8 with hn | hn
    · rw [List.getElem?_append_left (by simpa using hn), byteBits, fieldBits_getElem? 8 _ hn, streamBit_eq_testBit,
        Nat.div_eq_of_lt hn, Nat.mod_eq_of_lt hn]
      rfl
    · obtain ⟨m, rfl⟩ : ∃ m, n = m + 8 := ⟨n - 8, by omega⟩
      rw [List.getElem?_append_right (by simp), byteBits_length, Nat.add_sub_cancel,
        ih (by rw [List.length_cons] at h; omega), streamBit_eq_testBit, streamBit_eq_testBit,
        Nat.add_div_right m (by decide), Nat.add_mod_right]
      rfl

/-- The read stream is the bits of the input. -/
theorem inputBytes_bits_getElem? (s : State) {n : Nat} (h : n < 8 * s.inLen) :
    (bytesBits s.inputBytes)[n]? = some (s.inBit n) := by
  rw [bytesBits_getElem? _ (by simpa using h), State.inBit, streamBit, streamBit]
  have hbyte : n / 8 < s.inLen := by omega
  simp [State.inputBytes, hbyte]

/-- The Decoder looks at the next 17 bits of the input, or at what remains. -/
theorem fetchBits_eq (s : State) : s.fetchBits = ((bytesBits s.inputBytes).drop s.rp).take 17 := by
  refine List.ext_getElem? fun k => ?_
  rcases Nat.lt_or_ge k (min 17 s.remain) with hk | hk
  · rw [Nat.lt_min, State.remain] at hk
    obtain ⟨h17, hremain⟩ := hk
    rw [List.getElem?_take_of_lt h17, List.getElem?_drop, inputBytes_bits_getElem? s (by omega)]
    simp [State.fetchBits, State.remain, h17, hremain]
  · rw [List.getElem?_eq_none (by rw [fetchBits_length]; exact hk), List.getElem?_eq_none]
    simpa [State.remain] using hk

/-- The Decoder needs no more than the 17 bits it looks at. -/
theorem decodeBits_take {bs rest : List Bool} {i : Instr} (h : decodeBits bs = .token i rest) :
    ∃ r, decodeBits (bs.take 17) = .token i r := by
  obtain ⟨hi, rfl⟩ := decodeBits_token h
  have h17 : (tokenBits i).length ≤ 17 := by
    have hsize := tokenBits_length hi
    omega
  rw [List.take_append, List.take_of_length_le h17]
  exact ⟨_, decodeBits_tokenBits_append hi _⟩

/-! ### The step (10_state.md R24) -/

section coreStep
variable {s : State} (hp : s.phase = .decRun)
include hp

theorem execDecStep_of_token {i : Instr} {rest : List Bool} (hf : s.fetched = .token i rest) :
    execDecStep s = exec i s := by
  obtain ⟨b, rfl⟩ | ⟨d, l, rfl⟩ := isToken_iff.mp (decodeBits_token hf).1
  all_goals
    rw [execDecStep, hp]
    simp only [hf]
    rfl

theorem execDecStep_of_truncated (hf : s.fetched = .truncatedMatch) : execDecStep s = raise .truncated s := by
  rw [execDecStep, hp]
  simp only [hf]

/-- Where the Decoder finds anything but padding, DEC.STEP is enabled. -/
theorem coreStep_of_not_padding (hf : s.fetched ≠ .padding) : coreStep s = finishStep (execDecStep s) :=
  coreStep_of_decRun_le hp (Nat.not_lt.mp fun h9 => hf (fetched_of_remain_lt h9))

theorem coreStep_of_token {i : Instr} {rest : List Bool} (hf : s.fetched = .token i rest) :
    coreStep s = finishStep (exec i s) := by
  rw [coreStep_of_not_padding hp (by simp [hf]), execDecStep_of_token hp hf]

theorem coreStep_of_padding (hf : s.fetched = .padding) : coreStep s = finishStep (exec .decFinal s) := by
  refine coreStep_of_decRun_lt hp (Nat.not_le.mp fun h9 => ?_)
  obtain ⟨b, rest, h⟩ | ⟨d, l, rest, h⟩ | h := fetched_cases h9 <;> simp [hf] at h

end coreStep

/-- Settles O6: DEC.STEP is enabled where the Decoder finds a token or a truncated match, DEC.FINAL where it finds
padding. -/
theorem stepRunsTheDecodedInstruction : Obligations.StepRunsTheDecodedInstruction := by
  refine ⟨fun s i rest hp hf => ⟨fun hhost => ?_, fun hs hhost => ?_⟩, fun s hp hhost hf => ?_,
    fun s hp hhost hf => ?_, fun s w hs hhost => step_writeCmd hhost⟩
  · rw [step_nil hhost, coreStep_of_token hp hf]
  · rw [step_coreTurn hhost]
    exact coreStep_of_token (s := { s with host := hs }) hp hf
  · rw [step_nil hhost, coreStep_of_not_padding hp (by simp [hf]), execDecStep_of_truncated hp hf]
  · rw [step_nil hhost, coreStep_of_padding hp hf]

/-! ### A placed table word (log entries 2 and 18) -/

/-- Storing bytes from an address on leaves the bytes before it. -/
theorem Memory.get_setAll_before (m : Memory) (l : List Byte) {a x : Nat} (h : x < a) :
    (m.setAll a l).get x = m.get x := by
  induction l generalizing m a with
  | nil => rfl
  | cons b l ih => rw [Memory.setAll, ih _ (by omega), Memory.get_set_other _ _ (by omega)]

theorem Memory.get_setAll (m : Memory) (l : List Byte) (a : Nat) {k : Nat} (h : k < l.length) :
    (m.setAll a l).get (a + k) = l[k]? := by
  induction l generalizing m a k with
  | nil => simp at h
  | cons b l ih =>
    cases k with
    | zero => exact (Memory.get_setAll_before (m.set a b) l (Nat.lt_succ_self a)).trans (Memory.get_set_same m a b)
    | succ k =>
      rw [Memory.setAll, List.getElem?_cons_succ, ← ih (m.set a b) (a + 1) (Nat.lt_of_succ_lt_succ h)]
      congr 1
      omega

/-- The input of a placed stream is the stream. -/
theorem placeStream_inputBytes (s : State) (bytes : List Byte) : (placeStream s bytes).inputBytes = bytes := by
  refine List.ext_getElem? fun k => ?_
  rcases Nat.lt_or_ge k bytes.length with hk | hk
  · have hget := Memory.get_setAll [] bytes 0 hk
    rw [Nat.zero_add] at hget
    simp [State.inputBytes, placeStream, State.inByte, hget, hk]
  · rw [List.getElem?_eq_none hk, List.getElem?_eq_none (by rw [inputBytes_length]; exact hk)]

theorem placeStream_fetched {bytes : List Byte} {i : Instr} {rest : List Bool} (s : State)
    (h : decode bytes = .token i rest) : ∃ r, (placeStream s bytes).fetched = .token i r := by
  obtain ⟨r, hr⟩ := decodeBits_take h
  exact ⟨r, by rw [State.fetched, fetchBits_eq, placeStream_inputBytes]; exact hr⟩

/-- A table word of up to 8 bits is a CMD value, a longer one a token. -/
theorem decodeTableWord_eq_some {nbits w : Nat} {i : Instr} (h : decodeTableWord nbits w = some i) :
    (nbits ≤ 8 → decodeCmd w = i) ∧ (8 < nbits → ∃ rest, decode (tableBytes nbits w) = .token i rest) := by
  unfold decodeTableWord at h
  refine ⟨fun h8 => ?_, fun h8 => ?_⟩
  · rcases Nat.eq_zero_or_pos nbits with rfl | hpos
    · cases h
    · rw [if_neg hpos.ne', if_pos h8] at h
      exact Option.some.inj h
  · rw [if_neg (by omega), if_neg (by omega)] at h
    split at h
    · obtain rfl := Option.some.inj h
      exact ⟨_, ‹_›⟩
    all_goals cases h

/-- Settles O4: a placed command is HOST's next move, a placed token is what the Decoder finds at RP. -/
theorem placedTableWordRuns : Obligations.PlacedTableWordRuns := by
  intro s nbits w i h
  obtain ⟨hcommand, htoken⟩ := decodeTableWord_eq_some h
  refine ⟨fun h8 => ?_, fun h8 => ?_⟩
  · rw [State.withFetchWord, if_pos h8, step_writeCmd (hs := []) rfl, hcommand h8]
    rfl
  · obtain ⟨rest, hdecode⟩ := htoken h8
    obtain ⟨r, hf⟩ := placeStream_fetched s hdecode
    rw [State.withFetchWord, if_neg (Nat.not_le.mpr h8), step_nil rfl, coreStep_of_token rfl hf]

/-! ### PAD (30_encoding.md R83, R89) -/

section pad
variable {s : State}

theorem execPad_of_decRun (hp : s.phase = .decRun) :
    execPad s = if s.remain < 9 then .next { s with phase := .done } else .refused .notEnabled := by
  simp [execPad, hp]

/-- Outside a running decompression PAD is BS.PAD. -/
theorem execPad_of_ne (hp : s.phase ≠ .decRun) : execPad s = execBsPad s := by
  unfold execPad
  split
  · contradiction
  all_goals rfl

theorem execBsPad_of_room (hroom : bitRoom s (padCount s.nb) = none) :
    execBsPad s = .next (pushBits s (List.replicate (padCount s.nb) false)) :=
  appendBits_next.mpr ⟨by rwa [List.length_replicate], rfl⟩

theorem execBsPad_of_no_room {r : Refusal} (hroom : bitRoom s (padCount s.nb) = some r) :
    execBsPad s = .refused r := by
  rw [execBsPad, appendBits, List.length_replicate, hroom]
  rfl

end pad

/-- Settles O18, by PHASE and, on the write side, by the room for the padding. -/
theorem padEndsAStreamOnEitherSide : Obligations.PadEndsAStreamOnEitherSide := by
  intro s
  refine ⟨fun hp h9 => ?_, fun hp h9 => ?_, fun hp hroom => ?_, fun r hp hroom => ?_⟩
  · exact (execPad_of_decRun hp).trans (if_pos h9)
  · exact (execPad_of_decRun hp).trans (if_neg (Nat.not_lt.mpr h9))
  · have hpad := execBsPad_of_room hroom
    refine ⟨_, (execPad_of_ne hp).trans hpad, hpad, ?_, ?_, fun ht => pushBits_appended ht _, ?_⟩
    · rw [pushBits_nb, List.length_replicate]
      exact padCount_spec s.nb
    · rw [pushBits_nb, List.length_replicate]
    · rw [pushBits_nb]
      exact pushBits_frame s _
  · exact (execPad_of_ne hp).trans (execBsPad_of_no_room hroom)

end Sys2Proof.Machine
end

section
/-! PROOFS, layer 12. The stream `compress` returns (O32). -/

namespace Sys2Proof.Machine

/-- A match the MatchFinder returns has its source in the window (41_matchfinder.md R123). -/
theorem find_source {data : List Byte} {p d l : Nat} (h : find data p = some (d, l)) :
    ∃ a, windowStart p ≤ a ∧ a < p ∧ d = p - a := by
  obtain ⟨c, -, hsource⟩ := List.exists_of_findSome?_eq_some h
  obtain ⟨a, ha, hpair⟩ := Option.map_eq_some_iff.mp hsource
  obtain ⟨hlo, hhi⟩ := List.mem_range'_1.mp (List.mem_of_find?_eq_some ha)
  have hle : windowStart p ≤ p := Nat.sub_le _ _
  exact ⟨a, hlo, by omega, (congrArg Prod.fst hpair).symm⟩

/-- It reaches back at least one byte, within the window and the data (41_matchfinder.md R128). -/
theorem find_distance_bounds {data : List Byte} {p d l : Nat} (h : find data p = some (d, l)) :
    1 ≤ d ∧ d ≤ 4095 ∧ d ≤ p := by
  obtain ⟨a, hlo, hhi, rfl⟩ := find_source h
  have hwindow : p - 4095 ≤ a := hlo
  omega

/-- A token the Encoder emits (30_encoding.md R86). -/
def Canonical (i : Instr) : Prop :=
  (∃ b, i = .lit b) ∨ ∃ (d : Distance) (l : MatchLen), i = .matchTok d l ∧ 1 ≤ d.toNat ∧ 4 ≤ l.toNat

theorem Canonical.isToken {i : Instr} (h : Canonical i) : isToken i = true := by
  obtain ⟨b, rfl⟩ | ⟨d, l, rfl, -, -⟩ := h <;> rfl

theorem Canonical.fields {d : Distance} {l : MatchLen} (h : Canonical (.matchTok d l)) :
    1 ≤ d.toNat ∧ 4 ≤ l.toNat := by
  obtain ⟨b, hb⟩ | ⟨d', l', heq, hbounds⟩ := h
  · cases hb
  · cases heq
    exact hbounds

/-- A found match as a token: its fields hold the whole distance and length. -/
theorem canonical_of_find {data : List Byte} {p d l : Nat} (h : find data p = some (d, l)) :
    ∃ i, Canonical i ∧ tokenBits i = true :: (fieldBits 12 d ++ fieldBits 4 l) := by
  obtain ⟨hd1, hd, -⟩ := find_distance_bounds h
  obtain ⟨hl4, hl, -⟩ := find_length_bounds h
  have hdist : (BitVec.ofNat 12 d).toNat = d := by rw [BitVec.toNat_ofNat]; omega
  have hlen : (BitVec.ofNat 4 l).toNat = l := by rw [BitVec.toNat_ofNat]; omega
  refine ⟨.matchTok (BitVec.ofNat 12 d) (BitVec.ofNat 4 l), .inr ⟨_, _, rfl, by omega, by omega⟩, ?_⟩
  simp only [tokenBits, encode, hdist, hlen]

/-- The loop of `compress` emits one canonical token an iteration. -/
theorem compressBits_tokens (data : List Byte) (fuel p : Nat) :
    ∃ T : List Instr, (∀ i ∈ T, Canonical i) ∧ T.length ≤ fuel ∧ compressBits data fuel p = T.flatMap tokenBits := by
  induction fuel generalizing p with
  | zero => exact ⟨[], by simp, le_rfl, rfl⟩
  | succ fuel ih =>
    rw [compressBits]
    split
    · split
      · rename_i d l hfind
        obtain ⟨i, hi, hbits⟩ := canonical_of_find hfind
        obtain ⟨T, hT, hlen, hrest⟩ := ih (p + l)
        refine ⟨i :: T, List.forall_mem_cons.mpr ⟨hi, hT⟩, Nat.succ_le_succ hlen, ?_⟩
        rw [List.flatMap_cons, hbits, hrest]
      · obtain ⟨T, hT, hlen, hrest⟩ := ih (p + 1)
        have hi : Canonical (.lit (data.getD p 0)) := .inl ⟨_, rfl⟩
        refine ⟨_, List.forall_mem_cons.mpr ⟨hi, hT⟩, Nat.succ_le_succ hlen, ?_⟩
        rw [List.flatMap_cons, hrest]
        rfl
    · exact ⟨[], by simp, Nat.zero_le _, rfl⟩

/-- The bytes of `compress` are its bits and the padding. -/
theorem bytesBits_compress (data : List Byte) :
    bytesBits (compress data) =
      compressBits data data.length 0 ++
        List.replicate (padCount (compressBits data data.length 0).length) false := by
  refine bytesBits_packBytes ?_
  rw [List.length_append, List.length_replicate]
  exact padCount_spec _

/-- Settles O32: one canonical token an iteration of the loop, and a pad shorter than any token. -/
theorem compressedStreamIsCanonical : Obligations.CompressedStreamIsCanonical := by
  intro data
  obtain ⟨T, hT, hlen, hbits⟩ := compressBits_tokens data data.length 0
  have htokens : ∀ i ∈ T, isToken i = true := fun i hi => (hT i hi).isToken
  have hstream := bytesBits_compress data
  rw [hbits] at hstream
  exact ⟨T, htokens, fun d l hi => (hT _ hi).fields, hlen, hstream,
    congrArg Prod.fst (disassemble_of_bits htokens (padBits_length_lt T) hstream)⟩

end Sys2Proof.Machine
end

section
/-! PROOFS, layer 13. The BitStream unit: both streams start at bit 0 (O14), what PUSH1, PUSHF and PAD append (O15 to
O17), what TOBYTES, POP and PEEK read (O19, O20), and the round trip through the two streams (O21). -/

namespace Sys2Proof.Machine

/-! ### Stream bits as lists and as numbers (20_memory.md R51, R54) -/

theorem streamBit_eight_mul_add (x : Nat → Byte) (k : Nat) {j : Nat} (h : j < 8) :
    streamBit x (8 * k + j) = (x k).getLsbD (7 - j) := by
  have hdiv : (8 * k + j) / 8 = k := by omega
  have hmod : (8 * k + j) % 8 = j := by omega
  rw [streamBit, hdiv, hmod]

/-- The bits of the bytes at addresses `0 .. n-1` are the stream bits laid over them. -/
theorem bytesBits_map_range (x : Nat → Byte) (n : Nat) :
    bytesBits ((List.range n).map x) = (List.range (8 * n)).map (streamBit x) := by
  refine List.ext_getElem? fun k => ?_
  rcases Nat.lt_or_ge k (8 * n) with hk | hk
  · have hbyte : k / 8 < n := by omega
    rw [bytesBits_getElem? _ (by simpa using hk)]
    simp [streamBit, hk, hbyte]
  · rw [List.getElem?_eq_none (by simpa using hk), List.getElem?_eq_none (by simpa using hk)]

theorem bytesBits_outBytes (s : State) (n : Nat) :
    bytesBits (s.outBytes n) = (List.range (8 * n)).map s.outBit := bytesBits_map_range s.outByte n

theorem bytesBits_inputBytes (s : State) : bytesBits s.inputBytes = (List.range (8 * s.inLen)).map s.inBit :=
  bytesBits_map_range s.inByte s.inLen

/-- The number read has the bits read as its field. -/
theorem fieldBits_streamRead (x : Nat → Byte) (n count : Nat) :
    fieldBits count (streamRead x n count) = (List.range count).map fun t => streamBit x (n + t) := by
  have h := fieldBits_bitsToNat ((List.range count).map fun t => streamBit x (n + t))
  rwa [List.length_map, List.length_range, ← streamRead_eq_bitsToNat] at h

/-- The first bit read is the most significant. -/
theorem streamRead_testBit (x : Nat → Byte) (n : Nat) {count k : Nat} (h : k < count) :
    (streamRead x n count).testBit (count - 1 - k) = streamBit x (n + k) := by
  have hfield := fieldBits_getElem? count (streamRead x n count) h
  rw [fieldBits_streamRead] at hfield
  simpa [h] using hfield.symm

/-- A read whose bits are those of a field returns the field. -/
theorem streamRead_eq_of_fieldBits {x : Nat → Byte} {n count v : Nat} (hv : v < 2 ^ count)
    (h : ∀ k < count, some (streamBit x (n + k)) = (fieldBits count v)[k]?) : streamRead x n count = v := by
  have hbits : (List.range count).map (fun t => streamBit x (n + t)) = fieldBits count v := by
    refine List.ext_getElem (by simp) fun k hk hfield => Option.some.inj ?_
    rw [← List.getElem?_eq_getElem hfield, ← h k (by simpa using hk)]
    simp
  rw [streamRead_eq_bitsToNat, hbits, bitsToNat_fieldBits, Nat.mod_eq_of_lt hv]

/-! ### Both streams start at bit 0 (40_bitstream.md R100, R105) -/

/-- Settles O14: both operations only clear their cursor. -/
theorem streamsStartAtBitZero : Obligations.StreamsStartAtBitZero :=
  fun s => ⟨rfl, rfl, rfl, fun k _ hj => streamBit_eight_mul_add s.inByte k hj⟩

/-! ### Appending (40_bitstream.md R101, R102) -/

theorem appendBits_of_room {s : State} {bs : List Bool} (hroom : bitRoom s bs.length = none) :
    appendBits s bs = .next (pushBits s bs) := appendBits_next.mpr ⟨hroom, rfl⟩

theorem appendBits_of_no_room {s : State} {bs : List Bool} {r : Refusal} (hroom : bitRoom s bs.length = some r) :
    appendBits s bs = .refused r := by
  rw [appendBits, hroom]
  rfl

/-- The first bit of a byte begins it afresh. -/
theorem pushBit_outByte_fresh {s : State} (b : Bool) (h : s.nb % 8 = 0) :
    (pushBit s b).outByte (s.nb / 8) = if b then 0x80 else 0x00 := by
  rw [pushBit_outByte_same, if_pos h, h]
  cases b <;> rfl

/-- Settles O15: PUSH1 appends a bit string of length 1. -/
theorem pushBitAppends : Obligations.PushBitAppends := by
  refine fun s b => ⟨fun ht hroom => ?_, fun r hroom => appendBits_of_no_room (bs := [b]) hroom⟩
  exact ⟨_, appendBits_of_room (bs := [b]) hroom, pushBits_appended ht [b], pushBits_frame s [b],
    pushBit_outByte_fresh b⟩

theorem take_bytesBits_length {x : List Byte} {n : Nat} (h : n ≤ 8 * x.length) :
    ((bytesBits x).take n).length = n := by
  rw [List.length_take, bytesBits_length, Nat.min_eq_left h]

theorem execBsPushf_of_le {x : List Byte} {n : Nat} {s : State} (h : n ≤ 8 * x.length) (hroom : bitRoom s n = none) :
    execBsPushf x n s = .next (pushBits s ((bytesBits x).take n)) := by
  rw [execBsPushf, if_pos h]
  exact appendBits_of_room (by rwa [take_bytesBits_length h])

/-- Settles O16: the bits appended are the first of the bytes' bits. -/
theorem pushFieldAppends : Obligations.PushFieldAppends := by
  refine fun s x n => ⟨fun ht hn hroom => ?_, fun hn => if_neg (Nat.not_le.mpr hn)⟩
  have hlen := take_bytesBits_length hn
  have happ := pushBits_appended ht ((bytesBits x).take n)
  refine ⟨_, execBsPushf_of_le hn hroom, happ, fun k hk => ?_, ?_⟩
  · have hbit := happ.added k (by rwa [hlen])
    rw [List.getElem?_take_of_lt hk, bytesBits_getElem? x (by omega)] at hbit
    exact Option.some.inj hbit
  · have hframe := pushBits_frame s ((bytesBits x).take n)
    rwa [hlen] at hframe

/-! ### Padding (40_bitstream.md R103) -/

/-- A zero bit pushed into a begun byte changes no byte. -/
theorem pushBit_false_outByte {s : State} (h : s.nb % 8 ≠ 0) (a : Nat) :
    (pushBit s false).outByte a = s.outByte a := by
  by_cases ha : a = s.nb / 8
  · rw [ha, pushBit_outByte_same, if_neg h]
    simp
  · exact pushBit_outByte_other s false ha

/-- Zero bits up to the end of the begun byte change no byte. -/
theorem pushBits_zeros_outByte {s : State} {n : Nat} (h : n ≤ padCount s.nb) (a : Nat) :
    (pushBits s (List.replicate n false)).outByte a = s.outByte a := by
  induction n generalizing s with
  | zero => rfl
  | succ n ih =>
    have hbegun : s.nb % 8 ≠ 0 := by
      unfold padCount at h
      omega
    have hrest : n ≤ padCount (pushBit s false).nb := by
      rw [pushBit_nb]
      unfold padCount at h ⊢
      omega
    rw [List.replicate_succ, pushBits_cons, ih hrest, pushBit_false_outByte hbegun]

/-- Settles O17: the padding stays inside the begun byte. -/
theorem padEndsOnAByteBoundary : Obligations.PadEndsOnAByteBoundary := by
  intro s hroom
  have hlt := padCount_lt s.nb
  have hend := padCount_spec s.nb
  have hnb : (pushBits s (List.replicate (padCount s.nb) false)).nb = s.nb + padCount s.nb := by simp
  refine ⟨_, execBsPad_of_room hroom, hnb, by rwa [hnb], by omega, pushBits_zeros_outByte le_rfl, fun a ha => ?_,
    ?_⟩
  · refine pushBits_get_other ?_
    rw [List.length_replicate]
    omega
  · rw [pushBits_nb]
    exact pushBits_frame s _

/-! ### Reading the streams (40_bitstream.md R104, R106 to R108) -/

theorem execBsTobytes_of_padded {s : State} (h : s.nb % 8 = 0) :
    execBsTobytes s = .next { s with ret := .bytes (s.outBytes (s.nb / 8)) } := if_pos h

/-- The bytes of a padded stream are its bits. -/
theorem bytesBits_outBytes_of_padded {s : State} (h : s.nb % 8 = 0) :
    bytesBits (s.outBytes (s.nb / 8)) = (List.range s.nb).map s.outBit := by
  rw [bytesBits_outBytes, Nat.mul_div_cancel' (Nat.dvd_of_mod_eq_zero h)]

/-- Settles O19: the stream is laid over the bytes returned. -/
theorem toBytesReturnsTheStream : Obligations.ToBytesReturnsTheStream :=
  fun s h => ⟨_, execBsTobytes_of_padded h, outBytes_length s _, bytesBits_outBytes_of_padded h⟩

theorem execBsPop_of_le {s : State} {n : Nat} (h : n ≤ s.remain) :
    execBsPop n s = .next { s with ret := .number (s.bitRead s.rp n), rp := s.rp + n } := if_pos h

/-- Settles O20: POP and PEEK return the same read of the stream. -/
theorem popAndPeekReadTheNextBits : Obligations.PopAndPeekReadTheNextBits := by
  refine fun s n => ⟨rfl, fun h => ?_, fun h => ?_⟩
  · exact ⟨s.bitRead s.rp n, streamRead_lt s.inByte s.rp n, fun k hk => streamRead_testBit s.inByte s.rp hk,
      execBsPop_of_le h, if_pos h⟩
  · exact ⟨if_neg (Nat.not_le.mpr h), if_neg (Nat.not_le.mpr h)⟩

/-! ### Write, pad, load, read (40_bitstream.md R109) -/

/-- An empty stream has no partly filled byte. -/
theorem tailZero_of_nb_zero {s : State} (h : s.nb = 0) : TailZero s := by
  intro n _ hn
  rw [h] at hn
  omega

/-- A stream that was empty is what was appended to it. -/
theorem Appended.outBits_of_empty {s t : State} {bs : List Bool} (h : Appended s t bs) (h0 : s.nb = 0) :
    (List.range t.nb).map t.outBit = bs := by
  have hnb := h.nb
  rw [h0, Nat.zero_add] at hnb
  refine List.ext_getElem? fun k => ?_
  rw [hnb]
  rcases Nat.lt_or_ge k bs.length with hk | hk
  · rw [← h.added k hk, h0]
    simp [hk]
  · rw [List.getElem?_eq_none hk, List.getElem?_eq_none (by simpa using hk)]

/-- Room for more bits is room for fewer. -/
theorem bitRoom_of_add_left {s : State} {n m : Nat} (h : bitRoom s (n + m) = none) : bitRoom s n = none := by
  refine bitRoom_eq_none.mpr ?_
  obtain hzero | ⟨hcap, hwidth⟩ := bitRoom_eq_none.mp h
  · exact .inl (by omega)
  · exact .inr ⟨fitsCap_mono hcap (by omega), fitsBits_mono hwidth (by omega)⟩

/-- Room for two bit strings is, after the first, room for the second. -/
theorem bitRoom_pushBits {s : State} {bs : List Bool} {m : Nat} (h : bitRoom s (bs.length + m) = none) :
    bitRoom (pushBits s bs) m = none := by
  rw [bitRoom_eq_none] at h ⊢
  rw [pushBits_cfg, pushBits_nb, Nat.add_assoc s.nb]
  exact h.imp_left Nat.eq_zero_of_add_eq_zero_left

/-- What is appended to an empty stream and padded makes the bytes whose bits it is. -/
theorem bytesBits_of_padded_pushBits {s : State} {bs : List Bool} (h0 : s.nb = 0)
    (hroom : bitRoom s (bs.length + padCount bs.length) = none) :
    ∃ p y, execBsPad (pushBits s bs) = .next p ∧ execBsTobytes p = .next { p with ret := .bytes y } ∧
      bytesBits y = bs ++ List.replicate (padCount bs.length) false := by
  have hnb : (pushBits s bs).nb = bs.length := by rw [pushBits_nb, h0, Nat.zero_add]
  have hpad := execBsPad_of_room (s := pushBits s bs) (by rw [hnb]; exact bitRoom_pushBits hroom)
  rw [hnb, ← pushBits_append] at hpad
  have happ := pushBits_appended (tailZero_of_nb_zero h0) (bs ++ List.replicate (padCount bs.length) false)
  have hend : (pushBits s (bs ++ List.replicate (padCount bs.length) false)).nb % 8 = 0 := by
    rw [pushBits_append, pushBits_nb, hnb, List.length_replicate]
    exact padCount_spec bs.length
  exact ⟨_, _, hpad, execBsTobytes_of_padded hend,
    (bytesBits_outBytes_of_padded hend).trans (happ.outBits_of_empty h0)⟩

/-- Settles O21: the bytes' bits are what was appended, and a loaded stream's bits are its bytes'. -/
theorem writeThenReadReturnsTheBits : Obligations.WriteThenReadReturnsTheBits := by
  refine ⟨fun s x n h0 hn hroom => ?_, fun u n v hn hv hbits => ?_⟩
  · have hlen := take_bytesBits_length hn
    obtain ⟨p, y, hpad, hbytes, hy⟩ := bytesBits_of_padded_pushBits (bs := (bytesBits x).take n) h0 (by rwa [hlen])
    refine ⟨_, p, y, execBsPushf_of_le hn (bitRoom_of_add_left hroom), hpad, hbytes, fun u hu => ?_⟩
    rw [← bytesBits_inputBytes, hu, hy, hlen]
  · have hread : u.bitRead u.rp n = v := streamRead_eq_of_fieldBits hv hbits
    rw [← hread]
    exact execBsPop_of_le hn

end Sys2Proof.Machine
end

section
/-! PROOFS, layer 14. The MatchFinder unit: what a wrapped slice holds (O22), when a candidate matches (O24), and which
match the search returns (O23). -/

namespace Sys2Proof.Machine

/-! ### The wrapped slice (41_matchfinder.md R120) -/

/-- Up to its own length the wrapped sequence is the start of x. -/
theorem wrap_of_lt {x : List Byte} {n : Nat} (h : n < x.length) : wrap x n = x.take n := by
  simp [wrap, Nat.div_eq_of_lt h, Nat.mod_eq_of_lt h]

/-- Beyond its own length the wrapped sequence starts over. -/
theorem wrap_length_add {x : List Byte} (h : 0 < x.length) (n : Nat) : wrap x (x.length + n) = x ++ wrap x n := by
  rw [wrap, Nat.add_div_left n h, Nat.add_mod_left, List.replicate_succ, List.flatten_cons, List.append_assoc, wrap]

theorem wrap_length {x : List Byte} (h : 0 < x.length) (n : Nat) : (wrap x n).length = n := by
  induction n using Nat.strong_induction_on with
  | h n ih =>
    rcases Nat.lt_or_ge n x.length with hn | hn
    · rw [wrap_of_lt hn, List.length_take, Nat.min_eq_left hn.le]
    · obtain ⟨m, rfl⟩ := Nat.exists_eq_add_of_le hn
      rw [wrap_length_add h, List.length_append, ih m (by omega)]

theorem wrap_getElem? {x : List Byte} {n k : Nat} (h : 0 < x.length) (hk : k < n) :
    (wrap x n)[k]? = x[k % x.length]? := by
  induction n using Nat.strong_induction_on generalizing k with
  | h n ih =>
    rcases Nat.lt_or_ge n x.length with hn | hn
    · rw [wrap_of_lt hn, List.getElem?_take_of_lt hk, Nat.mod_eq_of_lt (hk.trans hn)]
    · obtain ⟨m, rfl⟩ := Nat.exists_eq_add_of_le hn
      rw [wrap_length_add h]
      rcases Nat.lt_or_ge k x.length with hkx | hkx
      · rw [List.getElem?_append_left hkx, Nat.mod_eq_of_lt hkx]
      · rw [List.getElem?_append_right hkx, ih m (by omega) (by omega), ← Nat.mod_eq_sub_mod hkx]

/-- MF.WRAP as an operation, within its domain. -/
theorem execMfWrap_of_ne_nil {x : List Byte} (h : x ≠ []) (n : Nat) (s : State) :
    execMfWrap x n s = .next { s with ret := .bytes (wrap x n) } :=
  if_neg (by rwa [List.isEmpty_iff])

/-- Settles O22: each round of x shifts the index by len(x). -/
theorem wrapRepeatsItsSource : Obligations.WrapRepeatsItsSource := by
  refine ⟨fun s x n hx => ?_, fun s n => rfl⟩
  have hlen : 0 < x.length := List.length_pos_iff.mpr hx
  exact ⟨execMfWrap_of_ne_nil hx n s, wrap_length hlen n, fun k hk => wrap_getElem? hlen hk⟩

/-! ### When a candidate matches (41_matchfinder.md R124, R130) -/

theorem slice_getElem? {x : List Byte} {i j k : Nat} (h : k < j - i) : (slice x i j)[k]? = x[i + k]? := by
  rw [slice, List.getElem?_take_of_lt h, List.getElem?_drop]

theorem slice_length {x : List Byte} {i j : Nat} (h : j ≤ x.length) : (slice x i j).length = j - i := by
  rw [slice, List.length_take, List.length_drop]
  omega

/-- The source of a candidate in the window is not empty (R131). -/
theorem slice_length_pos {data : List Byte} {p s : Nat} (hs : s < p) (hp : p ≤ data.length) :
    0 < (slice data s p).length := by
  rw [slice_length hp]
  omega

/-- A match ends inside the data. -/
theorem add_le_length_of_matchesAt {data : List Byte} {p s c : Nat} (hs : s < p) (hp : p ≤ data.length)
    (h : matchesAt data p s c = true) : p + c ≤ data.length := by
  have heq : wrap (slice data s p) c = slice data p (p + c) := beq_iff_eq.mp h
  have hlen := wrap_length (slice_length_pos hs hp) c
  rw [heq, slice, List.length_take, List.length_drop] at hlen
  omega

/-- The comparison of R124 byte by byte. -/
theorem matchesAt_iff_wrapped {data : List Byte} {p s c : Nat} (hs : s < p) (hc : p + c ≤ data.length) :
    matchesAt data p s c = true ↔ ∀ k < c, data[s + k % (p - s)]? = data[p + k]? := by
  have hp : p ≤ data.length := by omega
  have hsource : ∀ k < c, (wrap (slice data s p) c)[k]? = data[s + k % (p - s)]? := fun k hk => by
    rw [wrap_getElem? (slice_length_pos hs hp) hk, slice_length hp,
      slice_getElem? (Nat.mod_lt k (Nat.sub_pos_of_lt hs))]
  have htarget : ∀ k < c, (slice data p (p + c))[k]? = data[p + k]? := fun k hk => slice_getElem? (by omega)
  rw [matchesAt, beq_iff_eq]
  constructor
  · intro h k hk
    rw [← hsource k hk, h, htarget k hk]
  · intro h
    have hlen : (slice data p (p + c)).length = c := by rw [slice_length hc, Nat.add_sub_cancel_left]
    refine List.ext_getElem? fun k => ?_
    rcases Nat.lt_or_ge k c with hk | hk
    · rw [hsource k hk, h k hk, htarget k hk]
    · rw [List.getElem?_eq_none (by rwa [wrap_length (slice_length_pos hs hp)]),
        List.getElem?_eq_none (by rwa [hlen])]

/-- A sequence that repeats itself after m places repeats its first m elements (the induction of R130). -/
theorem apply_mod_of_repeats {α : Type} {f : Nat → α} {m c : Nat} (hm : 0 < m) (h : ∀ k < c, f k = f (m + k))
    {k : Nat} (hk : k < m + c) : f (k % m) = f k := by
  induction k using Nat.strong_induction_on with
  | h k ih =>
    rcases Nat.lt_or_ge k m with hkm | hkm
    · rw [Nat.mod_eq_of_lt hkm]
    · obtain ⟨j, rfl⟩ := Nat.exists_eq_add_of_le hkm
      rw [Nat.add_mod_left, ih j (by omega) (by omega), h j (by omega)]

/-- To continue by the first m elements over and over is to repeat what came m places before. -/
theorem wrapped_iff_repeats {α : Type} {f : Nat → α} {m c : Nat} (hm : 0 < m) :
    (∀ k < c, f (k % m) = f (m + k)) ↔ ∀ k < c, f k = f (m + k) := by
  refine ⟨fun h k hk => ?_, fun h k hk => ?_⟩
  · rcases Nat.lt_or_ge k m with hkm | hkm
    · rw [← h k hk, Nat.mod_eq_of_lt hkm]
    · obtain ⟨j, rfl⟩ := Nat.exists_eq_add_of_le hkm
      rw [← h j (by omega), ← h (m + j) hk, Nat.add_mod_left]
  · rw [apply_mod_of_repeats hm h (by omega), h k hk]

/-- Settles O24: the bytes from s repeat themselves after p - s places. -/
theorem wrappedMatchIsOverlappedMatch : Obligations.WrappedMatchIsOverlappedMatch := by
  intro data p s c hs hc
  have htarget : ∀ k, data[p + k]? = data[s + (p - s + k)]? := fun k => by
    rw [← Nat.add_assoc, Nat.add_sub_cancel' hs.le]
  simp only [matchesAt_iff_wrapped hs hc, htarget]
  exact wrapped_iff_repeats (f := fun k => data[s + k]?) (Nat.sub_pos_of_lt hs)

/-- A match of c bytes is one of fewer (R129). -/
theorem matchesAt_mono {data : List Byte} {p s c c' : Nat} (hs : s < p) (hp : p ≤ data.length) (hle : c' ≤ c)
    (h : matchesAt data p s c = true) : matchesAt data p s c' = true := by
  have hc := add_le_length_of_matchesAt hs hp h
  rw [matchesAt_iff_wrapped hs hc] at h
  exact (matchesAt_iff_wrapped hs (by omega)).mpr fun k hk => h k (by omega)

/-! ### Which match the search returns (41_matchfinder.md R124 to R129) -/

theorem windowStart_add_sub (p : Nat) : windowStart p + (p - windowStart p) = p :=
  Nat.add_sub_of_le (Nat.sub_le p Config.window)

/-- The inner loop finds the oldest source. -/
theorem findSource_eq_some_iff {data : List Byte} {p c s : Nat} :
    findSource data p c = some s ↔
      (windowStart p ≤ s ∧ s < p) ∧ matchesAt data p s c = true ∧
        ∀ a, windowStart p ≤ a → a < s → matchesAt data p a c = false := by
  rw [findSource, List.find?_range'_eq_some, List.mem_range'_1, windowStart_add_sub]
  simp only [Bool.not_eq_true']
  exact and_left_comm

theorem findSource_eq_none_iff {data : List Byte} {p c : Nat} :
    findSource data p c = none ↔ ∀ s, windowStart p ≤ s → s < p → matchesAt data p s c = false := by
  rw [findSource, List.find?_range'_eq_none, windowStart_add_sub]
  simp only [Bool.not_eq_true']

theorem mem_candidateLens {data : List Byte} {p c : Nat} :
    c ∈ candidateLens data p ↔ 4 ≤ c ∧ c ≤ min 15 (data.length - p) := by
  simp only [candidateLens, maxMatchLen, Config.minLen, Config.maxLen, List.mem_reverse, List.mem_range'_1]
  omega

/-- The candidate lengths go down. -/
theorem candidateLens_pairwise (data : List Byte) (p : Nat) : (candidateLens data p).Pairwise (· > ·) :=
  List.pairwise_reverse.mpr List.pairwise_lt_range'

/-- Through a descending list a search finds at the greatest element where there is something to find. -/
theorem findSome?_eq_some_iff_of_descending {α : Type} {f : Nat → Option α} {l : List Nat} {b : α}
    (hl : l.Pairwise (· > ·)) :
    l.findSome? f = some b ↔ ∃ c ∈ l, f c = some b ∧ ∀ e ∈ l, c < e → f e = none := by
  rw [List.findSome?_eq_some_iff]
  constructor
  · rintro ⟨before, c, after, rfl, hc, hnone⟩
    obtain ⟨-, hafter, -⟩ := List.pairwise_append.mp hl
    refine ⟨c, List.mem_append_right _ List.mem_cons_self, hc, fun e he hlt => ?_⟩
    obtain he | he := List.mem_append.mp he
    · exact hnone e he
    · obtain rfl | he := List.mem_cons.mp he
      · exact absurd hlt (Nat.lt_irrefl e)
      · exact absurd hlt (Nat.lt_asymm (List.rel_of_pairwise_cons hafter he))
  · rintro ⟨c, hmem, hc, hnone⟩
    obtain ⟨before, after, rfl⟩ := List.append_of_mem hmem
    obtain ⟨-, -, hbefore⟩ := List.pairwise_append.mp hl
    exact ⟨before, c, after, rfl, hc, fun e he =>
      hnone e (List.mem_append_left _ he) (hbefore e he c List.mem_cons_self)⟩

/-- The search by its loops: the greatest length that has a source, and the source the inner loop finds for it. -/
theorem find_eq_some_iff_findSource {data : List Byte} {p d l : Nat} :
    find data p = some (d, l) ↔
      (4 ≤ l ∧ l ≤ min 15 (data.length - p)) ∧ (∃ s, findSource data p l = some s ∧ p - s = d) ∧
        ∀ c, l < c → c ≤ min 15 (data.length - p) → findSource data p c = none := by
  rw [find, findSome?_eq_some_iff_of_descending (candidateLens_pairwise data p)]
  simp only [mem_candidateLens, Option.map_eq_some_iff, Option.map_eq_none_iff, Prod.mk.injEq]
  constructor
  · rintro ⟨l, hl, ⟨s, hs, hd, rfl⟩, hnone⟩
    exact ⟨hl, ⟨s, hs, hd⟩, fun c hlc hc => hnone c ⟨by omega, hc⟩ hlc⟩
  · rintro ⟨hl, ⟨s, hs, hd⟩, hnone⟩
    exact ⟨l, hl, ⟨s, hs, hd, rfl⟩, fun c hc hlc => hnone c hlc hc.2⟩

/-- The search returns the longest match and among those the oldest (R125, R128, R129). -/
theorem find_eq_some_iff {data : List Byte} {p d l : Nat} :
    find data p = some (d, l) ↔
      1 ≤ d ∧ d ≤ min 4095 p ∧ 4 ≤ l ∧ l ≤ min 15 (data.length - p) ∧ matchesAt data p (p - d) l = true ∧
        (∀ s c, p - 4095 ≤ s → s < p → l < c → c ≤ min 15 (data.length - p) → matchesAt data p s c = false) ∧
        (∀ s, p - 4095 ≤ s → s < p - d → matchesAt data p s l = false) := by
  have hwindow : windowStart p = p - 4095 := rfl
  simp only [find_eq_some_iff_findSource, findSource_eq_some_iff, findSource_eq_none_iff, hwindow]
  constructor
  · rintro ⟨⟨hl4, hl⟩, ⟨s, ⟨⟨hlo, hhi⟩, hmatch, holdest⟩, rfl⟩, hlongest⟩
    have hs : p - (p - s) = s := Nat.sub_sub_self hhi.le
    rw [hs]
    exact ⟨by omega, by omega, hl4, hl, hmatch, fun s c hlo hhi hlc hc => hlongest c hlc hc s hlo hhi, holdest⟩
  · rintro ⟨hd1, hd, hl4, hl, hmatch, hlongest, holdest⟩
    exact ⟨⟨hl4, hl⟩, ⟨p - d, ⟨⟨by omega, by omega⟩, hmatch, holdest⟩, by omega⟩,
      fun c hlc hc s hlo hhi => hlongest s c hlo hhi hlc hc⟩

/-- The search returns none where no candidate matches (R126). -/
theorem find_eq_none_iff {data : List Byte} {p : Nat} :
    find data p = none ↔
      ∀ s c, p - 4095 ≤ s → s < p → 4 ≤ c → c ≤ min 15 (data.length - p) → matchesAt data p s c = false := by
  have hwindow : windowStart p = p - 4095 := rfl
  simp only [find, List.findSome?_eq_none_iff, Option.map_eq_none_iff, mem_candidateLens, findSource_eq_none_iff,
    hwindow]
  exact ⟨fun h s c hlo hhi h4 hc => h c ⟨h4, hc⟩ s hlo hhi, fun h c hc s hlo hhi => h s c hlo hhi hc.1 hc.2⟩

theorem execMfFind_of_le {data : List Byte} {p : Nat} (h : p ≤ data.length) (s : State) :
    execMfFind data p s = .next { s with ret := .found (find data p) } := if_pos h

theorem execMfFind_of_lt {data : List Byte} {p : Nat} (h : data.length < p) (s : State) :
    execMfFind data p s = .refused .findPastEnd := if_neg (Nat.not_le.mpr h)

/-- Settles O23: the outer loop goes down the lengths, the inner one up from the oldest source. -/
theorem findIsLongestThenOldest : Obligations.FindIsLongestThenOldest :=
  ⟨fun s _ _ h => execMfFind_of_le h s, fun s _ _ h => execMfFind_of_lt h s, fun _ _ _ _ _ => find_eq_some_iff,
    fun _ _ _ => find_eq_none_iff, fun _ _ _ _ _ => matchesAt_mono⟩

end Sys2Proof.Machine
end

section
/-! PROOFS, layer 15. The Encoder unit: what each operation does (O26 to O29), that none raises (O30), and the token of
a step as a function of the input, from which the size of a compressed sequence follows (O31). -/

namespace Sys2Proof.Machine

/-! ### The start of a compression (42_encoder.md R140) -/

/-- STATUS shows BUSY, DONE and ERR_CODE only, so phases in which CORE is busy look the same. -/
theorem status_eq_of_busy {s t : State} (hs : s.busy = true) (ht : t.busy = true) : t.status = s.status := by
  have hidle {u : State} (hu : u.busy = true) : u.err = false ∧ u.done = false := by
    obtain h | h | h | h := busy_iff.mp hu <;> simp [State.err, State.done, h]
  obtain ⟨hse, hsd⟩ := hidle hs
  obtain ⟨hte, htd⟩ := hidle ht
  simp only [State.status, hs, hse, hsd, ht, hte, htd]
  rfl

/-- Settles O26: ENC_INIT and ENC_RUN are both busy. -/
theorem encInitStartsACompression : Obligations.EncInitStartsACompression := by
  intro s hp
  have hbusy : s.busy = true := busy_iff.mpr (.inl hp)
  refine ⟨execEncInit_next.mpr ⟨hp, rfl⟩, ?_, fun t ht => ?_⟩
  · rw [(status_getLsbD s).1, hbusy]
  · exact status_eq_of_busy hbusy (busy_iff.mpr (.inr (.inl (phase_of_execEncInit ht))))

/-! ### The emitted tokens (42_encoder.md R142, R143) -/

theorem matchByte1_toNat (d : Distance) : (matchByte1 d).toNat = d.toNat / 16 := by
  have hd := d.isLt
  simp only [matchByte1, BitVec.toNat_setWidth, BitVec.toNat_ushiftRight, Nat.shiftRight_eq_div_pow]
  omega

theorem matchByte2_toNat (d : Distance) (l : MatchLen) : (matchByte2 d l).toNat = d.toNat % 16 * 16 + l.toNat := by
  have hl := l.isLt
  have hlow : (d &&& 0xF).toNat = d.toNat % 16 := by
    rw [BitVec.toNat_and]
    exact Nat.and_two_pow_sub_one_eq_mod d.toNat 4
  have hhigh : (((d &&& 0xF) <<< 4).setWidth 8).toNat = (d.toNat % 16) <<< 4 := by
    rw [BitVec.toNat_setWidth, BitVec.toNat_shiftLeft, hlow, Nat.shiftLeft_eq]
    omega
  have hlen : (l.setWidth 8).toNat = l.toNat := by
    rw [BitVec.toNat_setWidth]
    omega
  rw [matchByte2, BitVec.toNat_or, hhigh, hlen, ← Nat.shiftLeft_add_eq_or_of_lt hl, Nat.shiftLeft_eq]

/-- Step-local registers are no part of the write stream. -/
theorem appended_pushBits_setLoc {s : State} (ht : TailZero s) (loc : Locals) (bs : List Bool) :
    Appended s (pushBits { s with loc := loc } bs) bs :=
  have h := pushBits_appended (s := { s with loc := loc }) ht bs
  ⟨h.nb, h.before, h.added, h.tail, h.elsewhere⟩

/-- Neither is the cursor I. -/
theorem Appended.setCursor {s t : State} {bs : List Bool} (h : Appended s t bs) (i : Nat) :
    Appended s { t with i := i } bs := ⟨h.nb, h.before, h.added, h.tail, h.elsewhere⟩

theorem execEncEmitLit_eq (b : Byte) (s : State) : execEncEmitLit b s = appendBits s (tokenBits (.lit b)) := by
  rw [tokenBits_lit, appendBits, litTokenOf_length]
  rfl

theorem execEncEmitMatch_of_in_range {d : Distance} {l : MatchLen} (s : State) (hd : 1 ≤ d.toNat) (hl : 4 ≤ l.toNat) :
    execEncEmitMatch d l s = unlessRefused (bitRoom s 17) (emitMatch d l s) := if_pos ⟨hd, hl⟩

/-- EMIT_MATCH writes the stream, EB1 and EB2 only. -/
theorem emitMatch_frame (d : Distance) (l : MatchLen) (s : State) :
    emitMatch d l s =
      { s with
        outMem := (emitMatch d l s).outMem
        nb := s.nb + 17
        loc := { s.loc with eb1 := matchByte1 d, eb2 := matchByte2 d l } } := by
  have hlen := matchTokenOf_length d l
  unfold emitMatch
  generalize matchTokenOf d l = bs at hlen ⊢
  rw [pushBits_frame, hlen]

theorem emitMatch_appended {s : State} (ht : TailZero s) (loc : Locals) (d : Distance) (l : MatchLen) :
    Appended s (emitMatch d l { s with loc := loc }) (tokenBits (.matchTok d l)) := by
  rw [tokenBits_matchTok, emitMatch]
  generalize matchTokenOf d l = bs
  exact appended_pushBits_setLoc ht _ bs

/-- Settles O27: both operations push the bits of their token, or are refused. -/
theorem emitAppendsTheToken : Obligations.EmitAppendsTheToken := by
  refine fun s ht =>
    ⟨fun b => ⟨fun hroom => ?_, fun r hroom => ?_⟩, fun d l hd hl => ⟨fun hroom => ?_, fun r hroom => ?_⟩⟩
  · exact ⟨_, (execEncEmitLit_eq b s).trans (appendBits_of_room hroom), pushBits_appended ht _, pushBits_frame s _⟩
  · exact (execEncEmitLit_eq b s).trans (appendBits_of_no_room hroom)
  · have hframe := emitMatch_frame d l s
    have heb1 : (emitMatch d l s).loc.eb1 = matchByte1 d := by rw [hframe]
    have heb2 : (emitMatch d l s).loc.eb2 = matchByte2 d l := by rw [hframe]
    refine ⟨emitMatch d l s, ?_, emitMatch_appended ht s.loc d l, ?_, ?_, ?_⟩
    · rw [exec, execEncEmitMatch_of_in_range s hd hl, unlessRefused_next]
      exact ⟨hroom, rfl⟩
    · rw [heb1, matchByte1_toNat]
    · rw [heb2, matchByte2_toNat]
    · rw [heb1, heb2]
      exact hframe
  · rw [exec, execEncEmitMatch_of_in_range s hd hl, hroom, unlessRefused]

/-! ### One step of the Encoder (42_encoder.md R141) -/

/-- A found distance and length are what their fields hold. -/
theorem find_fields {data : List Byte} {p d l : Nat} (h : find data p = some (d, l)) :
    (BitVec.ofNat 12 d).toNat = d ∧ (BitVec.ofNat 4 l).toNat = l := by
  obtain ⟨-, hd, -⟩ := find_distance_bounds h
  obtain ⟨-, hl, -⟩ := find_length_bounds h
  simp only [BitVec.toNat_ofNat]
  omega

section encStep
variable {s : State}

theorem execEncStep_of_find {d l : Nat} (hp : s.phase = .encRun) (hi : s.i < s.inLen)
    (hfind : find s.inputBytes s.i = some (d, l)) :
    execEncStep s = encodeMatch (BitVec.ofNat 12 d) (BitVec.ofNat 4 l) s := by
  rw [execEncStep, hp]
  simp only [if_pos hi, hfind]

theorem execEncStep_of_no_find (hp : s.phase = .encRun) (hi : s.i < s.inLen) (hfind : find s.inputBytes s.i = none) :
    execEncStep s = encodeLit s := by
  rw [execEncStep, hp]
  simp only [if_pos hi, hfind]

/-- The match arm, its effect field by field. -/
theorem encodeMatch_of_room (ht : TailZero s) (d : Distance) (l : MatchLen) (hroom : bitRoom s 17 = none) :
    ∃ t, encodeMatch d l s = .next t ∧ Appended s t (tokenBits (.matchTok d l)) ∧
      t = { s with
            i := s.i + l.toNat, nb := s.nb + 17, outMem := t.outMem
            loc := { s.loc with
                     mfValid := true, mfDist := d, mfLen := l, eb1 := matchByte1 d, eb2 := matchByte2 d l } } := by
  refine ⟨_, unlessRefused_next.mpr ⟨hroom, rfl⟩, (emitMatch_appended ht _ d l).setCursor _, ?_⟩
  exact congrArg (fun u : State => { u with i := s.i + l.toNat }) (emitMatch_frame d l _)

/-- The literal arm. -/
theorem encodeLit_of_room (ht : TailZero s) (hroom : bitRoom s 9 = none) :
    ∃ t, encodeLit s = .next t ∧ Appended s t (tokenBits (.lit (s.inByte s.i))) ∧
      t = { s with i := s.i + 1, nb := s.nb + 9, outMem := t.outMem, loc := { s.loc with mfValid := false } } :=
  ⟨_, unlessRefused_next.mpr ⟨hroom, rfl⟩, (appended_pushBits_setLoc ht _ _).setCursor _,
    congrArg (fun u : State => { u with i := s.i + 1 }) (pushBits_frame _ (litTokenOf (s.inByte s.i)))⟩

end encStep

/-- Settles O28, by what the search returns. -/
theorem encStepEmitsOneToken : Obligations.EncStepEmitsOneToken := by
  refine fun s hp hi ht => ⟨fun d l hfind hroom => ?_, fun hfind hroom => ?_⟩
  · obtain ⟨-, -, hend⟩ := find_length_bounds hfind
    obtain ⟨hd, hl⟩ := find_fields hfind
    obtain ⟨t, hnext, happ, hframe⟩ := encodeMatch_of_room ht (BitVec.ofNat 12 d) (BitVec.ofNat 4 l) hroom
    rw [← execEncStep_of_find hp hi hfind] at hnext
    rw [hl] at hframe
    rw [inputBytes_length] at hend
    have hloc := congrArg State.loc hframe
    refine ⟨hend, t, hnext, happ, ?_, ?_, ?_, ?_⟩
    · rw [hloc]
    · rw [hloc]
      exact hd
    · rw [hloc]
      exact hl
    · rw [hloc]
      exact hframe
  · rw [exec, execEncStep_of_no_find hp hi hfind]
    exact encodeLit_of_room ht hroom

/-! ### The end of a compression (42_encoder.md R144) -/

/-- A stream and its padding are as many bytes as the stream has begun. -/
theorem add_padCount_eq (nb : Nat) : nb + padCount nb = 8 * ((nb + 7) / 8) := by
  unfold padCount
  omega

/-- Settles O29: the padding stays inside the begun byte. -/
theorem encFinalPadsAndEnds : Obligations.EncFinalPadsAndEnds := by
  intro s hp hi hroom
  have hpad := add_padCount_eq s.nb
  have hbytes : (s.nb + padCount s.nb) / 8 = (s.nb + 7) / 8 := by omega
  have hnb : (pushBits s (List.replicate (padCount s.nb) false)).nb = s.nb + padCount s.nb := by simp
  refine ⟨_, execEncFinal_next.mpr ⟨hp, hi, hroom, rfl⟩, hnb, ?_, hbytes, pushBits_zeros_outByte le_rfl,
    fun a ha => pushBits_get_other ?_, ?_⟩
  · rw [hnb, hbytes, hpad]
  · rw [List.length_replicate]
    omega
  · rw [hnb]
    have hframe := pushBits_frame s (List.replicate (padCount s.nb) false)
    rw [List.length_replicate] at hframe
    exact congrArg (fun u : State => { u with outLen := (s.nb + padCount s.nb) / 8, phase := .done }) hframe

/-! ### No failure (42_encoder.md R147) -/

theorem errCode_of_execEncStep {s t : State} (h : execEncStep s = .next t) : t.errCode = s.errCode := by
  obtain ⟨-, -, loc, bs, l, -, -, -, -, -, rfl⟩ := execEncStep_cases h
  exact pushBits_errCode _ bs

theorem errCode_of_execEncFinal {s t : State} (h : execEncFinal s = .next t) : t.errCode = s.errCode := by
  obtain ⟨-, -, -, rfl⟩ := execEncFinal_next.mp h
  exact pushBits_errCode s _

/-- A CORE step of a compression raises nothing. -/
theorem coreStep_of_compression {s t : State} (hp : s.phase = .encInit ∨ s.phase = .encRun)
    (h : coreStep s = .next t) : t.phase ≠ .fault ∧ t.errCode = s.errCode := by
  obtain ⟨-, rfl⟩ | ⟨op, u, hop, hu, rfl⟩ := coreStep_next.mp h
  · exact ⟨by rcases hp with hp | hp <;> simp [hp], rfl⟩
  · rw [endStep_phase, endStep_errCode]
    obtain ⟨-, rfl⟩ | ⟨-, -, rfl⟩ | ⟨-, -, rfl⟩ | ⟨hdec, -⟩ | ⟨hdec, -⟩ | ⟨hdec, -⟩ := enabledOp_cases hop
    · obtain ⟨-, rfl⟩ := execEncInit_next.mp hu
      exact ⟨nofun, rfl⟩
    · exact ⟨by simp [phase_of_execEncStep hu], errCode_of_execEncStep hu⟩
    · exact ⟨by simp [phase_of_execEncFinal hu], errCode_of_execEncFinal hu⟩
    all_goals simp [hdec] at hp

/-- Settles O30: without a HOST move the step is CORE's. -/
theorem compressionNeverFaults : Obligations.CompressionNeverFaults :=
  fun _ _ hp hhost h => coreStep_of_compression hp (step_nil hhost ▸ h)

/-! ### The token of a step as a function of the input (42_encoder.md R145) -/

/-- The token the Encoder emits at cursor `p`. -/
def nextToken (data : List Byte) (p : Nat) : Instr :=
  match find data p with
  | some (d, l) => .matchTok (BitVec.ofNat 12 d) (BitVec.ofNat 4 l)
  | none => .lit (data.getD p 0)

/-- How many bytes of the input it covers. -/
def nextCover (data : List Byte) (p : Nat) : Nat :=
  match find data p with
  | some (_, l) => l
  | none => 1

section nextToken
variable {data : List Byte} {p : Nat}

theorem nextToken_of_find {d l : Nat} (h : find data p = some (d, l)) :
    nextToken data p = .matchTok (BitVec.ofNat 12 d) (BitVec.ofNat 4 l) ∧ nextCover data p = l := by
  simp [nextToken, nextCover, h]

theorem nextToken_of_no_find (h : find data p = none) :
    nextToken data p = .lit (data.getD p 0) ∧ nextCover data p = 1 := by
  simp [nextToken, nextCover, h]

theorem nextCover_pos (data : List Byte) (p : Nat) : 0 < nextCover data p := by
  rcases hfind : find data p with _ | ⟨d, l⟩
  · rw [(nextToken_of_no_find hfind).2]
    decide
  · obtain ⟨h4, -, -⟩ := find_length_bounds hfind
    rw [(nextToken_of_find hfind).2]
    omega

theorem add_nextCover_le (h : p < data.length) : p + nextCover data p ≤ data.length := by
  rcases hfind : find data p with _ | ⟨d, l⟩
  · rw [(nextToken_of_no_find hfind).2]
    exact h
  · rw [(nextToken_of_find hfind).2]
    exact (find_length_bounds hfind).2.2

/-- A token takes at most 9 bits for each byte it covers (42_encoder.md R149). -/
theorem nextToken_bits_le (data : List Byte) (p : Nat) :
    (tokenBits (nextToken data p)).length ≤ 9 * nextCover data p := by
  rcases hfind : find data p with _ | ⟨d, l⟩
  · obtain ⟨htok, hcover⟩ := nextToken_of_no_find hfind
    rw [htok, hcover, tokenBits_lit, litTokenOf_length]
  · obtain ⟨htok, hcover⟩ := nextToken_of_find hfind
    obtain ⟨h4, -, -⟩ := find_length_bounds hfind
    rw [htok, hcover, tokenBits_matchTok, matchTokenOf_length]
    omega

/-- One iteration of `compress` emits that token and moves on by what it covers. -/
theorem compressBits_succ (fuel : Nat) (h : p < data.length) :
    compressBits data (fuel + 1) p =
      tokenBits (nextToken data p) ++ compressBits data fuel (p + nextCover data p) := by
  rw [compressBits, if_pos h]
  rcases hfind : find data p with _ | ⟨d, l⟩
  · obtain ⟨htok, hcover⟩ := nextToken_of_no_find hfind
    rw [htok, hcover]
    rfl
  · obtain ⟨htok, hcover⟩ := nextToken_of_find hfind
    obtain ⟨hd, hl⟩ := find_fields hfind
    rw [htok, hcover]
    simp only [tokenBits, encode, hd, hl]

theorem compressBits_at_end (fuel : Nat) (h : data.length ≤ p) : compressBits data fuel p = [] := by
  cases fuel with
  | zero => rfl
  | succ fuel => rw [compressBits, if_neg (Nat.not_lt.mpr h)]

end nextToken

/-- At most 9 bits for each byte left to compress (42_encoder.md R149). -/
theorem compressBits_length_le (data : List Byte) (fuel p : Nat) :
    (compressBits data fuel p).length ≤ 9 * (data.length - p) := by
  induction fuel generalizing p with
  | zero => exact Nat.zero_le _
  | succ fuel ih =>
    rcases Nat.lt_or_ge p data.length with hp | hp
    · have hbits := nextToken_bits_le data p
      have hend := add_nextCover_le hp
      have hrest := ih (p + nextCover data p)
      rw [compressBits_succ fuel hp, List.length_append]
      omega
    · rw [compressBits_at_end _ hp]
      exact Nat.zero_le _

/-- Settles O31: the bits of all tokens, rounded up to bytes. -/
theorem compressedSizeIsBounded : Obligations.CompressedSizeIsBounded := by
  refine ⟨fun data => ?_, rfl⟩
  have hbits := compressBits_length_le data data.length 0
  rw [compress, packBytes_length, List.length_append, List.length_replicate, add_padCount_eq]
  omega

end Sys2Proof.Machine
end

section
/-! PROOFS, layer 16. The run of a COMPRESS computes `compress` (O33). -/

namespace Sys2Proof

/-- Bytes are determined by their bits. -/
theorem bytesBits_inj {x y : List Byte} (h : bytesBits x = bytesBits y) : x = y := by
  induction x generalizing y with
  | nil =>
    cases y with
    | nil => rfl
    | cons c y =>
      have hlen := congrArg List.length h
      rw [bytesBits_length, bytesBits_length] at hlen
      simp at hlen
  | cons b x ih =>
    cases y with
    | nil =>
      have hlen := congrArg List.length h
      rw [bytesBits_length, bytesBits_length] at hlen
      simp at hlen
    | cons c y =>
      rw [bytesBits_cons, bytesBits_cons] at h
      have hbyte := congrArg byteOfBits h
      rw [byteOfBits_byteBits_append, byteOfBits_byteBits_append] at hbyte
      subst hbyte
      rw [ih (List.append_cancel_left h)]

end Sys2Proof

namespace Sys2Proof.Machine

/-! ### Runs -/

/-- A run of `k + 1` steps is one step and a run of `k`. -/
theorem run_succ_next {M : Host.Core} {s t : M.State} {k : Nat} :
    M.run (k + 1) s = .next t ↔ ∃ u, M.step s = .next u ∧ M.run k u = .next t := by
  rw [Host.Core.run]
  split <;> simp [*]

/-! ### What a CORE step leaves alone -/

/-- `t` has the input, the parameters, HOST's list and the resets of `s`. -/
structure SameInput (s t : State) : Prop where
  inMem : t.inMem = s.inMem
  inLen : t.inLen = s.inLen
  cfg : t.cfg = s.cfg
  host : t.host = s.host
  epoch : t.epoch = s.epoch

section SameInput
variable {s t u : State}

theorem SameInput.trans (h : SameInput s t) (h' : SameInput t u) : SameInput s u :=
  ⟨h'.inMem.trans h.inMem, h'.inLen.trans h.inLen, h'.cfg.trans h.cfg, h'.host.trans h.host, h'.epoch.trans h.epoch⟩

theorem SameInput.inputBytes_eq (h : SameInput s t) : t.inputBytes = s.inputBytes := by
  rw [State.inputBytes, inByte_congr h.inMem h.epoch, h.inLen, State.inputBytes]

theorem sameInput_of_exec {i : Instr} (h : exec i s = .next t) : SameInput s (endStep t) := by
  obtain ⟨hmem, hlen, hcfg, hhost, -, hepoch, -⟩ := noInstructionWritesTheInput i s t h
  exact ⟨hmem, hlen, hcfg, hhost, hepoch⟩

theorem sameInput_of_coreStep (h : coreStep s = .next t) : SameInput s t := by
  obtain ⟨-, rfl⟩ | ⟨i, u, -, hu, rfl⟩ := coreStep_next.mp h
  · exact ⟨rfl, rfl, rfl, rfl, rfl⟩
  · exact sameInput_of_exec hu

end SameInput

/-! ### The write stream as a bit string (20_memory.md R53) -/

/-- The bits of the write stream. -/
def State.streamBits (s : State) : List Bool := (List.range s.nb).map s.outBit

theorem streamBits_length (s : State) : s.streamBits.length = s.nb := by simp [State.streamBits]

theorem streamBits_of_nb_zero {s : State} (h : s.nb = 0) : s.streamBits = [] := by simp [State.streamBits, h]

theorem Appended.streamBits_eq {s t : State} {bs : List Bool} (h : Appended s t bs) :
    t.streamBits = s.streamBits ++ bs := by
  have hbefore : (List.range s.nb).map t.outBit = (List.range s.nb).map s.outBit :=
    List.map_congr_left fun n hn => h.before n (List.mem_range.mp hn)
  have hadded : ((List.range bs.length).map (s.nb + ·)).map t.outBit = bs := by
    refine List.ext_getElem (by simp) fun k hk hbs => Option.some.inj ?_
    rw [← List.getElem?_eq_getElem hbs, ← h.added k hbs]
    simp
  rw [State.streamBits, h.nb, List.range_add, List.map_append, hbefore, hadded, State.streamBits]

/-- The end of a step in ENC_RUN keeps the stream. -/
theorem endStep_streamBits {s : State} (hp : s.phase = .encRun) : (endStep s).streamBits = s.streamBits := by
  rw [State.streamBits, endStep_nb_of_encRun s hp]
  rfl

theorem endStep_outputBytes (s : State) : (endStep s).outputBytes = s.outputBytes := rfl

theorem endStep_tailZero {s : State} (hp : s.phase = .encRun) (h : TailZero s) : TailZero (endStep s) :=
  tailZero_congr h (endStep_nb_of_encRun s hp) rfl rfl

/-! ### The operations of a compression, as bit strings -/

section operations
variable {s : State}

theorem getD_inputBytes {p : Nat} (h : p < s.inLen) : s.inputBytes.getD p 0 = s.inByte p := by
  simp [State.inputBytes, h]

/-- ENC.STEP pushes the next token of the input, where there is room. -/
theorem execEncStep_eq (hp : s.phase = .encRun) (hi : s.i < s.inLen) :
    ∃ loc, execEncStep s =
      unlessRefused (bitRoom s (tokenBits (nextToken s.inputBytes s.i)).length)
        { pushBits { s with loc := loc } (tokenBits (nextToken s.inputBytes s.i)) with
          i := s.i + nextCover s.inputBytes s.i } := by
  rcases hfind : find s.inputBytes s.i with _ | ⟨d, l⟩
  · obtain ⟨htok, hcover⟩ := nextToken_of_no_find hfind
    rw [execEncStep_of_no_find hp hi hfind, htok, hcover, getD_inputBytes hi, tokenBits_lit, litTokenOf_length]
    exact ⟨_, rfl⟩
  · obtain ⟨htok, hcover⟩ := nextToken_of_find hfind
    obtain ⟨-, hl⟩ := find_fields hfind
    rw [execEncStep_of_find hp hi hfind, htok, hcover, tokenBits_matchTok, matchTokenOf_length, encodeMatch, hl]
    unfold emitMatch
    generalize matchTokenOf (BitVec.ofNat 12 d) (BitVec.ofNat 4 l) = bs
    exact ⟨_, rfl⟩

/-- A step of ENC.STEP that answers: the stream grows by the next token, the cursor by what it covers. -/
theorem execEncStep_streamBits {t : State} (ht : TailZero s) (h : execEncStep s = .next t) :
    t.streamBits = s.streamBits ++ tokenBits (nextToken s.inputBytes s.i) ∧
      t.i = s.i + nextCover s.inputBytes s.i ∧ TailZero t := by
  obtain ⟨hp, hi, -⟩ := execEncStep_next.mp h
  obtain ⟨loc, heq⟩ := execEncStep_eq hp hi
  obtain ⟨-, rfl⟩ := unlessRefused_next.mp (heq.symm.trans h)
  have happ := (appended_pushBits_setLoc ht loc (tokenBits (nextToken s.inputBytes s.i))).setCursor
    (s.i + nextCover s.inputBytes s.i)
  exact ⟨happ.streamBits_eq, rfl, happ.tail⟩

/-- The output of ENC.FINAL is the padded stream. -/
theorem execEncFinal_outputBits {t : State} (ht : TailZero s) (h : execEncFinal s = .next t) :
    bytesBits t.outputBytes = s.streamBits ++ List.replicate (padCount s.nb) false := by
  obtain ⟨-, -, -, rfl⟩ := execEncFinal_next.mp h
  have happ := pushBits_appended ht (List.replicate (padCount s.nb) false)
  have hnb : (pushBits s (List.replicate (padCount s.nb) false)).nb = s.nb + padCount s.nb := by simp
  have hbits := bytesBits_outBytes_of_padded (s := pushBits s (List.replicate (padCount s.nb) false))
    (by rw [hnb]; exact padCount_spec s.nb)
  rw [← happ.streamBits_eq, State.streamBits, ← hbits, hnb]
  rfl

end operations

/-! ### The run of a compression -/

/-- ENC_RUN with no HOST move to come, and room for whatever the rest of the input compresses to. -/
structure Compressing (s : State) : Prop where
  phase : s.phase = .encRun
  host : s.host = []
  inside : s.i ≤ s.inLen
  size : s.nb ≤ 9 * s.i
  tail : TailZero s
  room : compressRoom s.cfg s.inLen = true

namespace Compressing
variable {s : State}

/-- Any stream of at most 9 bits a byte of the input fits, with its padding. -/
theorem bitRoom_eq_none (h : Compressing s) {n : Nat} (hn : s.nb + n ≤ 8 * ((9 * s.inLen + 7) / 8)) :
    bitRoom s n = none := by
  obtain ⟨hcap, hbits⟩ := Bool.and_eq_true_iff.mp h.room
  exact Machine.bitRoom_eq_none.mpr (.inr ⟨fitsCap_mono hcap (by omega), fitsBits_mono hbits hn⟩)

/-- Before the end of the input CORE emits the next token. -/
theorem step_token (h : Compressing s) (hi : s.i < s.inLen) :
    ∃ u, step s = .next u ∧ Compressing u ∧ SameInput s u ∧ u.errCode = s.errCode ∧
      u.i = s.i + nextCover s.inputBytes s.i ∧
      u.streamBits = s.streamBits ++ tokenBits (nextToken s.inputBytes s.i) := by
  have hbits := nextToken_bits_le s.inputBytes s.i
  have hend := add_nextCover_le (data := s.inputBytes) (by rwa [inputBytes_length])
  rw [inputBytes_length] at hend
  have hsize := h.size
  obtain ⟨loc, heq⟩ := execEncStep_eq h.phase hi
  rw [h.bitRoom_eq_none (by omega)] at heq
  obtain ⟨t, ht⟩ : ∃ t, execEncStep s = .next t := ⟨_, heq⟩
  obtain ⟨hstream, hcursor, htail⟩ := execEncStep_streamBits h.tail ht
  have hrun := phase_of_execEncStep ht
  have hnb := congrArg List.length hstream
  rw [List.length_append, streamBits_length, streamBits_length] at hnb
  have hcore : coreStep s = .next (endStep t) := by
    rw [coreStep_of_encRun_lt h.phase hi, exec, ht]
    rfl
  have hsame := sameInput_of_coreStep hcore
  have hi' := endStep_i_of_encRun t hrun
  have hnb' := endStep_nb_of_encRun t hrun
  refine ⟨endStep t, (step_nil h.host).trans hcore, ?_, hsame, (coreStep_of_compression (.inr h.phase) hcore).2,
    hi'.trans hcursor, (endStep_streamBits hrun).trans hstream⟩
  exact
    { phase := hrun
      host := hsame.host.trans h.host
      inside := by rw [hi', hsame.inLen]; omega
      size := by rw [hi', hnb']; omega
      tail := endStep_tailZero hrun htail
      room := by rw [hsame.cfg, hsame.inLen]; exact h.room }

/-- At the end of the input CORE pads the stream and is done. -/
theorem step_final (h : Compressing s) (hi : s.i = s.inLen) :
    ∃ t, step s = .next t ∧ SameInput s t ∧ t.errCode = s.errCode ∧ t.phase = .done ∧
      bytesBits t.outputBytes = s.streamBits ++ List.replicate (padCount s.nb) false := by
  have hsize := h.size
  have hpad := add_padCount_eq s.nb
  obtain ⟨t, ht⟩ : ∃ t, execEncFinal s = .next t :=
    ⟨_, execEncFinal_next.mpr ⟨h.phase, hi, h.bitRoom_eq_none (by omega), rfl⟩⟩
  have hcore : coreStep s = .next (endStep t) := by
    rw [coreStep_of_encRun_eq h.phase hi, exec, ht]
    rfl
  refine ⟨endStep t, (step_nil h.host).trans hcore, sameInput_of_coreStep hcore,
    (coreStep_of_compression (.inr h.phase) hcore).2, (endStep_phase t).trans (phase_of_execEncFinal ht), ?_⟩
  rw [endStep_outputBytes]
  exact execEncFinal_outputBits h.tail ht

/-- `t` is where a run from `s` ends that had `bits` still to push. -/
structure Ended (s t : State) (bits : List Bool) : Prop where
  sameInput : SameInput s t
  errCode : t.errCode = s.errCode
  phase : t.phase = .done
  output : bytesBits t.outputBytes =
    (s.streamBits ++ bits) ++ List.replicate (padCount (s.streamBits ++ bits).length) false

theorem run_at_end (h : Compressing s) (hi : s.i = s.inLen) :
    ∃ t, Host.Core.run Sys2Proof.core 1 s = .next t ∧ Ended s t [] := by
  obtain ⟨t, hstep, hsame, herr, hdone, hbits⟩ := h.step_final hi
  refine ⟨t, run_succ_next.mpr ⟨t, hstep, rfl⟩, hsame, herr, hdone, ?_⟩
  rw [List.append_nil, streamBits_length]
  exact hbits

/-- CORE emits the tokens of the rest of the input, then pads. -/
theorem run (h : Compressing s) (fuel : Nat) (hfuel : s.inLen - s.i ≤ fuel) :
    ∃ k t, k ≤ fuel + 1 ∧ Host.Core.run Sys2Proof.core k s = .next t ∧
      Ended s t (compressBits s.inputBytes fuel s.i) := by
  have hinside := h.inside
  induction fuel generalizing s with
  | zero =>
    obtain ⟨t, hrun, hend⟩ := h.run_at_end (by omega)
    exact ⟨1, t, le_rfl, hrun, hend⟩
  | succ fuel ih =>
    rcases Nat.lt_or_ge s.i s.inLen with hi | hi
    · obtain ⟨u, hstep, hu, hsame, herr, hcursor, hstream⟩ := h.step_token hi
      have hcover := nextCover_pos s.inputBytes s.i
      obtain ⟨k, t, hk, hrun, hend⟩ := ih hu (by rw [hsame.inLen]; omega) hu.inside
      refine ⟨k + 1, t, by omega, run_succ_next.mpr ⟨u, hstep, hrun⟩, hsame.trans hend.sameInput,
        hend.errCode.trans herr, hend.phase, ?_⟩
      rw [compressBits_succ fuel (by rwa [inputBytes_length]), ← List.append_assoc, ← hstream, ← hcursor,
        ← hsame.inputBytes_eq]
      exact hend.output
    · obtain ⟨t, hrun, hend⟩ := h.run_at_end (by omega)
      refine ⟨1, t, by omega, hrun, ?_⟩
      rwa [compressBits_at_end _ (by rwa [inputBytes_length])]

end Compressing

/-! ### The command COMPRESS (44_host_commands.md R175, R181) -/

theorem acceptCommand_of_idle {s : State} (hidle : s.busy = false) (p : Phase) :
    acceptCommand p s = .next { s with errCode := 0, phase := p } := by simp [acceptCommand, hidle]

/-- An idle machine accepts a CMD write of 1 as COMPRESS and of 2 as DECOMPRESS. -/
theorem step_command {s : State} {w : Nat} {p : Phase} (hidle : s.busy = false) (hhost : s.host = [.writeCmd w])
    (hw : w % 4 = 1 ∧ p = .encInit ∨ w % 4 = 2 ∧ p = .decInit) :
    step s = .next { s with host := [], errCode := 0, phase := p } := by
  have hexec : exec (decodeCmd w) { s with host := [] } = acceptCommand p { s with host := [] } := by
    obtain ⟨hw, rfl⟩ | ⟨hw, rfl⟩ := hw
    · simp only [decodeCmd, hw, exec, execCompress]
    · simp only [decodeCmd, hw, exec, execDecompress]
  rw [step_writeCmd hhost, hexec]
  exact acceptCommand_of_idle (s := { s with host := [] }) hidle p

/-- ENC.INIT leaves an empty stream at the start of the input. -/
theorem step_encInit {s : State} (hp : s.phase = .encInit) (hhost : s.host = [])
    (hroom : compressRoom s.cfg s.inLen = true) :
    ∃ u, step s = .next u ∧ Compressing u ∧ SameInput s u ∧ u.errCode = s.errCode ∧ u.i = 0 ∧ u.streamBits = [] := by
  have hexec := execEncInit_next.mpr ⟨hp, rfl⟩
  have hcore := (coreStep_of_encInit hp).trans (congrArg finishStep hexec)
  refine ⟨_, (step_nil hhost).trans hcore, ?_, sameInput_of_coreStep hcore, rfl, rfl, streamBits_of_nb_zero rfl⟩
  exact
    { phase := rfl
      host := hhost
      inside := Nat.zero_le _
      size := Nat.zero_le _
      tail := tailZero_of_nb_zero rfl
      room := hroom }

/-- Settles O33: the write of CMD, ENC.INIT, and the run from the empty stream at the start of the input. -/
theorem compressRunComputesCompress : Obligations.CompressRunComputesCompress := by
  intro s w hidle hhost hw
  have hcmd := step_command hidle hhost (.inl ⟨hw, rfl⟩)
  refine ⟨hcmd, fun hroom => ?_⟩
  obtain ⟨u, hinit, hu, hsame, herr, hi, hstream⟩ :=
    step_encInit (s := { s with host := [], errCode := 0, phase := .encInit }) rfl rfl hroom
  have hinput : u.inputBytes = s.inputBytes := hsame.inputBytes_eq
  obtain ⟨k, t, hk, hrun, hend⟩ := hu.run s.inLen (by rw [hsame.inLen]; exact Nat.sub_le _ _)
  have hkept := hsame.trans hend.sameInput
  refine ⟨k + 2, t, by omega, run_succ_next.mpr ⟨_, hcmd, run_succ_next.mpr ⟨u, hinit, hrun⟩⟩, hkept.host, hend.phase,
    hend.errCode.trans herr, bytesBits_inj ?_, hkept.inMem, hkept.inLen⟩
  rw [hend.output, hstream, hi, hinput, bytesBits_compress, inputBytes_length]
  rfl

end Sys2Proof.Machine
end

section
/-! PROOFS, layer 17. A command depends on its input alone (O53). -/

namespace Sys2Proof.Machine

/-! ### The output of the Decoder as a byte string (43_decoder.md R161) -/

theorem outputBytes_length (s : State) : s.outputBytes.length = s.outLen := outBytes_length s _

theorem outputBytes_of_outLen_zero {s : State} (h : s.outLen = 0) : s.outputBytes = [] := by
  rw [State.outputBytes, h]
  rfl

theorem getD_outputBytes {s : State} {a : Nat} (h : a < s.outLen) : s.outputBytes.getD a 0 = s.outByte a := by
  simp [State.outputBytes, State.outBytes, h]

theorem appendOut_outputBytes (s : State) (b : Byte) : (appendOut s b).outputBytes = s.outputBytes ++ [b] := by
  have hold : (List.range s.outLen).map (appendOut s b).outByte = (List.range s.outLen).map s.outByte :=
    List.map_congr_left fun a ha => by rw [appendOut_outByte, if_neg (List.mem_range.mp ha).ne]
  have hnew : (appendOut s b).outByte s.outLen = b := by rw [appendOut_outByte, if_pos rfl]
  rw [State.outputBytes, appendOut_outLen, State.outBytes, List.range_succ, List.map_append, hold, List.map_singleton,
    hnew]
  rfl

theorem afterLit_outputBytes (s : State) (b : Byte) : (afterLit b s).outputBytes = s.outputBytes ++ [b] :=
  appendOut_outputBytes _ b

/-- The last of `n + 1` copies. -/
theorem copyBytes_succ (d n : Nat) (out : List Byte) :
    copyBytes d (n + 1) out =
      copyBytes d n out ++ [(copyBytes d n out).getD ((copyBytes d n out).length - d) 0] := by
  induction n generalizing out with
  | zero => rfl
  | succ n ih =>
    rw [copyBytes, ih]
    rfl

/-- The copy loop with a distance inside the output appends what `copyBytes` does. -/
theorem copyLoop_outputBytes {s : State} {d : Nat} (hd : 1 ≤ d) (hle : d ≤ s.outLen) (n : Nat) :
    (copyLoop d n s).outputBytes = copyBytes d n s.outputBytes := by
  induction n with
  | zero => rfl
  | succ n ih =>
    have hsource : (copyLoop d n s).outLen - d < (copyLoop d n s).outLen := by
      rw [copyLoop_outLen]
      omega
    rw [copyBytes_succ, ← ih, outputBytes_length, getD_outputBytes hsource]
    exact appendOut_outputBytes (copyLoop d n s) _

theorem badMatch_eq_false {s : State} {d : Distance} {l : MatchLen} (h : badMatch d l s = false) :
    1 ≤ d.toNat ∧ d.toNat ≤ s.outLen := by
  simp only [badMatch, Bool.or_eq_false_iff, decide_eq_false_iff_not] at h
  omega

theorem afterMatch_outputBytes {s : State} {d : Distance} {l : MatchLen} (h : badMatch d l s = false) :
    (afterMatch d l s).outputBytes = copyBytes d.toNat l.toNat s.outputBytes :=
  have ⟨hd, hle⟩ := badMatch_eq_false h
  copyLoop_outputBytes (s := readMatch d l s) hd hle l.toNat

/-! ### What a command sees of the machine (42_encoder.md R148, 44_host_commands.md R178) -/

/-- The same cursor, and the same write stream over whatever OUT held. -/
structure SameStream (s t : State) : Prop where
  cursor : s.i = t.i
  bits : s.streamBits = t.streamBits
  tailLeft : TailZero s
  tailRight : TailZero t

/-- Two machines that no command can tell apart: the same parameters and input, and what the phase gives a value. -/
structure SameView (s t : State) : Prop where
  phase : s.phase = t.phase
  errCode : s.errCode = t.errCode
  cfg : s.cfg = t.cfg
  input : s.inputBytes = t.inputBytes
  hosts : s.host = [] ∧ t.host = []
  encoder : s.phase = .encRun → SameStream s t
  decoder : s.phase = .decRun → s.rp = t.rp ∧ s.outputBytes = t.outputBytes
  result : s.phase = .done → s.outputBytes = t.outputBytes

theorem SameStream.nb_eq {s t : State} (h : SameStream s t) : s.nb = t.nb := by
  rw [← streamBits_length, h.bits, streamBits_length]

theorem SameStream.endStep {s t : State} (h : SameStream s t) (hs : s.phase = .encRun) (ht : t.phase = .encRun) :
    SameStream (endStep s) (endStep t) :=
  { cursor := by rw [endStep_i_of_encRun s hs, endStep_i_of_encRun t ht, h.cursor]
    bits := by rw [endStep_streamBits hs, endStep_streamBits ht, h.bits]
    tailLeft := endStep_tailZero hs h.tailLeft
    tailRight := endStep_tailZero ht h.tailRight }

namespace SameView
variable {s t s' t' : State}

theorem inLen_eq (h : SameView s t) : s.inLen = t.inLen := by
  rw [← inputBytes_length, h.input, inputBytes_length]

theorem outLen_eq (h : s.outputBytes = t.outputBytes) : s.outLen = t.outLen := by
  rw [← outputBytes_length, h, outputBytes_length]

theorem remain_eq (h : SameView s t) (hp : s.phase = .decRun) : s.remain = t.remain := by
  rw [State.remain, h.inLen_eq, (h.decoder hp).1, State.remain]

theorem fetched_eq (h : SameView s t) (hp : s.phase = .decRun) : s.fetched = t.fetched := by
  rw [State.fetched, fetchBits_eq, h.input, (h.decoder hp).1, State.fetched, fetchBits_eq]

theorem enabledOp_eq (h : SameView s t) : enabledOp s = enabledOp t := by
  unfold enabledOp
  rw [← h.phase]
  split
  · rfl
  · rfl
  · rename_i hp
    rw [(h.encoder hp).cursor, h.inLen_eq]
  · rfl
  · rename_i hp
    rw [h.remain_eq hp]
  · rfl
  · rfl

/-- After one operation run in both machines, what it left and what every operation leaves alone. -/
theorem afterExec (h : SameView s t) {op : Instr} (hs : exec op s = .next s') (ht : exec op t = .next t')
    (hphase : s'.phase = t'.phase) (herr : s'.errCode = t'.errCode)
    (henc : s'.phase = .encRun → SameStream s' t')
    (hdec : s'.phase = .decRun → s'.rp = t'.rp ∧ s'.outputBytes = t'.outputBytes)
    (hdone : s'.phase = .done → s'.outputBytes = t'.outputBytes) : SameView (endStep s') (endStep t') :=
  have hkept := sameInput_of_exec hs
  have hkept' := sameInput_of_exec ht
  { phase := hphase
    errCode := herr
    cfg := by rw [hkept.cfg, hkept'.cfg, h.cfg]
    input := by rw [hkept.inputBytes_eq, hkept'.inputBytes_eq, h.input]
    hosts := ⟨hkept.host.trans h.hosts.1, hkept'.host.trans h.hosts.2⟩
    encoder := fun hp => (henc hp).endStep hp (hphase.symm.trans hp)
    decoder := fun hp => by
      obtain ⟨hrp, hout⟩ := hdec hp
      rw [endStep_rp_of_decRun s' hp, endStep_rp_of_decRun t' (hphase.symm.trans hp)]
      exact ⟨hrp, hout⟩
    result := hdone }

theorem encInit (h : SameView s t) (hs : execEncInit s = .next s') (ht : execEncInit t = .next t') :
    SameView (endStep s') (endStep t') := by
  obtain ⟨-, rfl⟩ := execEncInit_next.mp hs
  obtain ⟨-, rfl⟩ := execEncInit_next.mp ht
  refine h.afterExec (op := .encInit) hs ht rfl h.errCode (fun _ => ?_) nofun nofun
  exact ⟨rfl, rfl, tailZero_of_nb_zero rfl, tailZero_of_nb_zero rfl⟩

theorem encStep (h : SameView s t) (hs : execEncStep s = .next s') (ht : execEncStep t = .next t') :
    SameView (endStep s') (endStep t') := by
  obtain ⟨hp, -⟩ := execEncStep_next.mp hs
  have hsame := h.encoder hp
  have hrun := phase_of_execEncStep hs
  obtain ⟨hbits, hcursor, htail⟩ := execEncStep_streamBits hsame.tailLeft hs
  obtain ⟨hbits', hcursor', htail'⟩ := execEncStep_streamBits hsame.tailRight ht
  refine h.afterExec (op := .encStep) hs ht (hrun.trans (phase_of_execEncStep ht).symm) ?_ (fun _ => ?_)
    (by simp [hrun]) (by simp [hrun])
  · rw [errCode_of_execEncStep hs, errCode_of_execEncStep ht, h.errCode]
  · refine ⟨?_, ?_, htail, htail'⟩
    · rw [hcursor, hcursor', hsame.cursor, h.input]
    · rw [hbits, hbits', hsame.bits, hsame.cursor, h.input]

theorem encFinal (h : SameView s t) (hs : execEncFinal s = .next s') (ht : execEncFinal t = .next t') :
    SameView (endStep s') (endStep t') := by
  obtain ⟨hp, -⟩ := execEncFinal_next.mp hs
  have hsame := h.encoder hp
  have hdone := phase_of_execEncFinal hs
  refine h.afterExec (op := .encFinal) hs ht (hdone.trans (phase_of_execEncFinal ht).symm) ?_ (by simp [hdone])
    (by simp [hdone]) (fun _ => bytesBits_inj ?_)
  · rw [errCode_of_execEncFinal hs, errCode_of_execEncFinal ht, h.errCode]
  · rw [execEncFinal_outputBits hsame.tailLeft hs, execEncFinal_outputBits hsame.tailRight ht, hsame.bits, hsame.nb_eq]

theorem decInit (h : SameView s t) (hs : execDecInit s = .next s') (ht : execDecInit t = .next t') :
    SameView (endStep s') (endStep t') := by
  have hlen := h.inLen_eq
  obtain ⟨-, ⟨h0, rfl⟩ | ⟨h0, rfl⟩⟩ := execDecInit_next.mp hs <;>
    obtain ⟨-, ⟨h0', rfl⟩ | ⟨h0', rfl⟩⟩ := execDecInit_next.mp ht
  · exact h.afterExec (op := .decInit) hs ht rfl rfl nofun nofun nofun
  · omega
  · omega
  · exact h.afterExec (op := .decInit) hs ht rfl h.errCode nofun (fun _ => ⟨rfl, rfl⟩) nofun

/-- Both machines raise the same failure. -/
theorem fault (h : SameView s t) {op : Instr} {f : Fault} (hs : exec op s = raise f s) (ht : exec op t = raise f t) :
    SameView (endStep { s with errCode := faultCode f, phase := .fault })
      (endStep { t with errCode := faultCode f, phase := .fault }) :=
  h.afterExec hs ht rfl rfl nofun nofun nofun

theorem lit (h : SameView s t) {b : Byte} (hs : execLit b s = .next s') (ht : execLit b t = .next t') :
    SameView (endStep s') (endStep t') := by
  obtain ⟨hp, -, -, rfl⟩ := execLit_next.mp hs
  obtain ⟨-, -, -, rfl⟩ := execLit_next.mp ht
  obtain ⟨hrp, hout⟩ := h.decoder hp
  refine h.afterExec (op := .lit b) hs ht h.phase h.errCode (by simp [hp]) (fun _ => ⟨?_, ?_⟩) (by simp [hp])
  · rw [afterLit_rp, afterLit_rp, hrp]
  · rw [afterLit_outputBytes, afterLit_outputBytes, hout]

theorem badMatch_eq (h : SameView s t) (hp : s.phase = .decRun) (d : Distance) (l : MatchLen) :
    badMatch d l s = badMatch d l t := by
  simp only [badMatch, outLen_eq (h.decoder hp).2, h.cfg]

/-- A match is judged by the bits that remain, the output's length and the parameters, and copies from the output. -/
theorem matchTok (h : SameView s t) {d : Distance} {l : MatchLen} (hs : execMatchTok d l s = .next s')
    (ht : execMatchTok d l t = .next t') : SameView (endStep s') (endStep t') := by
  obtain ⟨hp, hcases⟩ := execMatchTok_next.mp hs
  obtain ⟨-, hcases'⟩ := execMatchTok_next.mp ht
  obtain ⟨hrp, hout⟩ := h.decoder hp
  rw [← h.remain_eq hp, ← h.badMatch_eq hp] at hcases'
  obtain ⟨h17, rfl⟩ | ⟨h17, hbad, rfl⟩ | ⟨h17, hgood, -, rfl⟩ := hcases
  · obtain ⟨-, rfl⟩ | ⟨h17', -⟩ | ⟨h17', -⟩ := hcases'
    · exact h.fault (op := .matchTok d l) hs ht
    all_goals omega
  · obtain ⟨h17', -⟩ | ⟨-, -, rfl⟩ | ⟨-, hgood', -⟩ := hcases'
    · omega
    · exact h.fault (op := .matchTok d l) hs ht
    · simp [hbad] at hgood'
  · obtain ⟨h17', -⟩ | ⟨-, hbad', -⟩ | ⟨-, -, -, rfl⟩ := hcases'
    · omega
    · simp [hgood] at hbad'
    · refine h.afterExec (op := .matchTok d l) hs ht ?_ ?_ (by simp [hp]) (fun _ => ⟨?_, ?_⟩) (by simp [hp])
      · rw [afterMatch_phase, afterMatch_phase, h.phase]
      · rw [afterMatch_frame d l s, afterMatch_frame d l t, h.errCode]
      · rw [afterMatch_rp, afterMatch_rp, hrp]
      · rw [afterMatch_outputBytes hgood, afterMatch_outputBytes ((h.badMatch_eq hp d l).symm.trans hgood), hout]

/-- Both machines find the same at RP. -/
theorem decStep (h : SameView s t) (h9 : 9 ≤ s.remain) (hs : execDecStep s = .next s')
    (ht : execDecStep t = .next t') : SameView (endStep s') (endStep t') := by
  obtain ⟨hp, -⟩ := execDecStep_cases hs
  have hp' := h.phase.symm.trans hp
  obtain ⟨b, rest, hf⟩ | ⟨d, l, rest, hf⟩ | hf := fetched_cases h9
  · rw [execDecStep_of_token hp hf] at hs
    rw [execDecStep_of_token hp' ((h.fetched_eq hp).symm.trans hf)] at ht
    exact h.lit hs ht
  · rw [execDecStep_of_token hp hf] at hs
    rw [execDecStep_of_token hp' ((h.fetched_eq hp).symm.trans hf)] at ht
    exact h.matchTok hs ht
  · have hleft := execDecStep_of_truncated hp hf
    have hright := execDecStep_of_truncated hp' ((h.fetched_eq hp).symm.trans hf)
    obtain rfl := raise_next.mp (hleft.symm.trans hs)
    obtain rfl := raise_next.mp (hright.symm.trans ht)
    exact h.fault (op := .decStep) hleft hright

theorem decFinal (h : SameView s t) (hs : execDecFinal s = .next s') (ht : execDecFinal t = .next t') :
    SameView (endStep s') (endStep t') := by
  obtain ⟨hp, -, rfl⟩ := execDecFinal_next.mp hs
  obtain ⟨-, -, rfl⟩ := execDecFinal_next.mp ht
  exact h.afterExec (op := .decFinal) hs ht rfl h.errCode nofun nofun fun _ => (h.decoder hp).2

/-- The same operation is enabled in both machines, or both wait. -/
theorem coreStep (h : SameView s t) (hs : coreStep s = .next s') (ht : coreStep t = .next t') : SameView s' t' := by
  obtain ⟨hop, rfl⟩ | ⟨op, u, hop, hu, rfl⟩ := coreStep_next.mp hs <;>
    obtain ⟨hop', rfl⟩ | ⟨op', u', hop', hu', rfl⟩ := coreStep_next.mp ht <;>
    rw [← h.enabledOp_eq, hop] at hop'
  · exact h
  · cases hop'
  · cases hop'
  · obtain rfl := Option.some.inj hop'
    obtain ⟨-, rfl⟩ | ⟨-, -, rfl⟩ | ⟨-, -, rfl⟩ | ⟨-, rfl⟩ | ⟨-, h9, rfl⟩ | ⟨-, -, rfl⟩ := enabledOp_cases hop
    · exact h.encInit hu hu'
    · exact h.encStep hu hu'
    · exact h.encFinal hu hu'
    · exact h.decInit hu hu'
    · exact h.decStep h9 hu hu'
    · exact h.decFinal hu hu'

theorem run (h : SameView s t) {k : Nat} (hs : Host.Core.run Sys2Proof.core k s = .next s')
    (ht : Host.Core.run Sys2Proof.core k t = .next t') : SameView s' t' := by
  induction k generalizing s t with
  | zero =>
    cases hs
    cases ht
    exact h
  | succ k ih =>
    obtain ⟨u, hstep, hrun⟩ := run_succ_next.mp hs
    obtain ⟨u', hstep', hrun'⟩ := run_succ_next.mp ht
    exact ih (h.coreStep (step_nil h.hosts.1 ▸ hstep) (step_nil h.hosts.2 ▸ hstep')) hrun hrun'

end SameView

/-- An accepted command leaves nothing to see but the input. -/
theorem sameView_of_command {s t : State} {p : Phase} (hp : p = .encInit ∨ p = .decInit) (hcfg : s.cfg = t.cfg)
    (hinput : s.inputBytes = t.inputBytes) :
    SameView { s with host := [], errCode := 0, phase := p } { t with host := [], errCode := 0, phase := p } :=
  { phase := rfl
    errCode := rfl
    cfg := hcfg
    input := hinput
    hosts := ⟨rfl, rfl⟩
    encoder := fun hrun => by rcases hp with rfl | rfl <;> cases hrun
    decoder := fun hrun => by rcases hp with rfl | rfl <;> cases hrun
    result := fun hdone => by rcases hp with rfl | rfl <;> cases hdone }

/-- Settles O53: the first step accepts the command in both machines, and the rest of the runs look the same. -/
theorem commandsDependOnTheInputAlone : Obligations.CommandsDependOnTheInputAlone := by
  intro s₁ s₂ w hidle₁ hidle₂ hhost₁ hhost₂ hw hcfg _ hinput k t₁ t₂ hk hrun₁ hrun₂
  obtain ⟨k, rfl⟩ : ∃ n, k = n + 1 := ⟨k - 1, by omega⟩
  obtain ⟨p, hp, hcmd⟩ :
      ∃ p : Phase, (p = .encInit ∨ p = .decInit) ∧ (w % 4 = 1 ∧ p = .encInit ∨ w % 4 = 2 ∧ p = .decInit) := by
    rcases hw with hw | hw
    · exact ⟨_, .inl rfl, .inl ⟨hw, rfl⟩⟩
    · exact ⟨_, .inr rfl, .inr ⟨hw, rfl⟩⟩
  obtain ⟨u₁, hstep₁, hrest₁⟩ := run_succ_next.mp hrun₁
  obtain ⟨u₂, hstep₂, hrest₂⟩ := run_succ_next.mp hrun₂
  cases (step_command hidle₁ hhost₁ hcmd).symm.trans hstep₁
  cases (step_command hidle₂ hhost₂ hcmd).symm.trans hstep₂
  have hend := (sameView_of_command hp hcfg hinput).run hrest₁ hrest₂
  exact ⟨hend.phase, hend.errCode, fun hdone =>
    ⟨SameView.outLen_eq (hend.result hdone), hend.result hdone⟩⟩

end Sys2Proof.Machine
end

section
/-! PROOFS, layer 18. The Decoder unit: how a decompression starts and ends (O34, O39), what the two tokens append (O35,
O36), which token stands at RP (O38), and that a failure is the only effect of its step (O52). -/

namespace Sys2Proof.Machine

/-! ### The start and the end of a decompression (43_decoder.md R155, R160) -/

/-- Settles O34: DEC.INIT splits on IN_LEN = 0 and on nothing else. -/
theorem decInitStartsOrFaults : Obligations.DecInitStartsOrFaults :=
  fun _ => ⟨fun hp h0 => execDecInit_next.mpr ⟨hp, .inl ⟨h0, rfl⟩⟩,
    fun hp h0 => execDecInit_next.mpr ⟨hp, .inr ⟨h0, rfl⟩⟩⟩

/-- In DONE, STATUS shows DONE and not BUSY (10_state.md R23). -/
theorem status_of_done {s : State} (h : s.phase = .done) :
    s.status.getLsbD 0 = false ∧ s.status.getLsbD 1 = true := by
  simp [State.status, State.err, State.done, State.busy, h]

/-- Settles O39: DEC.FINAL writes PHASE and looks at no bit of the stream. -/
theorem decFinalEndsTheCommand : Obligations.DecFinalEndsTheCommand :=
  fun _ hp h9 => ⟨execDecFinal_next.mpr ⟨hp, h9, rfl⟩, fun _ ht => status_of_done (phase_of_execDecFinal ht)⟩

/-! ### Token LIT (43_decoder.md R157) -/

theorem afterLit_outAppended (b : Byte) (s : State) : OutAppended s (afterLit b s) [b] := by
  refine { outLen := rfl, added := fun k hk => ?_, elsewhere := fun a ha => ?_ }
  · obtain rfl : k = 0 := by simpa using hk
    simp [afterLit, appendOut_outByte]
  · rw [List.length_singleton] at ha
    have hne : a ≠ s.outLen := by omega
    exact Memory.get_set_other s.outMem b hne

/-- LIT without room, by the reason there is none. -/
theorem execLit_of_no_room {b : Byte} {s : State} {r : Refusal} (hp : s.phase = .decRun) (h9 : 9 ≤ s.remain)
    (hroom : outRoom s 1 = some r) : execLit b s = .refused r := by
  rw [execLit_of_decRun hp, if_pos h9, hroom]
  rfl

/-- Settles O35, by the room for one byte. -/
theorem litTokenAppendsItsByte : Obligations.LitTokenAppendsItsByte := by
  refine fun s b hp h9 => ⟨fun hroom => ?_, fun r hroom => execLit_of_no_room hp h9 hroom⟩
  exact ⟨afterLit b s, execLit_next.mpr ⟨hp, h9, hroom, rfl⟩, afterLit_outAppended b s, rfl⟩

/-! ### Token MATCH (43_decoder.md R158, R159) -/

/-- The copy loop repeats the last `d` bytes of the output it starts from. -/
theorem copyLoop_outByte_periodic {s : State} {d n k : Nat} (hd : 1 ≤ d) (hle : d ≤ s.outLen) (hk : k < n) :
    (copyLoop d n s).outByte (s.outLen + k) = s.outByte (s.outLen - d + k % d) := by
  have hrepeats : ∀ j < n, (copyLoop d n s).outByte (s.outLen - d + j) =
      (copyLoop d n s).outByte (s.outLen - d + (d + j)) := fun j hj => by
    have hend : s.outLen - d + (d + j) = s.outLen + j := by omega
    have hback : s.outLen + j - d = s.outLen - d + j := by omega
    rw [hend, (copyLoop_outByte hd hj).resolve_right (by omega), hback]
  have hperiod := apply_mod_of_repeats (f := fun j => (copyLoop d n s).outByte (s.outLen - d + j)) hd hrepeats
    (k := d + k) (by omega)
  have hmod := Nat.mod_lt k hd
  have hend : s.outLen - d + (d + k) = s.outLen + k := by omega
  rw [Nat.add_mod_left, hend] at hperiod
  rw [← hperiod]
  exact copyLoop_outByte_other d n s (.inl (by omega))

theorem afterMatch_outAppended {s : State} {d : Distance} (l : MatchLen) (hd : 1 ≤ d.toNat) (hle : d.toNat ≤ s.outLen) :
    OutAppended s (afterMatch d l s) (wrap ((s.outBytes s.outLen).drop (s.outLen - d.toNat)) l.toNat) := by
  have hsource : ((s.outBytes s.outLen).drop (s.outLen - d.toNat)).length = d.toNat := by
    rw [List.length_drop, outBytes_length, Nat.sub_sub_self hle]
  have hlen := wrap_length (hsource.symm ▸ hd) l.toNat
  refine { outLen := ?_, added := fun k hk => ?_, elsewhere := fun a ha => ?_ }
  · rw [hlen, afterMatch_outLen]
  · rw [hlen] at hk
    have hmod := Nat.mod_lt k hd
    have hbyte := copyLoop_outByte_periodic (s := readMatch d l s) hd hle hk
    rw [readMatch_outLen] at hbyte
    have hindex : s.outLen - d.toNat + k % d.toNat < s.outLen := by omega
    rw [afterMatch, hbyte, wrap_getElem? (hsource.symm ▸ hd) hk, hsource, List.getElem?_drop]
    simp [State.outBytes, hindex, outByte_congr (readMatch_outMem d l s) (readMatch_epoch d l s)]
  · rw [hlen] at ha
    exact copyLoop_get_other d.toNat l.toNat (readMatch d l s) ha

/-- MATCH writes RP, FLAG, B1, B2, DIST, LEN and K besides the output. -/
theorem afterMatch_eq (d : Distance) (l : MatchLen) (s : State) :
    afterMatch d l s =
      { s with
        rp := s.rp + 17, outLen := s.outLen + l.toNat, outMem := (afterMatch d l s).outMem
        loc := { s.loc with
                 flag := true, b1 := matchByte1 d, b2 := matchByte2 d l, dist := d, len := l
                 k := (afterMatch d l s).loc.k } } := by
  rw [afterMatch, copyLoop_frame]
  rfl

/-- The distance check as R158 states it, with STRICT_LEN's part (93_implementation_defined.md U5). -/
theorem badMatch_eq_decide (d : Distance) (l : MatchLen) (s : State) :
    badMatch d l s = decide (d.toNat = 0 ∨ s.outLen < d.toNat ∨ (s.cfg.strictLen = true ∧ l.toNat < 4)) := by
  simp [badMatch, Bool.or_assoc]

theorem badMatch_of_inside {d : Distance} {l : MatchLen} {s : State} (hd : 1 ≤ d.toNat) (hle : d.toNat ≤ s.outLen)
    (hstrict : s.cfg.strictLen = false ∨ 4 ≤ l.toNat) : badMatch d l s = false := by
  rw [badMatch_eq_decide, decide_eq_false_iff_not]
  rintro (h0 | hfar | ⟨hon, hshort⟩)
  · omega
  · omega
  · rcases hstrict with hoff | hlong
    · simp [hon] at hoff
    · omega

/-- A MATCH that raises nothing. -/
theorem execMatchTok_of_good {d : Distance} {l : MatchLen} {s : State} (hp : s.phase = .decRun) (h17 : 17 ≤ s.remain)
    (hgood : badMatch d l s = false) :
    execMatchTok d l s = unlessRefused (outRoom s l.toNat) (afterMatch d l s) := by
  simp [execMatchTok, hp, Nat.not_lt.mpr h17, hgood, afterMatch]

/-- Settles O36, by the room for the copied bytes. -/
theorem matchTokenCopiesPeriodically : Obligations.MatchTokenCopiesPeriodically := by
  intro s d l hp h17 hd hle hstrict
  have hexec := execMatchTok_of_good hp h17 (badMatch_of_inside hd hle hstrict)
  refine ⟨fun hroom => ?_, fun r hroom => ?_⟩
  · rw [hroom] at hexec
    have hloc := congrArg State.loc (afterMatch_eq d l s)
    have hb1 : (afterMatch d l s).loc.b1 = matchByte1 d := congrArg Locals.b1 hloc
    have hb2 : (afterMatch d l s).loc.b2 = matchByte2 d l := congrArg Locals.b2 hloc
    refine ⟨afterMatch d l s, hexec, afterMatch_outAppended l hd hle, afterMatch_outLen d l s, ?_, ?_, ?_⟩
    · rw [hb1, matchByte1_toNat]
    · rw [hb2, matchByte2_toNat]
    · rw [hb1, hb2, afterMatch_outLen]
      exact afterMatch_eq d l s
  · rw [hroom] at hexec
    exact hexec

/-! ### The token in a window of the stream (30_encoding.md R80, R82) -/

/-- The `n` stream bits from bit `p` on. -/
def streamWindow (x : Nat → Byte) (p n : Nat) : List Bool := (List.range n).map fun t => streamBit x (p + t)

section streamWindow
variable (x : Nat → Byte) (p : Nat)

@[simp] theorem streamWindow_length (n : Nat) : (streamWindow x p n).length = n := by simp [streamWindow]

theorem bitsToNat_streamWindow (n : Nat) : bitsToNat (streamWindow x p n) = streamRead x p n :=
  (streamRead_eq_bitsToNat x p n).symm

theorem streamWindow_add (m n : Nat) : streamWindow x p (m + n) = streamWindow x p m ++ streamWindow x (p + m) n := by
  simp [streamWindow, List.range_add, Nat.add_assoc]

theorem streamWindow_succ (n : Nat) : streamWindow x p (n + 1) = streamBit x p :: streamWindow x (p + 1) n := by
  rw [Nat.add_comm n 1, streamWindow_add]
  rfl

variable {n : Nat}

theorem streamWindow_drop {m : Nat} (h : m ≤ n) : (streamWindow x p n).drop m = streamWindow x (p + m) (n - m) := by
  obtain ⟨k, rfl⟩ := Nat.exists_eq_add_of_le h
  rw [streamWindow_add, List.drop_left' (streamWindow_length x p m), Nat.add_sub_cancel_left]

/-- The first byte of a window. -/
theorem byteOfBits_streamWindow (h : 8 ≤ n) : byteOfBits (streamWindow x p n) = BitVec.ofNat 8 (streamRead x p 8) := by
  obtain ⟨k, rfl⟩ := Nat.exists_eq_add_of_le h
  rw [byteOfBits, streamWindow_add, List.append_assoc, List.take_left' (streamWindow_length x p 8),
    bitsToNat_streamWindow]

end streamWindow

/-- The two bytes of a match token as one number: the distance, then the length. -/
theorem matchFields_toNat (b1 b2 : Byte) :
    (matchDistance b1 b2).toNat * 16 + (matchLength b2).toNat = b1.toNat * 256 + b2.toNat := by
  have h1 := matchByte1_toNat (matchDistance b1 b2)
  have h2 := matchByte2_toNat (matchDistance b1 b2) (matchLength b2)
  rw [matchByte1_fields] at h1
  rw [matchByte2_fields] at h2
  omega

/-- The fields of a match token are the high 12 and the low 4 of its 16 bits. -/
theorem matchFields_streamRead (x : Nat → Byte) (p : Nat) :
    matchDistance (BitVec.ofNat 8 (streamRead x p 8)) (BitVec.ofNat 8 (streamRead x (p + 8) 8)) =
        BitVec.ofNat 12 (streamRead x p 16 / 16) ∧
      matchLength (BitVec.ofNat 8 (streamRead x (p + 8) 8)) = BitVec.ofNat 4 (streamRead x p 16 % 16) := by
  have hfields := matchFields_toNat (BitVec.ofNat 8 (streamRead x p 8)) (BitVec.ofNat 8 (streamRead x (p + 8) 8))
  have hsplit : streamRead x p 16 = streamRead x p 8 * 2 ^ 8 + streamRead x (p + 8) 8 := streamRead_add x p 8 8
  have hfirst := streamRead_lt x p 8
  have hsecond := streamRead_lt x (p + 8) 8
  have hlen := (matchLength (BitVec.ofNat 8 (streamRead x (p + 8) 8))).isLt
  rw [BitVec.toNat_ofNat, BitVec.toNat_ofNat, Nat.mod_eq_of_lt hfirst, Nat.mod_eq_of_lt hsecond] at hfields
  constructor <;> refine BitVec.eq_of_toNat_eq ?_ <;> rw [BitVec.toNat_ofNat] <;> omega

section decodeWindow
variable {x : Nat → Byte} {p n : Nat}

theorem decodeBits_streamWindow_of_short (h : n < 9) : decodeBits (streamWindow x p n) = .padding :=
  decodeBits_of_short (by rwa [streamWindow_length])

theorem decodeBits_streamWindow_of_lit (h9 : 9 ≤ n) (hflag : streamBit x p = false) :
    decodeBits (streamWindow x p n) =
      .token (.lit (BitVec.ofNat 8 (streamRead x (p + 1) 8))) (streamWindow x (p + 9) (n - 9)) := by
  obtain ⟨m, rfl⟩ := Nat.exists_eq_add_of_le' (show 1 ≤ n by omega)
  have h8 : 8 ≤ m := by omega
  rw [streamWindow_succ, hflag, decodeBits_of_lit (by rwa [streamWindow_length]), byteOfBits_streamWindow x _ h8,
    streamWindow_drop x _ h8, Nat.add_assoc, Nat.add_sub_add_right m 1 8]

theorem decodeBits_streamWindow_of_truncated (h9 : 9 ≤ n) (h17 : n < 17) (hflag : streamBit x p = true) :
    decodeBits (streamWindow x p n) = .truncatedMatch := by
  obtain ⟨m, rfl⟩ := Nat.exists_eq_add_of_le' (show 1 ≤ n by omega)
  rw [streamWindow_succ, hflag]
  exact decodeBits_of_truncated (by rw [streamWindow_length]; omega) (by rw [streamWindow_length]; omega)

theorem decodeBits_streamWindow_of_match (h17 : 17 ≤ n) (hflag : streamBit x p = true) :
    decodeBits (streamWindow x p n) =
      .token
        (.matchTok (BitVec.ofNat 12 (streamRead x (p + 1) 16 / 16)) (BitVec.ofNat 4 (streamRead x (p + 1) 16 % 16)))
        (streamWindow x (p + 17) (n - 17)) := by
  obtain ⟨m, rfl⟩ := Nat.exists_eq_add_of_le' (show 1 ≤ n by omega)
  obtain ⟨hdist, hlen⟩ := matchFields_streamRead x (p + 1)
  have h16 : 16 ≤ m := by omega
  rw [streamWindow_succ, hflag, decodeBits_of_match (by rwa [streamWindow_length]), streamWindow_drop x _ h16,
    streamWindow_drop x _ (by omega), byteOfBits_streamWindow x _ (by omega), byteOfBits_streamWindow x _ (by omega),
    hdist, hlen, Nat.add_assoc, Nat.add_sub_add_right m 1 16]

end decodeWindow

/-! ### DEC.STEP (43_decoder.md R156) -/

section decStep
variable {s : State}

/-- The Decoder looks at the window of the input from RP on. -/
theorem fetched_eq_streamWindow (s : State) : s.fetched = decodeBits (streamWindow s.inByte s.rp (min 17 s.remain)) :=
  rfl

theorem execDecStep_of_flag_false (hp : s.phase = .decRun) (h9 : 9 ≤ s.remain) (hflag : s.inBit s.rp = false) :
    execDecStep s = execLit (BitVec.ofNat 8 (s.bitRead (s.rp + 1) 8)) s :=
  execDecStep_of_token hp
    ((fetched_eq_streamWindow s).trans (decodeBits_streamWindow_of_lit (Nat.le_min.mpr ⟨by decide, h9⟩) hflag))

theorem execDecStep_of_flag_true (hp : s.phase = .decRun) (h17 : 17 ≤ s.remain) (hflag : s.inBit s.rp = true) :
    execDecStep s =
      execMatchTok (BitVec.ofNat 12 (s.bitRead (s.rp + 1) 16 / 16)) (BitVec.ofNat 4 (s.bitRead (s.rp + 1) 16 % 16)) s :=
  execDecStep_of_token hp
    ((fetched_eq_streamWindow s).trans (decodeBits_streamWindow_of_match (Nat.le_min.mpr ⟨le_rfl, h17⟩) hflag))

theorem execDecStep_of_cut_match (hp : s.phase = .decRun) (h9 : 9 ≤ s.remain) (h17 : s.remain < 17)
    (hflag : s.inBit s.rp = true) : execDecStep s = raise .truncated s :=
  execDecStep_of_truncated hp
    ((fetched_eq_streamWindow s).trans
      (decodeBits_streamWindow_of_truncated (Nat.le_min.mpr ⟨by decide, h9⟩) (by omega) hflag))

/-- What a token of DEC_RUN raises, as its only effect. -/
theorem execDecStep_fault {t : State} (h : execDecStep s = .next t) (hfault : t.phase = .fault) :
    ∃ f, (f = .truncated ∨ f = .distance) ∧ t = { s with errCode := faultCode f, phase := .fault } := by
  obtain ⟨hp, -⟩ := execDecStep_cases h
  have h9 : 9 ≤ s.remain := Nat.not_lt.mp fun h9 => by
    rw [execDecStep_of_not_enabled (.inr h9)] at h
    cases h
  obtain ⟨b, rest, hf⟩ | ⟨d, l, rest, hf⟩ | hf := fetched_cases h9
  · obtain ⟨-, -, -, rfl⟩ := execLit_next.mp ((execDecStep_of_token hp hf).symm.trans h)
    simp [hp] at hfault
  · obtain ⟨-, ⟨-, rfl⟩ | ⟨-, -, rfl⟩ | ⟨-, -, -, rfl⟩⟩ :=
      execMatchTok_next.mp ((execDecStep_of_token hp hf).symm.trans h)
    · exact ⟨.truncated, .inl rfl, rfl⟩
    · exact ⟨.distance, .inr rfl, rfl⟩
    · simp [hp] at hfault
  · exact ⟨.truncated, .inl rfl, raise_next.mp ((execDecStep_of_truncated hp hf).symm.trans h)⟩

end decStep

/-- Settles O38: the window from RP on begins with the token, and LIT's effect is that of O35. -/
theorem decStepExecutesTheTokenAtRp : Obligations.DecStepExecutesTheTokenAtRp := by
  intro s hp
  refine ⟨fun h9 hflag hroom => ?_, execDecStep_of_flag_false hp, execDecStep_of_flag_true hp,
    execDecStep_of_cut_match hp⟩
  obtain ⟨t, ht, happ, heq⟩ := (litTokenAppendsItsByte s _ hp h9).1 hroom
  exact ⟨t, (execDecStep_of_flag_false hp h9 hflag).trans ht, happ, heq⟩

/-! ### Failures (60_exceptions.md R195 to R197) -/

/-- Everything a CORE step into FAULT can be: `raise` and the end of the step. -/
theorem coreStep_into_fault {s t : State} (hs : s.phase ≠ .fault) (h : coreStep s = .next t) (ht : t.phase = .fault) :
    ∃ f, t = endStep { s with errCode := faultCode f, phase := .fault } ∧
      ((f = .emptyInput ∧ s.phase = .decInit ∧ s.inLen = 0) ∨
        ((f = .truncated ∨ f = .distance) ∧ s.phase = .decRun)) := by
  obtain ⟨-, rfl⟩ | ⟨op, u, hop, hu, rfl⟩ := coreStep_next.mp h
  · contradiction
  rw [endStep_phase] at ht
  obtain ⟨-, rfl⟩ | ⟨-, -, rfl⟩ | ⟨-, -, rfl⟩ | ⟨hp, rfl⟩ | ⟨hp, -, rfl⟩ | ⟨-, -, rfl⟩ := enabledOp_cases hop
  · simp [phase_of_execEncInit hu] at ht
  · simp [phase_of_execEncStep hu] at ht
  · simp [phase_of_execEncFinal hu] at ht
  · obtain ⟨-, ⟨h0, rfl⟩ | ⟨-, rfl⟩⟩ := execDecInit_next.mp hu
    · exact ⟨.emptyInput, rfl, .inl ⟨rfl, hp, h0⟩⟩
    · cases ht
  · obtain ⟨f, hf, rfl⟩ := execDecStep_fault hu ht
    exact ⟨f, rfl, .inr ⟨hf, hp⟩⟩
  · simp [phase_of_execDecFinal hu] at ht

/-- Settles O52: the end of a step into FAULT frees neither the memories and lengths nor RP. -/
theorem faultsArePrecise : Obligations.FaultsArePrecise := by
  intro s t hhost hs hstep ht
  obtain ⟨f, rfl, hf⟩ := coreStep_into_fault hs (step_nil hhost ▸ hstep) ht
  refine ⟨?_, rfl, rfl, rfl, rfl, rfl⟩
  obtain ⟨rfl, hp, h0⟩ | ⟨rfl | rfl, hp⟩ := hf
  · exact .inl ⟨hp, h0, rfl⟩
  · exact .inr ⟨hp, .inl rfl⟩
  · exact .inr ⟨hp, .inr rfl⟩

end Sys2Proof.Machine
end

section
/-! PROOFS, layer 19. `decompress` token by token, on the bits of its input: what it does not look at (O40), and how
much it returns (O41). -/

namespace Sys2Proof.Machine

/-! ### What one token does to the output (43_decoder.md R161) -/

/-- The output after one token, or the failure the token raises; an instruction that is no token leaves the output. -/
def tokenOutput (strict : Bool) (i : Instr) (out : List Byte) : Decompressed :=
  match i with
  | .lit b => .ok (out ++ [b])
  | .matchTok d l =>
    if d.toNat = 0 ∨ out.length < d.toNat ∨ (strict = true ∧ l.toNat < 4) then .failed .distance
    else .ok (copyBytes d.toNat l.toNat out)
  | _ => .ok out

/-- Go on from the output so far, unless a token has failed. -/
def Decompressed.andThen (r : Decompressed) (next : List Byte → Decompressed) : Decompressed :=
  match r with
  | .ok out => next out
  | .failed f => .failed f

@[simp] theorem Decompressed.andThen_ok (out : List Byte) (next : List Byte → Decompressed) :
    (Decompressed.ok out).andThen next = next out := rfl

@[simp] theorem Decompressed.andThen_failed (f : Fault) (next : List Byte → Decompressed) :
    (Decompressed.failed f).andThen next = .failed f := rfl

@[simp] theorem tokenOutput_lit (strict : Bool) (b : Byte) (out : List Byte) :
    tokenOutput strict (.lit b) out = .ok (out ++ [b]) := rfl

theorem tokenOutput_matchTok (strict : Bool) (d : Distance) (l : MatchLen) (out : List Byte) :
    tokenOutput strict (.matchTok d l) out =
      if d.toNat = 0 ∨ out.length < d.toNat ∨ (strict = true ∧ l.toNat < 4) then .failed .distance
      else .ok (copyBytes d.toNat l.toNat out) := rfl

@[simp] theorem copyBytes_length (d n : Nat) (out : List Byte) : (copyBytes d n out).length = out.length + n := by
  induction n with
  | zero => rfl
  | succ n ih => rw [copyBytes_succ, List.length_append, ih, List.length_singleton, Nat.add_assoc]

/-- A token pays with its bits for the bytes it appends (43_decoder.md R169). -/
theorem tokenOutput_length_le {strict : Bool} {i : Instr} {out v : List Byte} {bits : Nat} (hi : isToken i = true)
    (h : tokenOutput strict i out = .ok v) (hout : out.length ≤ outBound bits) :
    v.length ≤ outBound (bits + (tokenBits i).length) := by
  obtain ⟨b, rfl⟩ | ⟨d, l, rfl⟩ := isToken_iff.mp hi
  · have hcost := outBound_lit bits
    obtain rfl := Decompressed.ok.inj h
    rw [tokenBits_lit, litTokenOf_length, List.length_append, List.length_singleton]
    omega
  · have hcost := outBound_match bits
    have hlen := l.isLt
    rw [tokenOutput_matchTok] at h
    split at h
    · cases h
    · obtain rfl := Decompressed.ok.inj h
      rw [tokenBits_matchTok, matchTokenOf_length, copyBytes_length]
      omega

/-! ### The loop of `decompress`, on the bits of its input -/

/-- What follows bit `p` of a byte sequence is the window to its end. -/
theorem bytesBits_drop (c : List Byte) (p : Nat) :
    (bytesBits c).drop p = streamWindow (fun a => c.getD a 0) p (8 * c.length - p) := by
  refine List.ext_getElem? fun k => ?_
  rw [List.getElem?_drop]
  rcases Nat.lt_or_ge k (8 * c.length - p) with hk | hk
  · rw [bytesBits_getElem? c (by omega)]
    simp [streamWindow, hk]
  · rw [List.getElem?_eq_none (by rw [bytesBits_length]; omega),
      List.getElem?_eq_none (by rw [streamWindow_length]; exact hk)]

/-- A token of the stream ends inside it, and the rest of the bits follow. -/
theorem token_end_le {c : List Byte} {rp : Nat} {i : Instr} {rest : List Bool}
    (h : decodeBits ((bytesBits c).drop rp) = .token i rest) :
    rp + (tokenBits i).length ≤ 8 * c.length ∧ (bytesBits c).drop (rp + (tokenBits i).length) = rest := by
  obtain ⟨hi, hbits⟩ := decodeBits_token h
  have hsize := tokenBits_length hi
  have hlen := congrArg List.length hbits
  rw [List.length_drop, bytesBits_length, List.length_append] at hlen
  exact ⟨by omega, by rw [← List.drop_drop, hbits, List.drop_left]⟩

section decompressFrom
variable (strict : Bool) (c : List Byte) (fuel rp : Nat) (out : List Byte)

/-- One iteration: the loop ends at padding, fails at a match cut short, or goes on after a token. -/
theorem decompressFrom_succ_cases :
    (decodeBits ((bytesBits c).drop rp) = .padding ∧ decompressFrom strict c (fuel + 1) rp out = .ok out) ∨
      (decodeBits ((bytesBits c).drop rp) = .truncatedMatch ∧
        decompressFrom strict c (fuel + 1) rp out = .failed .truncated) ∨
      ∃ i rest, decodeBits ((bytesBits c).drop rp) = .token i rest ∧
        decompressFrom strict c (fuel + 1) rp out =
          (tokenOutput strict i out).andThen (decompressFrom strict c fuel (rp + (tokenBits i).length)) := by
  rw [bytesBits_drop, decompressFrom]
  rcases Nat.lt_or_ge (8 * c.length - rp) 9 with h9 | h9
  · exact .inl ⟨decodeBits_streamWindow_of_short h9, if_pos h9⟩
  rw [if_neg (Nat.not_lt.mpr h9)]
  cases hflag : streamBit (fun a => c.getD a 0) rp with
  | false => exact .inr (.inr ⟨_, _, decodeBits_streamWindow_of_lit h9 hflag, if_pos rfl⟩)
  | true =>
    rw [if_neg (by decide : ¬true = false)]
    rcases Nat.lt_or_ge (8 * c.length - rp) 17 with h17 | h17
    · exact .inr (.inl ⟨decodeBits_streamWindow_of_truncated h9 h17 hflag, if_pos h17⟩)
    · refine .inr (.inr ⟨_, _, decodeBits_streamWindow_of_match h17 hflag, ?_⟩)
      have hread := streamRead_lt (fun a => c.getD a 0) (rp + 1) 16
      have hdist : streamRead (fun a => c.getD a 0) (rp + 1) 16 / 16 % 2 ^ 12 =
          streamRead (fun a => c.getD a 0) (rp + 1) 16 / 16 := Nat.mod_eq_of_lt (by omega)
      rw [if_neg (Nat.not_lt.mpr h17), tokenOutput_matchTok, BitVec.toNat_ofNat, BitVec.toNat_ofNat, hdist,
        Nat.mod_mod, tokenBits_matchTok, matchTokenOf_length,
        apply_ite (Decompressed.andThen · (decompressFrom strict c fuel (rp + 17)))]
      rfl

variable {strict c rp out}

/-- The loop ends where fewer than 9 bits are left. -/
theorem decompressFrom_of_padding (h : decodeBits ((bytesBits c).drop rp) = .padding) :
    decompressFrom strict c fuel rp out = .ok out := by
  cases fuel with
  | zero => rfl
  | succ fuel =>
    obtain ⟨-, heq⟩ | ⟨h', -⟩ | ⟨i, rest, h', -⟩ := decompressFrom_succ_cases strict c fuel rp out
    · exact heq
    · cases h.symm.trans h'
    · cases h.symm.trans h'

theorem decompressFrom_of_token {i : Instr} {rest : List Bool}
    (h : decodeBits ((bytesBits c).drop rp) = .token i rest) :
    decompressFrom strict c (fuel + 1) rp out =
      (tokenOutput strict i out).andThen (decompressFrom strict c fuel (rp + (tokenBits i).length)) := by
  obtain ⟨h', -⟩ | ⟨h', -⟩ | ⟨j, rest', h', heq⟩ := decompressFrom_succ_cases strict c fuel rp out
  · cases h.symm.trans h'
  · cases h.symm.trans h'
  · cases h.symm.trans h'
    exact heq

end decompressFrom

/-! ### Trailing bits (43_decoder.md R162) -/

/-- Byte sequences that go on with the same tokens, and then with padding only, decompress to the same. -/
theorem decompressFrom_congr {strict : Bool} {x y : List Byte} {T : List Instr} {left left' : List Bool}
    (hT : ∀ i ∈ T, isToken i = true) (hleft : left.length < 9) (hleft' : left'.length < 9) (fuel : Nat) {rp : Nat}
    {out : List Byte} (hx : (bytesBits x).drop rp = T.flatMap tokenBits ++ left)
    (hy : (bytesBits y).drop rp = T.flatMap tokenBits ++ left') :
    decompressFrom strict x fuel rp out = decompressFrom strict y fuel rp out := by
  induction T generalizing fuel rp out with
  | nil =>
    rw [decompressFrom_of_padding fuel (hx ▸ decodeBits_of_short hleft),
      decompressFrom_of_padding fuel (hy ▸ decodeBits_of_short hleft')]
  | cons i T ih =>
    obtain ⟨hi, hT⟩ := List.forall_mem_cons.mp hT
    cases fuel with
    | zero => rfl
    | succ fuel =>
      rw [List.flatMap_cons, List.append_assoc] at hx hy
      have hfirst := hx ▸ decodeBits_tokenBits_append hi (T.flatMap tokenBits ++ left)
      have hsecond := hy ▸ decodeBits_tokenBits_append hi (T.flatMap tokenBits ++ left')
      rw [decompressFrom_of_token fuel hfirst, decompressFrom_of_token fuel hsecond]
      congr 1
      funext out
      exact ih hT fuel (token_end_le hfirst).2 (token_end_le hsecond).2

/-- Settles O40: both inputs are the same tokens and fewer than 9 bits. -/
theorem trailingBitsAreNotInterpreted : Obligations.TrailingBitsAreNotInterpreted := by
  intro x y hlen hleft hsame
  obtain ⟨hall, hbits, -⟩ := disassembleBits_spec (8 * x.length) (bytesBits x)
  rw [← disassemble] at hall hbits
  have hy := List.take_append_drop ((disassemble x).1.flatMap tokenBits).length (bytesBits y)
  rw [hsame] at hy
  have hleft' : ((bytesBits y).drop ((disassemble x).1.flatMap tokenBits).length).length < 9 := by
    have hcount := congrArg List.length hbits
    rw [List.length_append, bytesBits_length] at hcount
    rw [List.length_drop, bytesBits_length]
    omega
  rw [decompress, decompress, decompressWith, decompressWith, ← hlen,
    decompressFrom_congr (rp := 0) hall hleft hleft' (8 * x.length) hbits.symm hy.symm]

/-! ### The size of the result (43_decoder.md R169) -/

theorem outBound_mono {m n : Nat} (h : m ≤ n) : outBound m ≤ outBound n := by
  unfold outBound
  omega

/-- The loop keeps the output within what the bits read so far pay for. -/
theorem decompressFrom_length_le {strict : Bool} {c v : List Byte} {fuel rp : Nat} {out : List Byte}
    (h : decompressFrom strict c fuel rp out = .ok v) (hrp : rp ≤ 8 * c.length) (hout : out.length ≤ outBound rp) :
    v.length ≤ outBound (8 * c.length) := by
  have hend := outBound_mono hrp
  induction fuel generalizing rp out with
  | zero =>
    obtain rfl := Decompressed.ok.inj h
    omega
  | succ fuel ih =>
    obtain ⟨-, heq⟩ | ⟨-, heq⟩ | ⟨i, rest, hdecode, heq⟩ := decompressFrom_succ_cases strict c fuel rp out <;>
      rw [heq] at h
    · obtain rfl := Decompressed.ok.inj h
      omega
    · cases h
    · cases hstep : tokenOutput strict i out with
      | failed f =>
        rw [hstep] at h
        cases h
      | ok out' =>
        rw [hstep] at h
        have hinside := (token_end_le hdecode).1
        exact ih h hinside (tokenOutput_length_le (decodeBits_token hdecode).1 hstep hout) (outBound_mono hinside)

/-- Settles O41: the loop starts with no output, and a failure returns none. -/
theorem decompressedSizeIsBounded : Obligations.DecompressedSizeIsBounded := by
  intro c v h
  rw [decompress, decompressWith] at h
  split at h
  · cases h
  · exact decompressFrom_length_le h (Nat.zero_le _) (Nat.zero_le _)

end Sys2Proof.Machine
end

section
/-! PROOFS, layer 20. The run of a DECOMPRESS computes `decompress` (O43). -/

namespace Sys2Proof.Machine

/-! ### What the Decoder looks at is enough (43_decoder.md R156) -/

section fetched
variable {s : State}

theorem fetched_of_token {i : Instr} {rest : List Bool}
    (h : decodeBits ((bytesBits s.inputBytes).drop s.rp) = .token i rest) : ∃ r, s.fetched = .token i r := by
  rw [State.fetched, fetchBits_eq]
  exact decodeBits_take h

/-- Where the rest of the stream begins with no token, the Decoder looks at all of it. -/
theorem fetched_of_no_token (h : ∀ i rest, decodeBits ((bytesBits s.inputBytes).drop s.rp) ≠ .token i rest) :
    s.fetched = decodeBits ((bytesBits s.inputBytes).drop s.rp) := by
  have hshort : ((bytesBits s.inputBytes).drop s.rp).length ≤ 17 := by
    obtain h9 | ⟨r, hr, h16⟩ := isLeftover_of_decodeBits h
    · omega
    · rw [hr, List.length_cons]
      omega
  rw [State.fetched, fetchBits_eq, List.take_of_length_le hshort]

end fetched

/-! ### The run of a decompression -/

/-- DEC_RUN with no HOST move to come, an output that the bits read so far have paid for, and room for whatever the rest
of the input decompresses to. -/
structure Decompressing (s : State) : Prop where
  phase : s.phase = .decRun
  host : s.host = []
  errCode : s.errCode = 0
  inside : s.rp ≤ 8 * s.inLen
  size : s.outLen ≤ outBound s.rp
  room : decompressRoom s.cfg s.inLen = true

/-- The command has ended in `t` as `r` says (44_host_commands.md R176). -/
def EndedWith (r : Decompressed) (t : State) : Prop :=
  match r with
  | .ok v => t.phase = .done ∧ t.errCode = 0 ∧ t.outputBytes = v
  | .failed f => t.phase = .fault ∧ t.errCode = faultCode f

/-- On the output of the machine, a match fails as the machine's distance check says. -/
theorem tokenOutput_matchTok_outputBytes (s : State) (d : Distance) (l : MatchLen) :
    tokenOutput s.cfg.strictLen (.matchTok d l) s.outputBytes =
      if badMatch d l s = true then .failed .distance else .ok (copyBytes d.toNat l.toNat s.outputBytes) := by
  simp only [tokenOutput_matchTok, outputBytes_length, badMatch_eq_decide, decide_eq_true_iff]

/-- A failure of the token at RP ends the command in FAULT. -/
theorem coreStep_of_raise {s : State} {f : Fault} (hexec : coreStep s = finishStep (raise f s)) :
    ∃ u, coreStep s = .next u ∧ EndedWith (.failed f) u := ⟨_, hexec, rfl, rfl⟩

namespace Decompressing
variable {s : State}

/-- Any output within the bound of the whole input fits. -/
theorem outRoom_eq_none (h : Decompressing s) {n : Nat} (hn : s.outLen + n ≤ outBound (8 * s.inLen)) :
    outRoom s n = none := by
  obtain ⟨hcap, hwidth⟩ := Bool.and_eq_true_iff.mp h.room
  exact Machine.outRoom_eq_none.mpr (.inr ⟨fitsCap_mono hcap hn, fitsLen_mono hwidth hn⟩)

/-- A token that fails on the output so far raises the failure. -/
theorem exec_of_failed (h : Decompressing s) {i : Instr} {f : Fault} (hi : isToken i = true)
    (hbits : (tokenBits i).length ≤ s.remain) (hout : tokenOutput s.cfg.strictLen i s.outputBytes = .failed f) :
    exec i s = raise f s := by
  obtain ⟨b, rfl⟩ | ⟨d, l, rfl⟩ := isToken_iff.mp hi
  · cases hout
  · rw [tokenOutput_matchTok_outputBytes] at hout
    rw [tokenBits_matchTok, matchTokenOf_length] at hbits
    split at hout
    · rename_i hbad
      cases hout
      exact execMatchTok_next.mpr ⟨h.phase, .inr (.inl ⟨hbits, hbad, rfl⟩)⟩
    · cases hout

/-- Any other token leaves its output and moves RP by its bits. -/
theorem exec_of_ok (h : Decompressing s) {i : Instr} {v : List Byte} (hi : isToken i = true)
    (hbits : (tokenBits i).length ≤ s.remain) (hout : tokenOutput s.cfg.strictLen i s.outputBytes = .ok v) :
    ∃ t, exec i s = .next t ∧ t.phase = .decRun ∧ t.errCode = 0 ∧ t.rp = s.rp + (tokenBits i).length ∧
      t.outputBytes = v := by
  have hsize : v.length ≤ outBound (8 * s.inLen) := by
    have hend : s.rp + (tokenBits i).length ≤ 8 * s.inLen := by
      have hinside := h.inside
      rw [State.remain] at hbits
      omega
    exact (tokenOutput_length_le hi hout (outputBytes_length s ▸ h.size)).trans (outBound_mono hend)
  obtain ⟨b, rfl⟩ | ⟨d, l, rfl⟩ := isToken_iff.mp hi
  · obtain rfl := Decompressed.ok.inj hout
    rw [List.length_append, List.length_singleton, outputBytes_length] at hsize
    rw [tokenBits_lit, litTokenOf_length] at hbits ⊢
    exact ⟨afterLit b s, execLit_next.mpr ⟨h.phase, hbits, h.outRoom_eq_none hsize, rfl⟩, h.phase, h.errCode, rfl,
      afterLit_outputBytes s b⟩
  · rw [tokenOutput_matchTok_outputBytes] at hout
    split at hout
    · cases hout
    · rename_i hbad
      obtain rfl := Decompressed.ok.inj hout
      have hgood : badMatch d l s = false := Bool.eq_false_iff.mpr hbad
      rw [copyBytes_length, outputBytes_length] at hsize
      rw [tokenBits_matchTok, matchTokenOf_length] at hbits ⊢
      refine ⟨afterMatch d l s,
        execMatchTok_next.mpr ⟨h.phase, .inr (.inr ⟨hbits, hgood, h.outRoom_eq_none hsize, rfl⟩)⟩,
        (afterMatch_phase d l s).trans h.phase, ?_, afterMatch_rp d l s, afterMatch_outputBytes hgood⟩
      rw [afterMatch_eq]
      exact h.errCode

/-- A CORE step that ends the command is a run of one step. -/
theorem run_of_coreStep (h : Decompressing s) {u : State} {r : Decompressed} (hstep : coreStep s = .next u)
    (hend : EndedWith r u) :
    ∃ k t, k ≤ s.remain / 9 + 1 ∧ Host.Core.run Sys2Proof.core k s = .next t ∧ SameInput s t ∧ EndedWith r t :=
  ⟨1, u, Nat.le_add_left _ _, run_succ_next.mpr ⟨u, (step_nil h.host).trans hstep, rfl⟩, sameInput_of_coreStep hstep,
    hend⟩

/-- Padding ends the command in DONE, with the output so far. -/
theorem coreStep_of_padding (h : Decompressing s)
    (hdecode : decodeBits ((bytesBits s.inputBytes).drop s.rp) = .padding) :
    ∃ u, coreStep s = .next u ∧ EndedWith (.ok s.outputBytes) u := by
  have hfetched := (fetched_of_no_token (by simp [hdecode])).trans hdecode
  have h9 : s.remain < 9 := Nat.not_le.mp fun h9 => by
    obtain ⟨b, rest, hf⟩ | ⟨d, l, rest, hf⟩ | hf := fetched_cases h9 <;> cases hfetched.symm.trans hf
  have hexec : exec .decFinal s = .next { s with phase := .done } := execDecFinal_next.mpr ⟨h.phase, h9, rfl⟩
  refine ⟨_, (coreStep_of_decRun_lt h.phase h9).trans (congrArg finishStep hexec), rfl, h.errCode, rfl⟩

/-- The token at RP is run, and the rest of the input is decompressed from there. -/
theorem step_token (h : Decompressing s) {i : Instr} {rest : List Bool} {v : List Byte}
    (hdecode : decodeBits ((bytesBits s.inputBytes).drop s.rp) = .token i rest)
    (hout : tokenOutput s.cfg.strictLen i s.outputBytes = .ok v) :
    ∃ u, step s = .next u ∧ Decompressing u ∧ SameInput s u ∧ u.rp = s.rp + (tokenBits i).length ∧
      u.outputBytes = v := by
  have hi := (decodeBits_token hdecode).1
  have hend := (token_end_le hdecode).1
  rw [inputBytes_length] at hend
  obtain ⟨r, hfetched⟩ := fetched_of_token hdecode
  obtain ⟨t, ht, hphase, herr, hrp, hbytes⟩ := h.exec_of_ok hi (by rw [State.remain]; omega) hout
  have hcore : Machine.coreStep s = .next (endStep t) :=
    (coreStep_of_token h.phase hfetched).trans (congrArg finishStep ht)
  have hsame := sameInput_of_coreStep hcore
  have hrp' := (endStep_rp_of_decRun t hphase).trans hrp
  have hsize := tokenOutput_length_le hi hout (outputBytes_length s ▸ h.size)
  rw [← hbytes, outputBytes_length] at hsize
  refine ⟨endStep t, (step_nil h.host).trans hcore, ?_, hsame, hrp', hbytes⟩
  exact
    { phase := hphase
      host := hsame.host.trans h.host
      errCode := herr
      inside := by rw [hrp', hsame.inLen]; exact hend
      size := by rw [hrp']; exact hsize
      room := by rw [hsame.cfg, hsame.inLen]; exact h.room }

/-- CORE runs the tokens of the rest of the input as `decompress` does, one a step. -/
theorem run (h : Decompressing s) {fuel : Nat} (hfuel : s.remain ≤ fuel) :
    ∃ k t, k ≤ s.remain / 9 + 1 ∧ Host.Core.run Sys2Proof.core k s = .next t ∧ SameInput s t ∧
      EndedWith (decompressFrom s.cfg.strictLen s.inputBytes fuel s.rp s.outputBytes) t := by
  induction fuel generalizing s with
  | zero =>
    have hshort : ((bytesBits s.inputBytes).drop s.rp).length < 9 := by
      rw [List.length_drop, bytesBits_length, inputBytes_length, ← State.remain]
      omega
    obtain ⟨u, hstep, hend⟩ := h.coreStep_of_padding (decodeBits_of_short hshort)
    exact h.run_of_coreStep hstep hend
  | succ fuel ih =>
    obtain ⟨hdecode, heq⟩ | ⟨hdecode, heq⟩ | ⟨i, rest, hdecode, heq⟩ :=
      decompressFrom_succ_cases s.cfg.strictLen s.inputBytes fuel s.rp s.outputBytes <;> rw [heq]
    · obtain ⟨u, hstep, hend⟩ := h.coreStep_of_padding hdecode
      exact h.run_of_coreStep hstep hend
    · have hfetched := (fetched_of_no_token (by simp [hdecode])).trans hdecode
      obtain ⟨u, hstep, hend⟩ := coreStep_of_raise (s := s) (f := .truncated) (by
        rw [coreStep_of_not_padding h.phase (by simp [hfetched]), execDecStep_of_truncated h.phase hfetched])
      exact h.run_of_coreStep hstep hend
    · have hi := (decodeBits_token hdecode).1
      have hsize := tokenBits_length hi
      have hbits := (token_end_le hdecode).1
      rw [inputBytes_length] at hbits
      cases hout : tokenOutput s.cfg.strictLen i s.outputBytes with
      | failed f =>
        obtain ⟨r, hfetched⟩ := fetched_of_token hdecode
        have hexec := h.exec_of_failed hi (by rw [State.remain]; omega) hout
        obtain ⟨u, hstep, hend⟩ := coreStep_of_raise ((coreStep_of_token h.phase hfetched).trans (by rw [hexec]))
        exact h.run_of_coreStep hstep hend
      | ok v =>
        obtain ⟨u, hstep, hu, hsame, hrp, hbytes⟩ := h.step_token hdecode hout
        have hremain : u.remain + (tokenBits i).length = s.remain := by
          rw [State.remain, State.remain, hsame.inLen, hrp]
          omega
        obtain ⟨k, t, hk, hrun, hsame', hend⟩ := ih hu (by omega)
        rw [hsame.cfg, hsame.inputBytes_eq, hrp, hbytes] at hend
        exact ⟨k + 1, t, by omega, run_succ_next.mpr ⟨u, hstep, hrun⟩, hsame.trans hsame', hend⟩

end Decompressing

/-! ### The command DECOMPRESS (44_host_commands.md R176, R181) -/

/-- From DEC_INIT the machine ends as `decompress` of its input does. -/
theorem run_decInit {s : State} (hp : s.phase = .decInit) (hhost : s.host = []) (herr : s.errCode = 0)
    (hroom : decompressRoom s.cfg s.inLen = true) :
    ∃ k t, k ≤ 8 * s.inLen / 9 + 2 ∧ Host.Core.run Sys2Proof.core k s = .next t ∧ SameInput s t ∧
      EndedWith (decompressWith s.cfg.strictLen s.inputBytes) t := by
  have hcore := coreStep_of_decInit hp
  rw [decompressWith, inputBytes_length]
  by_cases h0 : s.inLen = 0
  · rw [exec, execDecInit_next.mpr ⟨hp, .inl ⟨h0, rfl⟩⟩] at hcore
    rw [if_pos h0]
    exact ⟨1, _, by omega, run_succ_next.mpr ⟨_, (step_nil hhost).trans hcore, rfl⟩, sameInput_of_coreStep hcore, rfl,
      rfl⟩
  · rw [exec, execDecInit_next.mpr ⟨hp, .inr ⟨h0, rfl⟩⟩] at hcore
    have hsame := sameInput_of_coreStep hcore
    have hdec : Decompressing (endStep { s with rp := 0, outLen := 0, phase := .decRun }) :=
      { phase := rfl
        host := hhost
        errCode := herr
        inside := Nat.zero_le _
        size := Nat.zero_le _
        room := hroom }
    obtain ⟨k, t, hk, hrun, hsame', hend⟩ := hdec.run (fuel := 8 * s.inLen) (Nat.sub_le _ _)
    have hinput := hsame.inputBytes_eq
    rw [hinput] at hend
    rw [if_neg h0]
    exact ⟨k + 1, t, Nat.succ_le_succ hk, run_succ_next.mpr ⟨_, (step_nil hhost).trans hcore, hrun⟩,
      hsame.trans hsame', hend⟩

/-- Settles O43: the write of CMD, DEC.INIT, and the run from the start of the stream. -/
theorem decompressRunComputesDecompress : Obligations.DecompressRunComputesDecompress := by
  intro s w hidle hhost hw
  have hcmd := step_command hidle hhost (.inr ⟨hw, rfl⟩)
  refine ⟨hcmd, fun hroom => ?_⟩
  obtain ⟨k, t, hk, hrun, hsame, hend⟩ :=
    run_decInit (s := { s with host := [], errCode := 0, phase := .decInit }) rfl rfl rfl hroom
  refine ⟨k + 1, t, Nat.succ_le_succ hk, run_succ_next.mpr ⟨_, hcmd, hrun⟩, hsame.host, hsame.inMem, hsame.inLen,
    fun v hv => ?_, fun f hf => ?_, fun hoff => by rw [hoff, decompress]⟩
  · have hok : EndedWith (.ok v) t := hv ▸ hend
    exact hok
  · have hfailed : EndedWith (.failed f) t := hf ▸ hend
    exact hfailed

end Sys2Proof.Machine
end

section
/-! PROOFS, layer 21. `decompress` inverts `compress` (O42). -/

namespace Sys2Proof.Machine

/-- A match copies what it stands for: with the data up to `p` as output, the bytes from `p` on (43_decoder.md R163). -/
theorem copyBytes_take_of_matchesAt {data : List Byte} {p d l : Nat} (hd : 1 ≤ d) (hle : d ≤ p)
    (hend : p + l ≤ data.length) (hmatch : matchesAt data p (p - d) l = true) {n : Nat} (hn : n ≤ l) :
    copyBytes d n (data.take p) = data.take (p + n) := by
  induction n with
  | zero => rfl
  | succ n ih =>
    have hsource : data[p - d + n]? = data[p + n]? :=
      (wrappedMatchIsOverlappedMatch data p (p - d) l (by omega) hend).mp hmatch n hn
    have hindex : p + n - d = p - d + n := by omega
    have hbefore : (data.take (p + n))[p - d + n]? = data[p - d + n]? := List.getElem?_take_of_lt (by omega)
    have hnext : data[p + n]? = some data[p + n] := List.getElem?_eq_getElem (by omega)
    have hlen : (data.take (p + n)).length = p + n := by
      rw [List.length_take]
      omega
    rw [copyBytes_succ, ih (Nat.le_of_succ_le hn), hlen, hindex, List.getD_eq_getElem?_getD, hbefore, hsource, hnext,
      Option.getD_some, ← Nat.add_assoc, List.take_add_one, hnext, Option.toList_some]

/-- The token at cursor `p`, run on the data up to `p`, gives the data up to the next cursor. -/
theorem tokenOutput_nextToken {data : List Byte} {p : Nat} (h : p < data.length) :
    tokenOutput false (nextToken data p) (data.take p) = .ok (data.take (p + nextCover data p)) := by
  rcases hfind : find data p with _ | ⟨d, l⟩
  · obtain ⟨htok, hcover⟩ := nextToken_of_no_find hfind
    rw [htok, hcover, tokenOutput_lit, List.take_add_one, List.getD_eq_getElem?_getD, List.getElem?_eq_getElem h,
      Option.getD_some, Option.toList_some]
  · obtain ⟨htok, hcover⟩ := nextToken_of_find hfind
    obtain ⟨hdist, hlen⟩ := find_fields hfind
    obtain ⟨hd, -, hle⟩ := find_distance_bounds hfind
    obtain ⟨-, -, hend⟩ := find_length_bounds hfind
    obtain ⟨-, -, -, -, hmatch, -, -⟩ := find_eq_some_iff.mp hfind
    have hout : (data.take p).length = p := List.length_take_of_le h.le
    have hgood : ¬(d = 0 ∨ p < d ∨ (false = true ∧ l < 4)) := by
      rintro (h0 | hfar | ⟨hoff, -⟩)
      · omega
      · omega
      · cases hoff
    rw [htok, hcover, tokenOutput_matchTok, hdist, hlen, hout, if_neg hgood,
      copyBytes_take_of_matchesAt hd hle hend hmatch le_rfl]

theorem isToken_nextToken (data : List Byte) (p : Nat) : isToken (nextToken data p) = true := by
  rcases hfind : find data p with _ | ⟨d, l⟩
  · rw [(nextToken_of_no_find hfind).1]
    rfl
  · rw [(nextToken_of_find hfind).1]
    rfl

/-- With the data up to `p` as output, the stream of the rest decompresses to the data. -/
theorem decompressFrom_of_compressBits {c data : List Byte} {pad : List Bool} (hpad : pad.length < 9) {n p : Nat}
    (hn : data.length ≤ p + n) {fuel rp : Nat} (hfuel : 8 * c.length - rp ≤ fuel)
    (hbits : (bytesBits c).drop rp = compressBits data n p ++ pad) :
    decompressFrom false c fuel rp (data.take p) = .ok data := by
  induction n generalizing p fuel rp with
  | zero =>
    have hall : data.take p = data := List.take_of_length_le hn
    rw [decompressFrom_of_padding fuel (hbits ▸ decodeBits_of_short hpad), hall]
  | succ n ih =>
    rcases Nat.lt_or_ge p data.length with hlt | hge
    · rw [compressBits_succ n hlt, List.append_assoc] at hbits
      have hcover := nextCover_pos data p
      have hdecode := hbits ▸ decodeBits_tokenBits_append (isToken_nextToken data p)
        (compressBits data n (p + nextCover data p) ++ pad)
      obtain ⟨hinside, hrest⟩ := token_end_le hdecode
      have hsize := tokenBits_length (isToken_nextToken data p)
      obtain ⟨fuel, rfl⟩ : ∃ m, fuel = m + 1 := ⟨fuel - 1, by omega⟩
      rw [decompressFrom_of_token fuel hdecode, tokenOutput_nextToken hlt, Decompressed.andThen_ok]
      exact ih (by omega) (by omega) hrest
    · rw [compressBits_at_end _ hge, List.nil_append] at hbits
      rw [decompressFrom_of_padding fuel (hbits ▸ decodeBits_of_short hpad), List.take_of_length_le hge]

theorem compress_length_pos {b : List Byte} (h : b ≠ []) : 0 < (compress b).length := by
  obtain ⟨x, xs, rfl⟩ := List.exists_cons_of_ne_nil h
  have hsize := tokenBits_length (isToken_nextToken (x :: xs) 0)
  have hbits := compressBits_succ xs.length (data := x :: xs) (p := 0) (Nat.succ_pos _)
  have hlen := congrArg List.length (bytesBits_compress (x :: xs))
  rw [bytesBits_length, List.length_append, List.length_cons, hbits, List.length_append] at hlen
  omega

/-- The round trip of R163. -/
theorem decompress_compress {b : List Byte} (h : b ≠ []) : decompress (compress b) = .ok b := by
  have hpos := compress_length_pos h
  have hpad : (List.replicate (padCount (compressBits b b.length 0).length) false).length < 9 := by
    have hlt := padCount_lt (compressBits b b.length 0).length
    rw [List.length_replicate]
    omega
  rw [decompress, decompressWith, if_neg hpos.ne']
  exact decompressFrom_of_compressBits (rp := 0) hpad (Nat.le_add_left _ _) le_rfl
    (bytesBits_compress b)

/-- Settles O42: the round trip as functions, and the run by O43. The other direction fails at the byte 0, whose 8 bits
are padding. -/
theorem decompressInvertsCompress : Obligations.DecompressInvertsCompress := by
  refine ⟨fun b => decompress_compress, rfl, rfl, ⟨[0], [], rfl, by decide⟩,
    fun s w b hidle hhost hw hoff hroom hinput => ?_⟩
  obtain ⟨-, hends⟩ := decompressRunComputesDecompress s w hidle hhost hw
  obtain ⟨k, t, -, hrun, hhost', -, -, hok, hfailed, hfunction⟩ := hends hroom
  have hresult := (hfunction hoff).trans (congrArg decompress hinput)
  refine ⟨k, t, hrun, hhost', fun hb => ?_, fun hb => ?_⟩
  · obtain ⟨hdone, -, hout⟩ := hok b (hresult.trans (decompress_compress hb))
    exact ⟨hdone, hout⟩
  · subst hb
    exact hfailed .emptyInput hresult

end Sys2Proof.Machine
end

section
/-! PROOFS, layer 22. A write to CMD starts a command or is ignored (O44). -/

namespace Sys2Proof.Machine

/-! ### The command a bus word stands for, by its low 2 bits -/

section decodeCmd
variable {w : Nat}

theorem decodeCmd_eq_compress (h : w % 4 = 1) : decodeCmd w = .compress := by simp only [decodeCmd, h]

theorem decodeCmd_eq_decompress (h : w % 4 = 2) : decodeCmd w = .decompress := by simp only [decodeCmd, h]

theorem decodeCmd_eq_cmdNop0 (h : w % 4 = 0) : decodeCmd w = .cmdNop0 := by simp only [decodeCmd, h]

theorem decodeCmd_eq_cmdRsvd3 (h : w % 4 = 3) : decodeCmd w = .cmdRsvd3 := by simp only [decodeCmd, h]

end decodeCmd

/-! ### What a command does, by BUSY -/

section commands
variable {s : State}

theorem exec_compress_of_idle (h : s.busy = false) :
    exec .compress s = .next { s with errCode := 0, phase := .encInit } := acceptCommand_of_idle h .encInit

theorem exec_decompress_of_idle (h : s.busy = false) :
    exec .decompress s = .next { s with errCode := 0, phase := .decInit } := acceptCommand_of_idle h .decInit

theorem acceptCommand_of_busy (h : s.busy = true) (p : Phase) : acceptCommand p s = .next s := if_pos h

theorem exec_compress_of_busy (h : s.busy = true) : exec .compress s = .next s := acceptCommand_of_busy h .encInit

theorem exec_decompress_of_busy (h : s.busy = true) : exec .decompress s = .next s := acceptCommand_of_busy h .decInit

theorem exec_cmdNop0 (s : State) : exec .cmdNop0 s = .next s := rfl

theorem exec_cmdRsvd3 (s : State) : exec .cmdRsvd3 s = .next s := rfl

/-- While BUSY = 1 no bus word does anything: each of the four commands leaves the state. -/
theorem exec_decodeCmd_of_busy (h : s.busy = true) (w : Nat) : exec (decodeCmd w) s = .next s := by
  unfold decodeCmd
  split
  · exact exec_compress_of_busy h
  · exact exec_decompress_of_busy h
  · exact exec_cmdRsvd3 s
  · exact exec_cmdNop0 s

end commands

/-- Settles O44: a CMD write runs the command its low 2 bits stand for, and that command looks at BUSY alone. -/
theorem commandsStartOrAreIgnored : Obligations.CommandsStartOrAreIgnored := by
  refine ⟨fun s => ⟨exec_compress_of_idle, exec_decompress_of_idle,
    fun hbusy => ⟨exec_compress_of_busy hbusy, exec_decompress_of_busy hbusy⟩, exec_cmdNop0 s, exec_cmdRsvd3 s⟩,
    fun s w hs hhost => ?_⟩
  rw [step_writeCmd hhost]
  refine ⟨?_, fun hidle hw => ?_, fun hidle hw => ?_⟩
  · rintro (hbusy | hw | hw)
    · exact exec_decodeCmd_of_busy (s := { s with host := hs }) hbusy w
    · rw [decodeCmd_eq_cmdNop0 hw, exec_cmdNop0]
    · rw [decodeCmd_eq_cmdRsvd3 hw, exec_cmdRsvd3]
  · rw [decodeCmd_eq_compress hw]
    exact exec_compress_of_idle (s := { s with host := hs }) hidle
  · rw [decodeCmd_eq_decompress hw]
    exact exec_decompress_of_idle (s := { s with host := hs }) hidle

end Sys2Proof.Machine
end

section
/-! PROOFS, layer 23. When token MATCH raises (O37), how FAULT is left (O51), and that no step answers a fault (O9). -/

namespace Sys2Proof.Machine

/-! ### When token MATCH raises (60_exceptions.md R192, R193, R201) -/

section matchFaults
variable {d : Distance} {l : MatchLen} {s : State}

theorem badMatch_iff :
    badMatch d l s = true ↔ d.toNat = 0 ∨ s.outLen < d.toNat ∨ (s.cfg.strictLen = true ∧ l.toNat < 4) := by
  rw [badMatch_eq_decide, decide_eq_true_iff]

theorem execMatchTok_of_truncated (hp : s.phase = .decRun) (h17 : s.remain < 17) :
    execMatchTok d l s = .next { s with errCode := faultCode .truncated, phase := .fault } :=
  execMatchTok_next.mpr ⟨hp, .inl ⟨h17, rfl⟩⟩

theorem execMatchTok_of_bad (hp : s.phase = .decRun) (h17 : 17 ≤ s.remain) (hbad : badMatch d l s = true) :
    execMatchTok d l s = .next { s with errCode := faultCode .distance, phase := .fault } :=
  execMatchTok_next.mpr ⟨hp, .inr (.inl ⟨h17, hbad, rfl⟩)⟩

/-- MATCH enters FAULT only by a check that fails: what a copied match leaves is still in DEC_RUN. -/
theorem execMatchTok_fault {t : State} (h : execMatchTok d l s = .next t) (ht : t.phase = .fault) :
    s.remain < 17 ∨ badMatch d l s = true := by
  obtain ⟨hp, ⟨h17, -⟩ | ⟨-, hbad, -⟩ | ⟨-, -, -, rfl⟩⟩ := execMatchTok_next.mp h
  · exact .inl h17
  · exact .inr hbad
  · rw [afterMatch_phase, hp] at ht
    cases ht

end matchFaults

/-- Settles O37: the length of the stream is checked first, then the distance, and nothing else raises. -/
theorem matchTokenFaultsExactlyWhen : Obligations.MatchTokenFaultsExactlyWhen :=
  fun _ _ _ hp => ⟨execMatchTok_of_truncated hp, fun h17 hbad => execMatchTok_of_bad hp h17 (badMatch_iff.mpr hbad),
    fun _ h ht => (execMatchTok_fault h ht).imp_right badMatch_iff.mp⟩

/-! ### How a machine that is not busy changes PHASE and ERR_CODE (60_exceptions.md R202) -/

section leaveFault
variable {s t : State}

/-- While BUSY = 0 a write to CMD accepts the command of its low 2 bits or does nothing. -/
theorem exec_decodeCmd_next_of_idle {w : Nat} (hidle : s.busy = false) (h : exec (decodeCmd w) s = .next t) :
    t = s ∨ (w % 4 = 1 ∧ t = { s with errCode := 0, phase := .encInit }) ∨
      (w % 4 = 2 ∧ t = { s with errCode := 0, phase := .decInit }) := by
  unfold decodeCmd at h
  split at h
  · rename_i hw
    cases (exec_compress_of_idle hidle).symm.trans h
    exact .inr (.inl ⟨hw, rfl⟩)
  · rename_i hw
    cases (exec_decompress_of_idle hidle).symm.trans h
    exact .inr (.inr ⟨hw, rfl⟩)
  · cases (exec_cmdRsvd3 s).symm.trans h
    exact .inl rfl
  · cases (exec_cmdNop0 s).symm.trans h
    exact .inl rfl

/-- While BUSY = 0 CORE waits, and HOST changes PHASE and ERR_CODE by an accepted command and by reset only. -/
theorem step_next_of_idle (hidle : s.busy = false) (h : step s = .next t) :
    (t.phase = s.phase ∧ t.errCode = s.errCode) ∨
      (∃ w hs, s.host = .writeCmd w :: hs ∧ ((w % 4 = 1 ∧ t.phase = .encInit) ∨ (w % 4 = 2 ∧ t.phase = .decInit)) ∧
        t.errCode = 0) ∨
      (∃ hs, s.host = .reset :: hs ∧ t.phase = .idle ∧ t.errCode = 0) := by
  cases hhost : s.host with
  | nil =>
    rw [step_nil hhost, coreStep_of_idle (phase_of_not_busy hidle)] at h
    cases h
    exact .inl ⟨rfl, rfl⟩
  | cons m hs =>
    cases m with
    | writeCmd w =>
      rw [step_writeCmd hhost] at h
      obtain rfl | ⟨hw, rfl⟩ | ⟨hw, rfl⟩ := exec_decodeCmd_next_of_idle (by exact hidle) h
      · exact .inl ⟨rfl, rfl⟩
      · exact .inr (.inl ⟨w, hs, rfl, .inl ⟨hw, rfl⟩, rfl⟩)
      · exact .inr (.inl ⟨w, hs, rfl, .inr ⟨hw, rfl⟩, rfl⟩)
    | writeStatus v =>
      cases (step_writeStatus hhost).symm.trans h
      exact .inl ⟨rfl, rfl⟩
    | writeInLen n =>
      obtain ⟨-, -, -, rfl⟩ := hostWriteInLen_next.mp ((step_writeInLen hhost).symm.trans h)
      exact .inl ⟨rfl, rfl⟩
    | writeOutLen v =>
      cases (step_writeOutLen hhost).symm.trans h
      exact .inl ⟨rfl, rfl⟩
    | writeIn a b =>
      obtain ⟨-, -, rfl⟩ := hostWriteIn_next.mp ((step_writeIn hhost).symm.trans h)
      exact .inl ⟨rfl, rfl⟩
    | readCmd | readStatus | readInLen | readOutLen | readOut a =>
      obtain ⟨-, rfl⟩ := (step_read_next (by simp [IsRead]) hhost).mp h
      exact .inl ⟨rfl, rfl⟩
    | poll =>
      rw [step_poll hhost, hidle] at h
      cases h
      exact .inl ⟨rfl, rfl⟩
    | coreTurn =>
      rw [step_coreTurn hhost, coreStep_of_idle (by exact phase_of_not_busy hidle)] at h
      cases h
      exact .inl ⟨rfl, rfl⟩
    | reset =>
      rw [step_reset hhost] at h
      cases h
      exact .inr (.inr ⟨hs, rfl, rfl, rfl⟩)

end leaveFault

/-- Settles O51: in FAULT the machine is not busy. -/
theorem faultIsLeftByCommandOrReset : Obligations.FaultIsLeftByCommandOrReset := by
  intro s t hp h
  have hidle : s.busy = false := by simp [State.busy, hp]
  exact (step_next_of_idle hidle h).imp_left fun ⟨hphase, hcode⟩ => ⟨hphase.trans hp, hcode⟩

/-! ### Failures are transitions (60_exceptions.md R196, log entry 17) -/

/-- The outcome is a next state or a refusal. -/
def FaultFree (r : Result) : Prop := ∀ f, r ≠ .fault f

theorem faultFree_next (t : State) : FaultFree (.next t) := nofun

theorem faultFree_refused (q : Refusal) : FaultFree (.refused q) := nofun

theorem faultFree_ite {c : Prop} [Decidable c] {r r' : Result} (h : FaultFree r) (h' : FaultFree r') :
    FaultFree (if c then r else r') := by
  split <;> assumption

/-- An operation that answers one state under a guard. -/
theorem faultFree_guard {c : Prop} [Decidable c] (t : State) (q : Refusal) :
    FaultFree (if c then .next t else .refused q) :=
  faultFree_ite (faultFree_next t) (faultFree_refused q)

theorem faultFree_unlessRefused (why : Option Refusal) (t : State) : FaultFree (unlessRefused why t) := by
  cases why with
  | none => exact faultFree_next t
  | some q => exact faultFree_refused q

theorem faultFree_finishStep {r : Result} (h : FaultFree r) : FaultFree (finishStep r) := by
  cases r with
  | next t => exact faultFree_next _
  | fault f => exact absurd rfl (h f)
  | refused q => exact faultFree_refused q

section faultFree
variable (s : State)

/-- `raise` answers a next state: this is where a failure is taken. -/
theorem faultFree_raise (f : Fault) : FaultFree (raise f s) := faultFree_next _

theorem faultFree_acceptCommand (p : Phase) : FaultFree (acceptCommand p s) :=
  faultFree_ite (faultFree_next _) (faultFree_next _)

theorem faultFree_whileIdle {r : Result} (h : FaultFree r) : FaultFree (whileIdle s r) :=
  faultFree_ite (faultFree_refused _) h

theorem faultFree_execPad : FaultFree (execPad s) := by
  unfold execPad
  split
  · exact faultFree_guard _ _
  all_goals exact faultFree_unlessRefused _ _

theorem faultFree_execEncInit : FaultFree (execEncInit s) := by
  unfold execEncInit
  split
  · exact faultFree_next _
  all_goals exact faultFree_refused _

theorem faultFree_execEncStep : FaultFree (execEncStep s) := by
  unfold execEncStep
  split
  · refine faultFree_ite ?_ (faultFree_refused _)
    split
    · exact faultFree_unlessRefused _ _
    · exact faultFree_unlessRefused _ _
  all_goals exact faultFree_refused _

theorem faultFree_execEncFinal : FaultFree (execEncFinal s) := by
  unfold execEncFinal
  split
  · exact faultFree_ite (faultFree_unlessRefused _ _) (faultFree_refused _)
  all_goals exact faultFree_refused _

theorem faultFree_execDecInit : FaultFree (execDecInit s) := by
  unfold execDecInit
  split
  · exact faultFree_ite (faultFree_raise s _) (faultFree_next _)
  all_goals exact faultFree_refused _

theorem faultFree_execLit (b : Byte) : FaultFree (execLit b s) := by
  unfold execLit
  split
  · exact faultFree_ite (faultFree_unlessRefused _ _) (faultFree_refused _)
  all_goals exact faultFree_refused _

theorem faultFree_execMatchTok (d : Distance) (l : MatchLen) : FaultFree (execMatchTok d l s) := by
  unfold execMatchTok
  split
  · exact faultFree_ite (faultFree_raise s _) (faultFree_ite (faultFree_raise s _) (faultFree_unlessRefused _ _))
  all_goals exact faultFree_refused _

theorem faultFree_execDecStep : FaultFree (execDecStep s) := by
  unfold execDecStep
  split
  · split
    · exact faultFree_execLit s _
    · exact faultFree_execMatchTok s _ _
    · exact faultFree_refused _
    · exact faultFree_raise s _
    · exact faultFree_refused _
  all_goals exact faultFree_refused _

theorem faultFree_execDecFinal : FaultFree (execDecFinal s) := by
  unfold execDecFinal
  split
  · exact faultFree_guard _ _
  all_goals exact faultFree_refused _

theorem faultFree_exec (i : Instr) : FaultFree (exec i s) := by
  cases i with
  | lit b => exact faultFree_execLit s b
  | matchTok d l => exact faultFree_execMatchTok s d l
  | pad => exact faultFree_execPad s
  | compress | decompress => exact faultFree_acceptCommand s _
  | cmdNop0 | cmdRsvd3 | bsNew | bsLoad | bsRemain => exact faultFree_next _
  | bsPush1 | bsPad | encEmitLit => exact faultFree_unlessRefused _ _
  | bsPushf | encEmitMatch => exact faultFree_ite (faultFree_unlessRefused _ _) (faultFree_refused _)
  | bsTobytes | bsPop | bsPeek | mfFind => exact faultFree_guard _ _
  | mfWrap => exact faultFree_ite (faultFree_refused _) (faultFree_next _)
  | encInit => exact faultFree_execEncInit s
  | encStep => exact faultFree_execEncStep s
  | encFinal => exact faultFree_execEncFinal s
  | decInit => exact faultFree_execDecInit s
  | decStep => exact faultFree_execDecStep s
  | decFinal => exact faultFree_execDecFinal s

theorem faultFree_coreStep : FaultFree (coreStep s) := by
  unfold coreStep
  split
  · exact faultFree_finishStep (faultFree_exec s _)
  · exact faultFree_next s

theorem faultFree_hostReadOut (a : Nat) : FaultFree (hostReadOut a s) :=
  faultFree_whileIdle s (faultFree_ite (faultFree_refused _) (faultFree_ite (faultFree_next _) (faultFree_next _)))

end faultFree

/-- Settles O9: CORE's steps and commands by `faultFree_exec`, HOST's other moves one by one. -/
theorem failuresAreTakenAsTransitions : Obligations.FailuresAreTakenAsTransitions := by
  intro s
  change FaultFree (step s)
  cases hhost : s.host with
  | nil => exact step_nil hhost ▸ faultFree_coreStep s
  | cons m hs =>
    simp only [step, hhost]
    cases m with
    | writeCmd w => exact faultFree_exec _ _
    | writeStatus | writeOutLen | readCmd | readStatus | reset => exact faultFree_next _
    | writeInLen | writeIn => exact faultFree_whileIdle _ (faultFree_guard _ _)
    | readInLen | readOutLen => exact faultFree_whileIdle _ (faultFree_next _)
    | readOut a => exact faultFree_hostReadOut _ a
    | poll => exact faultFree_ite (faultFree_coreStep _) (faultFree_next _)
    | coreTurn => exact faultFree_coreStep _

end Sys2Proof.Machine
end

section
/-! PROOFS, layer 24. What reset leaves (O10), and that it meets the invariant (O11). -/

namespace Sys2Proof.Machine

section idle
variable {s : State}

/-- In IDLE none of BUSY, DONE and ERR is set, and no ERR_CODE shows (10_state.md R23). -/
theorem status_of_idle (h : s.phase = .idle) : s.status = 0 := by
  simp [State.status, State.busy, State.done, State.err, h]

/-- In IDLE CORE waits (10_state.md R24). -/
theorem enabledOp_of_idle (h : s.phase = .idle) : enabledOp s = none := by simp [enabledOp, h]

end idle

/-- Settles O10: reset and the reset event both give IDLE and list no byte; STATUS and the enabled step follow from IDLE. -/
theorem resetLeavesTheStatedValues : Obligations.ResetLeavesTheStatedValues := by
  have hunlisted (a : Nat) : Memory.get [] a = none ∧ Memory.get [] a = none := ⟨Memory.get_nil a, Memory.get_nil a⟩
  refine ⟨⟨rfl, rfl, status_of_idle rfl, rfl, rfl, hunlisted, enabledOp_of_idle rfl⟩, fun s hs hhost => ?_⟩
  exact ⟨_, step_reset hhost, rfl, rfl, status_of_idle rfl, rfl, rfl, hunlisted, enabledOp_of_idle rfl⟩

/-- A reset event right after reset changes only the count of resets, which the invariant reads in ENC_RUN alone. -/
theorem inv_resetWith (cfg : Config) : Inv (State.resetWith cfg) :=
  { inv_hostReset (s := State.resetWith cfg) rfl with enc := nofun }

/-- Settles O11: the default parameters are one case of `inv_resetWith`. -/
theorem invHoldsAfterReset : Obligations.InvHoldsAfterReset := ⟨inv_resetWith Config.standard, inv_resetWith⟩

end Sys2Proof.Machine
end
